-- ==== Sys2Proof/Word.lean ====
section
/-! DEFINITION. The fixed widths of the block (00_scope.md R8), as names. -/

namespace Sys2Proof

/-- A register, a response or a packed stereo pair: 32 bits (R8, R13, R112). -/
abbrev Word := BitVec 32

/-- A command word: 64 bits (R100). -/
abbrev Command := BitVec 64

/-- A PCM sample: 16 bits, read as two's complement where the spec says `sext_16` (R8). -/
abbrev Sample := BitVec 16

/-- One sinc accumulator: 64 bits, signed (R8, R48). -/
abbrev Acc := BitVec 64

/-- A pixel cell's contents, zero-extended to 32 bits: an RGB565 cell uses bits 15:0 only (R80, R82). -/
abbrev Pixel := BitVec 32

end Sys2Proof
end

