-- ==== Sys2Proof/Syntax.lean ====
section
/-! DEFINITION. The commands: one constructor per row of spec/opcode_table.json, its operands as wide as the
fields of the command word that carry them (30_encoding.md R101, R104, R106). -/

namespace Sys2Proof

/-- A command with its operands. A register number, a history memory number and a cell index are carried as
written: they are checked by the command's own rule, not by the decoder (R105). -/
inductive Instr where
  /-- NOP (R130). -/
  | nop
  /-- RDREG `n` (R131). -/
  | rdreg (n : BitVec 8)
  /-- WRREG `n`, `v` (R132). -/
  | wrreg (n : BitVec 8) (v : Word)
  /-- RESET (R134). -/
  | reset
  /-- RS_PUSH `l`, `r` (R151). -/
  | rsPush (l r : Sample)
  /-- RS_POP (R154). -/
  | rsPop
  /-- RS_MARK (R155). -/
  | rsMark
  /-- PC_CHECK (R201). -/
  | pcCheck
  /-- PC_ADD `n` (R202). -/
  | pcAdd (n : Word)
  /-- PC_COMMIT (R203). -/
  | pcCommit
  /-- PC_CLEAR (R204). -/
  | pcClear
  /-- BL_FRAME (R233). -/
  | blFrame
  /-- FB_WR `i`, `p` (R241); `p` is the whole field D, cut to the pixel width when it is stored. -/
  | fbWr (i : BitVec 16) (p : Word)
  /-- FB_RD `i` (R242). -/
  | fbRd (i : BitVec 16)
  /-- HIST_RD H`j`, `i` (R243). -/
  | histRd (j : BitVec 8) (i : BitVec 16)
  deriving DecidableEq, Repr

end Sys2Proof
end

