-- ==== Sys2Proof/Decode.lean ====
section
/-! DEFINITION. The decoder, total on 64-bit words (30_encoding.md R107), and the encoder, from the same tables
(R101, R102, R103, R106). -/

namespace Sys2Proof

/-- The seven formats (R102). -/
inductive Format where
  | N | R | W | D | X | Y | H
  deriving DecidableEq, Repr

/-- Why a word is illegal (R109): its opcode is unassigned (R110), or a reserved field is not 0 (R108). -/
inductive Reject where
  | unassignedOpcode
  | reservedField
  deriving DecidableEq, Repr

/-- The mask of each format: a 1 where a bit is fixed (R103). -/
def Format.mask : Format → Command
  | .N => 0xFFFFFFFFFFFFFFFF
  | .R => 0xFF00FFFFFFFFFFFF
  | .W => 0xFF00FFFF00000000
  | .D => 0xFFFFFFFF00000000
  | .X => 0xFFFF000000000000
  | .Y => 0xFFFF0000FFFFFFFF
  | .H => 0xFF000000FFFFFFFF

/-- Field OP, bits 63:56 (R101). -/
def fieldOp (c : Command) : BitVec 8 := c.extractLsb' 56 8

/-- Field A, bits 55:48 (R101). -/
def fieldA (c : Command) : BitVec 8 := c.extractLsb' 48 8

/-- Field B, bits 47:32 (R101). -/
def fieldB (c : Command) : BitVec 16 := c.extractLsb' 32 16

/-- Field D, bits 31:0 (R101). -/
def fieldD (c : Command) : Word := c.extractLsb' 0 32

/-- D[31:16]: the left sample of a pair (R104). -/
def leftOf (d : Word) : Sample := d.extractLsb' 16 16

/-- D[15:0]: the right sample of a pair (R104). -/
def rightOf (d : Word) : Sample := d.extractLsb' 0 16

/-- The opcode map (R106) with each command's operands (R104): the format of the word's opcode and the command it
selects, or nothing where the opcode is unassigned (R110). -/
def opcodeMap (c : Command) : Option (Format × Instr) :=
  match (fieldOp c).toNat with
  | 0x00 => some (.N, .nop)
  | 0x01 => some (.R, .rdreg (fieldA c))
  | 0x02 => some (.W, .wrreg (fieldA c) (fieldD c))
  | 0x03 => some (.N, .reset)
  | 0x10 => some (.D, .rsPush (leftOf (fieldD c)) (rightOf (fieldD c)))
  | 0x11 => some (.N, .rsPop)
  | 0x12 => some (.N, .rsMark)
  | 0x20 => some (.N, .pcCheck)
  | 0x21 => some (.D, .pcAdd (fieldD c))
  | 0x22 => some (.N, .pcCommit)
  | 0x23 => some (.N, .pcClear)
  | 0x30 => some (.N, .blFrame)
  | 0x31 => some (.X, .fbWr (fieldB c) (fieldD c))
  | 0x32 => some (.Y, .fbRd (fieldB c))
  | 0x33 => some (.H, .histRd (fieldA c) (fieldB c))
  | _ => none

/-- The match word of an opcode: `op << 56` (R103). -/
def matchWord (op : BitVec 8) : Command := op.zeroExtend 64 <<< 56

/-- Decoding of a word (R107). -/
def decode (c : Command) : Except Reject Instr :=
  match opcodeMap c with
  | none => .error .unassignedOpcode
  | some (f, i) => if c &&& f.mask = matchWord (fieldOp c) then .ok i else .error .reservedField

/-- What the decoder reads from a word of the opcode table's numbering. Every row of the table is 64 bits, and a
command is one 64-bit word (R100), so the word is the number itself; bits above `nbits` are 0. -/
def decodeTableWord (nbits w : Nat) : Option Instr :=
  match decode (BitVec.ofNat 64 (w % 2 ^ nbits)) with
  | .ok i => some i
  | .error _ => none

/-! ## The encoder -/

/-- A command word from its four fields (R101). -/
def wordOf (op a : BitVec 8) (b : BitVec 16) (d : Word) : Command := op ++ a ++ b ++ d

/-- The command's opcode (R106). -/
def Instr.opcode : Instr → BitVec 8
  | .nop => 0x00
  | .rdreg _ => 0x01
  | .wrreg _ _ => 0x02
  | .reset => 0x03
  | .rsPush _ _ => 0x10
  | .rsPop => 0x11
  | .rsMark => 0x12
  | .pcCheck => 0x20
  | .pcAdd _ => 0x21
  | .pcCommit => 0x22
  | .pcClear => 0x23
  | .blFrame => 0x30
  | .fbWr _ _ => 0x31
  | .fbRd _ => 0x32
  | .histRd _ _ => 0x33

/-- The command's format (R102, R106). -/
def Instr.format : Instr → Format
  | .nop | .reset | .rsPop | .rsMark | .pcCheck | .pcCommit | .pcClear | .blFrame => .N
  | .rdreg _ => .R
  | .wrreg _ _ => .W
  | .rsPush _ _ | .pcAdd _ => .D
  | .fbWr _ _ => .X
  | .fbRd _ => .Y
  | .histRd _ _ => .H

/-- The word of a command (R102, R104, R106): unused fields are 0 (R108). -/
def encode (i : Instr) : Command :=
  match i with
  | .nop | .reset | .rsPop | .rsMark | .pcCheck | .pcCommit | .pcClear | .blFrame => wordOf i.opcode 0 0 0
  | .rdreg n => wordOf i.opcode n 0 0
  | .wrreg n v => wordOf i.opcode n 0 v
  | .rsPush l r => wordOf i.opcode 0 0 (l ++ r)
  | .pcAdd n => wordOf i.opcode 0 0 n
  | .fbWr x p => wordOf i.opcode 0 x p
  | .fbRd x => wordOf i.opcode 0 x 0
  | .histRd j x => wordOf i.opcode j x 0

end Sys2Proof
end

