-- ==== Sys2Proof/Config.lean ====
section
/-! DEFINITION. The build parameters P_* (00_scope.md R6, 92_eei_decisions.md D38 to D47): what a build fixes and
no command changes. A model "takes the following build parameters as arguments" (R6): `Config` is that argument,
carried by the state. -/

namespace Sys2Proof

/-- The two backends of the resampler (R1, R38). -/
inductive Backend where
  | sinc
  | cosine
  deriving DecidableEq, Repr

/-- The pixel format P_PIXFMT (R6, R231): 0 RGB565, 1 XRGB8888. -/
inductive PixFmt where
  | rgb565
  | xrgb8888
  deriving DecidableEq, Repr

/-- The build parameters of R6, and P_BASE of D47. Their legal values are `Config.legal` (WellFormed.lean). -/
structure Config where
  /-- P_SINC_OK: the sinc backend is present and usable. -/
  pSincOk : Bool
  /-- P_FI: native input sample rate in Hz. -/
  pFi : Nat
  /-- P_D: sinc decimation ratio. -/
  pD : Nat
  /-- P_T: sinc taps per phase. -/
  pT : Nat
  /-- P_HP: the prototype filter, `hp[0]` first, each a Q1.15 coefficient. -/
  pHp : List (BitVec 16)
  /-- P_FO: cosine output sample rate in Hz. -/
  pFo : Nat
  /-- P_Q: depth of OUTQ in stereo pairs. -/
  pQ : Nat
  /-- P_CAP_RESET: reset value of RS_CAP. -/
  pCapReset : Word
  /-- P_SEL_RESET: reset value of RS_CTRL.SEL. -/
  pSelReset : Backend := .cosine
  /-- P_HIST_AVAIL: history memories physically present. -/
  pHistAvail : Nat := 4
  /-- P_PIXFMT: pixel format. -/
  pPixFmt : PixFmt := .rgb565
  /-- P_FB_PIXELS: cells of FB and of each history memory. -/
  pFbPixels : Nat := 23040
  /-- P_WF: ghost-fast weight, Q8.8. -/
  pWf : BitVec 16
  /-- P_W_RESET: reset value of BL_WIDTH. -/
  pWReset : BitVec 16 := 160
  /-- P_H_RESET: reset value of BL_HEIGHT. -/
  pHReset : BitVec 16 := 144
  /-- P_PITCH_RESET: reset value of BL_PITCH. -/
  pPitchReset : BitVec 16 := 160
  /-- P_BASE: the block's place in the host's address map; no rule reads it (R91, D47). -/
  pBase : Nat := 0
  deriving DecidableEq, Repr

/-- The build that `Machine.State.reset` carries. The spec's defaults (R6), and for the parameters the spec leaves
OPEN the values of the test configuration TC-S1 and of TC-B's P_WF (95_test_vectors.md section 0.1).
DESIGN CHOICE (log entry 3): unsafe for a claim about `State.reset` alone; no statement rests on them. -/
def Config.chosen : Config :=
  { pSincOk := true, pFi := 96000, pD := 2, pT := 2, pHp := [16384, 8192, 4096, 4096], pFo := 48000, pQ := 4,
    pCapReset := 0xFFFFFFFF, pWf := 0x0080 }

end Sys2Proof
end

