-- ==== Sys2Proof/Machine/State.lean ====
section
/-! DEFINITION. The state of the block, as plain data (10_state.md, 20_memory.md), the names its registers, errors
and memories go by, the reasons a step can stop, and the state after power-on (10_state.md R68). -/

namespace Sys2Proof.Machine

/-- The ten error events, in the order of their STATUS bits (R36, R280). -/
inductive Err where
  | illegal
  | drop
  | ovf
  | under
  | fallback
  | proto
  | geom
  | alloc
  | badval
  | range
  deriving DecidableEq, Repr

/-- The 27 registers (R33). -/
inductive Reg where
  | caps
  | status
  | rsCtrl
  | rsStat
  | rsRate
  | rsAvail
  | rsCap
  | rsBlkcnt
  | rsDropcnt
  | rsPhase
  | pcSamplesLo
  | pcSamplesHi
  | pcFramesLo
  | pcFramesHi
  | pcSpf
  | pcMult
  | pcStat
  | blCtrl
  | blStat
  | blW1
  | blW2
  | blW3
  | blW4
  | blWf
  | blWidth
  | blHeight
  | blPitch
  deriving DecidableEq, Repr

/-- The blend kinds of BL_CTRL.MODE (R58): 0 none (here `off`), 1 mix, 2 ghosting-accurate, 3 ghosting-fast. -/
inductive BlendKind where
  | off
  | mix
  | ghostAccurate
  | ghostFast
  deriving DecidableEq, Repr

/-- The cell memories (R11, R80): FB and the history memories, H1 the newest (R83). -/
inductive Space where
  | fb
  | h1
  | h2
  | h3
  | h4
  deriving DecidableEq, Repr

/-- One memory: (cell index, pixel) pairs, indexes strictly rising, no entry equal to what an unlisted cell reads
as. The smallest unit of every memory is a whole pixel cell (R88). -/
abbrev Memory := List (Nat × Pixel)

/-- What a cell that is not listed reads as: a history cell 0, as every cell is after HIST_CLEAR and reset (R66, R68);
an FB cell has no value, since nothing has written it since power-on (R302; log entry 1). -/
def Space.unlisted : Space → Option Pixel
  | .fb => none
  | .h1 | .h2 | .h3 | .h4 => some 0

/-- Indexes strictly rise. -/
def Memory.rising : Memory → Bool
  | [] => true
  | [_] => true
  | (a, _) :: (b, w) :: m => a < b && Memory.rising ((b, w) :: m)

/-- The canonical form of a memory whose unlisted cells read as `d`. -/
def Memory.wf (d : Option Pixel) (m : Memory) : Bool := m.rising && m.all (fun cell => some cell.2 != d)

/-- The resampler's state (R38, R44 to R49, R85). -/
structure Resampler where
  /-- RS_CTRL.SEL, the configured backend (R38). -/
  sel : Backend
  /-- OUTQ: packed pairs, oldest first (R85). -/
  outq : List Word
  /-- RS_CAP (R44). -/
  cap : Word
  /-- RS_BLKCNT (R45). -/
  blkcnt : Word
  /-- RS_DROPCNT (R46). -/
  dropcnt : Word
  /-- SACC_L[0 .. P_T - 1] (R48). -/
  saccL : List Acc
  /-- SACC_R[0 .. P_T - 1] (R48). -/
  saccR : List Acc
  /-- PH, the sinc input phase, in 0 .. P_D - 1 (R48). -/
  ph : Nat
  /-- CA_L, the previous left input of the cosine backend (R49). -/
  caL : Sample
  /-- CA_R, the previous right input of the cosine backend (R49). -/
  caR : Sample
  /-- CR, the cosine phase register (R49). -/
  cr : Word
  deriving DecidableEq, Repr

/-- The pacer's state (R50 to R57). -/
structure Pacer where
  /-- SAMPLES (R50). -/
  samples : BitVec 64
  /-- FRAMES (R51). -/
  frames : BitVec 64
  /-- PC_SPF.SPF (R56). -/
  spf : Word
  /-- PC_MULT.MULT (R57). -/
  mult : BitVec 3
  /-- PC_STAT.LAST_DUPE (R53, R55). -/
  lastDupe : Bool
  /-- PC_STAT.RUN (R53, R54). -/
  run : Bool
  deriving DecidableEq, Repr

/-- The blender's registers (R58 to R64). -/
structure Blender where
  /-- BL_CTRL.MODE (R58). -/
  mode : BlendKind
  /-- BL_W1 (R60). -/
  w1 : BitVec 16
  /-- BL_W2 (R60). -/
  w2 : BitVec 16
  /-- BL_W3 (R60). -/
  w3 : BitVec 16
  /-- BL_W4 (R60). -/
  w4 : BitVec 16
  /-- BL_WIDTH.W (R62). -/
  width : BitVec 16
  /-- BL_HEIGHT.H (R63). -/
  height : BitVec 16
  /-- BL_PITCH.PITCH (R64). -/
  pitch : BitVec 16
  deriving DecidableEq, Repr

/-- The cell memories (R80, R82, R83). -/
structure Memories where
  fb : Memory
  h1 : Memory
  h2 : Memory
  h3 : Memory
  h4 : Memory
  deriving DecidableEq, Repr

/-- The state of the block, its build, and the two ends of its command port. -/
structure State where
  /-- The build (R6): no command changes it (log entry 2). -/
  cfg : Config
  /-- STATUS, its ten sticky bits (R36). -/
  status : BitVec 10
  rs : Resampler
  pc : Pacer
  bl : Blender
  mem : Memories
  /-- The model's own: the command words the host has still to deliver, oldest first (R31, R100; log entry 4). -/
  cmds : List Command
  /-- The model's own: the responses returned so far, oldest first (R112, R319; log entry 5). -/
  resps : List Word
  deriving DecidableEq, Repr

/-- Why the machine stops with a fault. -/
inductive Fault where
  /-- Raised by FB_RD and by BL_FRAME in a mode other than none, on a read of an FB cell that nothing has written
  since power-on: "a read of an FB cell not written since power-on: fault" (93_implementation_defined.md section 2,
  R302). Safe: the model stops where the block goes on with an unspecified value (log entry 1). -/
  | fbCellUnwritten (index : Nat)
  deriving DecidableEq, Repr

/-- Why the machine refuses a step. -/
inductive Refusal where
  /-- Raised by an arm of `exec` for a command that has no meaning yet; no arm does. Safe. -/
  | notModelled (mnemonic : String)
  /-- Raised by `step` for a build whose parameters are not legal: "a model refuses an instance"
  (93_implementation_defined.md section 2, R6). Safe (log entry 6). -/
  | illegalBuild
  deriving DecidableEq, Repr

/-- STATUS after a reset: 0, except FALLBACK (bit 4) when P_SEL_RESET = 0 and P_SINC_OK = 0 (R68). -/
def statusAtReset (c : Config) : BitVec 10 := if c.pSelReset = .sinc ∧ c.pSincOk = false then 0x010 else 0

/-- The state after power-on of a build (R68, R300): FB has no written cell, the command port is idle. -/
def State.powerOn (c : Config) : State :=
  { cfg := c
    status := statusAtReset c
    rs :=
      { sel := c.pSelReset, outq := [], cap := c.pCapReset, blkcnt := 0, dropcnt := 0,
        saccL := List.replicate c.pT 0, saccR := List.replicate c.pT 0, ph := 0, caL := 0, caR := 0,
        cr := BitVec.ofNat 32 c.pFo }
    pc := { samples := 0, frames := 0, spf := 35112, mult := 1, lastDupe := false, run := false }
    bl :=
      { mode := .off, w1 := 0, w2 := 0, w3 := 0, w4 := 0, width := c.pWReset, height := c.pHReset,
        pitch := c.pPitchReset }
    mem := { fb := [], h1 := [], h2 := [], h3 := [], h4 := [] }
    cmds := []
    resps := [] }

/-- The machine right after reset: power-on of the build `Config.chosen` (log entry 3). -/
def State.reset : State := State.powerOn Config.chosen

end Sys2Proof.Machine
end

