-- ==== Sys2Proof/Machine/Flags.lean ====
section
/-! DEFINITION. The STATUS register: raising an error and clearing bits (00_scope.md R12, 10_state.md R36, R37). The
block's only flags are these (40_control.md), and it has no trap: `raise` is all an error does (R280, R286). -/

namespace Sys2Proof.Machine

/-- The error's code: its bit number in STATUS (R36, R280). -/
def Err.code : Err → Nat
  | .illegal => 0
  | .drop => 1
  | .ovf => 2
  | .under => 3
  | .fallback => 4
  | .proto => 5
  | .geom => 6
  | .alloc => 7
  | .badval => 8
  | .range => 9

/-- The STATUS word with the error's bit alone. -/
def Err.mask (e : Err) : BitVec 10 := 1#10 <<< e.code

/-- The error's STATUS bit is set. -/
def State.flag (s : State) (e : Err) : Bool := s.status.getLsbD e.code

/-- `raise E`: sets bit E of STATUS and changes nothing else (R12). -/
def State.raise (s : State) (e : Err) : State := { s with status := s.status ||| e.mask }

/-- `STATUS <- STATUS AND NOT v[9:0]` (R37). -/
def State.clearStatus (s : State) (v : Word) : State := { s with status := s.status &&& ~~~(v.extractLsb' 0 10) }

end Sys2Proof.Machine
end

