-- ==== Sys2Proof/Machine/Operands.lean ====
section
/-! DEFINITION. Operands: register numbers (10_state.md R33), the integer arithmetic of the pseudocode (00_scope.md
R10), sample pairs (R13), the pixel channels (43_blender.md R231, R232) and the cosine weights (41_resampler.md
R171). Values are mathematical integers until a rule writes them into a cell of a stated width (R10). -/

namespace Sys2Proof.Machine

/-! ## Integer arithmetic (R10) -/

/-- `asr(v, n) = floor(v / 2^n)` (R10). -/
def asr (v : Int) (n : Nat) : Int := v / 2 ^ n

/-- `clamp(v, lo, hi) = min(max(v, lo), hi)` (R10). -/
def clamp (v lo hi : Int) : Int := min (max v lo) hi

/-- `sat16(v)` (R10). -/
def sat16 (v : Int) : Int := clamp v (-32768) 32767

/-- `{l[15:0], r[15:0]}`: left in bits 31:16, right in bits 15:0 (R13); each stored modulo 2^16 (R10). -/
def packPair (l r : Int) : Word := BitVec.ofInt 16 l ++ BitVec.ofInt 16 r

/-- A flag as a 32-bit word with that bit 0. -/
def bit0 (b : Bool) : Word := if b then 1 else 0

/-! ## Register numbers (R33) -/

/-- The register's number (R33). -/
def Reg.number : Reg → BitVec 8
  | .caps => 0x00
  | .status => 0x01
  | .rsCtrl => 0x02
  | .rsStat => 0x03
  | .rsRate => 0x04
  | .rsAvail => 0x05
  | .rsCap => 0x06
  | .rsBlkcnt => 0x07
  | .rsDropcnt => 0x08
  | .rsPhase => 0x09
  | .pcSamplesLo => 0x10
  | .pcSamplesHi => 0x11
  | .pcFramesLo => 0x12
  | .pcFramesHi => 0x13
  | .pcSpf => 0x14
  | .pcMult => 0x15
  | .pcStat => 0x16
  | .blCtrl => 0x20
  | .blStat => 0x21
  | .blW1 => 0x22
  | .blW2 => 0x23
  | .blW3 => 0x24
  | .blW4 => 0x25
  | .blWf => 0x26
  | .blWidth => 0x27
  | .blHeight => 0x28
  | .blPitch => 0x29

/-- The register a number names, or nothing where the number is unassigned (R33, R69). -/
def regOf (n : BitVec 8) : Option Reg :=
  match n.toNat with
  | 0x00 => some .caps
  | 0x01 => some .status
  | 0x02 => some .rsCtrl
  | 0x03 => some .rsStat
  | 0x04 => some .rsRate
  | 0x05 => some .rsAvail
  | 0x06 => some .rsCap
  | 0x07 => some .rsBlkcnt
  | 0x08 => some .rsDropcnt
  | 0x09 => some .rsPhase
  | 0x10 => some .pcSamplesLo
  | 0x11 => some .pcSamplesHi
  | 0x12 => some .pcFramesLo
  | 0x13 => some .pcFramesHi
  | 0x14 => some .pcSpf
  | 0x15 => some .pcMult
  | 0x16 => some .pcStat
  | 0x20 => some .blCtrl
  | 0x21 => some .blStat
  | 0x22 => some .blW1
  | 0x23 => some .blW2
  | 0x24 => some .blW3
  | 0x25 => some .blW4
  | 0x26 => some .blWf
  | 0x27 => some .blWidth
  | 0x28 => some .blHeight
  | 0x29 => some .blPitch
  | _ => none

/-- RS_CTRL.SEL and RS_STAT.EFF: 0 sinc, 1 cosine (R38, R40). -/
def backendBit : Backend → Word
  | .sinc => 0
  | .cosine => 1

/-- The backend that bit 0 of a written value selects (R38). -/
def backendOf (v : Word) : Backend := if v.getLsbD 0 then .cosine else .sinc

/-- BL_CTRL.MODE and BL_STAT.EFF_MODE as bits 1:0 (R58). -/
def kindBits : BlendKind → Word
  | .off => 0
  | .mix => 1
  | .ghostAccurate => 2
  | .ghostFast => 3

/-- The blend kind that bits 1:0 of a written value select (R58). -/
def kindOf (v : Word) : BlendKind :=
  match (v.extractLsb' 0 2).toNat with
  | 0 => .off
  | 1 => .mix
  | 2 => .ghostAccurate
  | _ => .ghostFast

/-! ## Pixels (R231, R232) -/

/-- The three channels of a pixel (R231). -/
inductive Chan where
  | R
  | G
  | B
  deriving DecidableEq, Repr

/-- The width of a cell in bits (R231). -/
def cellWidth : PixFmt → Nat
  | .rgb565 => 16
  | .xrgb8888 => 32

/-- A value as a cell stores it: the low 16 bits for RGB565, all 32 for XRGB8888 (R82). -/
def storedPixel (f : PixFmt) (p : Word) : Pixel :=
  match f with
  | .rgb565 => p &&& 0x0000FFFF
  | .xrgb8888 => p

/-- The lowest bit of a channel (R231). -/
def chanShift : PixFmt → Chan → Nat
  | .rgb565, .R => 11
  | .rgb565, .G => 5
  | .rgb565, .B => 0
  | .xrgb8888, .R => 16
  | .xrgb8888, .G => 8
  | .xrgb8888, .B => 0

/-- The number of bits of a channel (R231). -/
def chanBits : PixFmt → Chan → Nat
  | .rgb565, .R => 5
  | .rgb565, .G => 6
  | .rgb565, .B => 5
  | .xrgb8888, _ => 8

/-- `MAXC(ch)`: the channel's maximum (R231, R232). -/
def maxC (f : PixFmt) (ch : Chan) : Nat := 2 ^ chanBits f ch - 1

/-- `UNPACK(p).ch`: one channel of a pixel (R232). -/
def unpack (f : PixFmt) (p : Pixel) (ch : Chan) : Nat := p.toNat / 2 ^ chanShift f ch % 2 ^ chanBits f ch

/-- `PACK(R, G, B)`: a pixel from three in-range channels; X is 0 (R232). -/
def pack (f : PixFmt) (r g b : Nat) : Pixel :=
  BitVec.ofNat 32 (r * 2 ^ chanShift f .R + g * 2 ^ chanShift f .G + b * 2 ^ chanShift f .B)

/-- The same operation on each channel, then PACK (R232: "the channels never mix"). -/
def perChannel (f : PixFmt) (op : Chan → Nat) : Pixel := pack f (op .R) (op .G) (op .B)

/-! ## The cosine weights (R171) -/

/-- COSW as listed, sixteen entries a row (R171). -/
def coswRows : List (List Nat) :=
  [ [0, 1, 5, 11, 20, 31, 44, 60, 79, 100, 123, 149, 177, 208, 241, 277],
    [315, 355, 398, 443, 491, 541, 593, 648, 705, 765, 827, 891, 958, 1027, 1098, 1171],
    [1247, 1325, 1406, 1488, 1573, 1660, 1749, 1841, 1935, 2030, 2128, 2229, 2331, 2435, 2542, 2651],
    [2761, 2874, 2989, 3105, 3224, 3345, 3468, 3592, 3719, 3847, 3978, 4110, 4244, 4380, 4518, 4657],
    [4799, 4942, 5087, 5233, 5381, 5531, 5682, 5835, 5990, 6146, 6304, 6463, 6624, 6786, 6950, 7115],
    [7282, 7449, 7619, 7789, 7961, 8134, 8308, 8484, 8661, 8839, 9018, 9198, 9379, 9561, 9745, 9929],
    [10114, 10300, 10487, 10676, 10864, 11054, 11245, 11436, 11628, 11821, 12014, 12208, 12403, 12598, 12794, 12991],
    [13188, 13385, 13583, 13781, 13980, 14179, 14378, 14578, 14778, 14978, 15179, 15379, 15580, 15781, 15982, 16183],
    [16384, 16585, 16786, 16987, 17188, 17389, 17589, 17790, 17990, 18190, 18390, 18589, 18788, 18987, 19185, 19383],
    [19580, 19777, 19974, 20170, 20365, 20560, 20754, 20947, 21140, 21332, 21523, 21714, 21904, 22092, 22281, 22468],
    [22654, 22839, 23023, 23207, 23389, 23570, 23750, 23929, 24107, 24284, 24460, 24634, 24807, 24979, 25149, 25319],
    [25486, 25653, 25818, 25982, 26144, 26305, 26464, 26622, 26778, 26933, 27086, 27237, 27387, 27535, 27681, 27826],
    [27969, 28111, 28250, 28388, 28524, 28658, 28790, 28921, 29049, 29176, 29300, 29423, 29544, 29663, 29779, 29894],
    [30007, 30117, 30226, 30333, 30437, 30539, 30640, 30738, 30833, 30927, 31019, 31108, 31195, 31280, 31362, 31443],
    [31521, 31597, 31670, 31741, 31810, 31877, 31941, 32003, 32063, 32120, 32175, 32227, 32277, 32325, 32370, 32413],
    [32453, 32491, 32527, 32560, 32591, 32619, 32645, 32668, 32689, 32708, 32724, 32737, 32748, 32757, 32763, 32767],
    [32768] ]

/-- `COSW[i]`, i = 0 .. 256 (R171). -/
def cosw (i : Nat) : Nat := (coswRows.getD (i / 16) []).getD (i % 16) 0

end Sys2Proof.Machine
end

