-- ==== Sys2Proof/Machine/Ops.lean ====
section
/-! DEFINITION. The named operations every command is built from: the cell memories (R11, R80 to R84), the registers
(R33 to R64), HIST_CLEAR (R66), RS_INIT (R157), the reset (R68, R134), and how a command ends (R112).

The block has no trap (R286): the operation that stands where another machine takes an exception is `State.raise`
(Flags.lean), and nothing returns from it (R287). -/

namespace Sys2Proof.Machine

/-- What a step or a command answers. -/
abbrev Result := Host.Outcome State Fault Refusal

/-! ## The end of a command (R112) -/

/-- The response goes to the host after the command's state changes (R112). -/
def State.respond (s : State) (v : Word) : State := { s with resps := s.resps ++ [v] }

/-- The command completes with response `v` (R112, R285). -/
def done (v : Word) (s : State) : Result := .next (s.respond v)

/-! ## Cell memories (R11, R80 to R84) -/

/-- The listed value of a cell. -/
def memLookup : Memory → Nat → Option Pixel
  | [], _ => none
  | (a, v) :: m, i => if a = i then some v else memLookup m i

/-- Lists a value for a cell, keeping the indexes rising. -/
def memInsert : Memory → Nat → Pixel → Memory
  | [], i, v => [(i, v)]
  | (a, w) :: m, i, v =>
    if i < a then (i, v) :: (a, w) :: m else if i = a then (i, v) :: m else (a, w) :: memInsert m i v

/-- Takes a cell off the list. -/
def memErase : Memory → Nat → Memory
  | [], _ => []
  | (a, w) :: m, i => if a = i then m else (a, w) :: memErase m i

/-- Writes a cell of a memory whose unlisted cells read as `d`, keeping the canonical form: the value an unlisted
cell reads as is not listed. -/
def memPut (d : Option Pixel) (m : Memory) (i : Nat) (v : Pixel) : Memory :=
  if some v = d then memErase m i else memInsert m i v

/-- The memory of a space (R80). -/
def State.memory (s : State) : Space → Memory
  | .fb => s.mem.fb
  | .h1 => s.mem.h1
  | .h2 => s.mem.h2
  | .h3 => s.mem.h3
  | .h4 => s.mem.h4

/-- The state with another memory in a space (R80). -/
def State.setMemory (s : State) (sp : Space) (m : Memory) : State :=
  match sp with
  | .fb => { s with mem := { s.mem with fb := m } }
  | .h1 => { s with mem := { s.mem with h1 := m } }
  | .h2 => { s with mem := { s.mem with h2 := m } }
  | .h3 => { s with mem := { s.mem with h3 := m } }
  | .h4 => { s with mem := { s.mem with h4 := m } }

/-- `MemRead((sp, i), 1)` (R11): the cell's value, or nothing for an FB cell not written since power-on (R302). -/
def memRead (sp : Space) (i : Nat) (s : State) : Option Pixel := (memLookup (s.memory sp) i).or sp.unlisted

/-- `MemWrite((sp, i), 1, p)` (R11): the cell stores the pixel as wide as the build's cells are (R82). -/
def memWrite (sp : Space) (i : Nat) (p : Word) (s : State) : State :=
  s.setMemory sp (memPut sp.unlisted (s.memory sp) i (storedPixel s.cfg.pPixFmt p))

/-- A history cell's value; every history cell has one (R302). -/
def histRead (sp : Space) (i : Nat) (s : State) : Pixel := (memRead sp i s).getD 0

/-- The history memory of number `j` (R83). -/
def histSpace : Nat → Space
  | 1 => .h1
  | 2 => .h2
  | 3 => .h3
  | _ => .h4

/-- `HIST_CLEAR()`: every cell of every present history memory H1 .. H_P becomes 0, that is, unlisted (R66). -/
def histClear (s : State) : State :=
  { s with
    mem :=
      { s.mem with
        h1 := if 1 ≤ s.cfg.pHistAvail then [] else s.mem.h1
        h2 := if 2 ≤ s.cfg.pHistAvail then [] else s.mem.h2
        h3 := if 3 ≤ s.cfg.pHistAvail then [] else s.mem.h3
        h4 := if 4 ≤ s.cfg.pHistAvail then [] else s.mem.h4 } }

/-! ## The resampler's shared operations -/

/-- `EffBackend()` (R41). -/
def effBackend (s : State) : Backend := if s.rs.sel = .sinc ∧ s.cfg.pSincOk = true then .sinc else .cosine

/-- `RS_INIT()`: both backends to their initial state (R157). -/
def rsInit (s : State) : State :=
  { s with
    rs :=
      { s.rs with
        saccL := List.replicate s.cfg.pT 0
        saccR := List.replicate s.cfg.pT 0
        ph := 0
        caL := 0
        caR := 0
        cr := BitVec.ofNat 32 s.cfg.pFo } }

/-! ## The blender's shared operations -/

/-- `Need(mode)`: how many history memories a blend kind uses (R58). -/
def need : BlendKind → Nat
  | .off => 0
  | .mix => 1
  | .ghostAccurate => 4
  | .ghostFast => 1

/-- EFF_MODE: the mode, or none where its history memories are missing (R59). -/
def effMode (s : State) : BlendKind := if need s.bl.mode ≤ s.cfg.pHistAvail then s.bl.mode else .off

/-- `GeomValid()` (R65). -/
def geomValid (s : State) : Bool :=
  let w := s.bl.width.toNat
  let h := s.bl.height.toNat
  let pitch := s.bl.pitch.toNat
  1 ≤ w && 1 ≤ h && w ≤ pitch && (h - 1) * pitch + w ≤ s.cfg.pFbPixels

/-! ## Reading a register (R131) -/

/-- The value a register reads as, 32 bits, reserved bits 0 (R32). -/
def readReg (r : Reg) (s : State) : Word :=
  match r with
  -- R34: SINC_OK bit 0, HIST_AVAIL bits 3:1, PIXFMT bit 4
  | .caps =>
    bit0 s.cfg.pSincOk ||| BitVec.ofNat 32 (s.cfg.pHistAvail % 8) <<< 1 ||| bit0 (s.cfg.pPixFmt == .xrgb8888) <<< 4
  | .status => s.status.zeroExtend 32
  | .rsCtrl => backendBit s.rs.sel
  | .rsStat => backendBit (effBackend s)
  -- R42
  | .rsRate =>
    match effBackend s with
    | .sinc => BitVec.ofNat 32 (s.cfg.pFi / s.cfg.pD)
    | .cosine => BitVec.ofNat 32 s.cfg.pFo
  | .rsAvail => BitVec.ofNat 32 s.rs.outq.length
  | .rsCap => s.rs.cap
  | .rsBlkcnt => s.rs.blkcnt
  | .rsDropcnt => s.rs.dropcnt
  -- R47
  | .rsPhase =>
    match effBackend s with
    | .sinc => BitVec.ofNat 32 s.rs.ph
    | .cosine => s.rs.cr
  | .pcSamplesLo => s.pc.samples.extractLsb' 0 32
  | .pcSamplesHi => s.pc.samples.extractLsb' 32 32
  | .pcFramesLo => s.pc.frames.extractLsb' 0 32
  | .pcFramesHi => s.pc.frames.extractLsb' 32 32
  | .pcSpf => s.pc.spf
  | .pcMult => s.pc.mult.zeroExtend 32
  -- R53: LAST_DUPE bit 0, RUN bit 1
  | .pcStat => bit0 s.pc.lastDupe ||| bit0 s.pc.run <<< 1
  | .blCtrl => kindBits s.bl.mode
  | .blStat => kindBits (effMode s)
  | .blW1 => s.bl.w1.zeroExtend 32
  | .blW2 => s.bl.w2.zeroExtend 32
  | .blW3 => s.bl.w3.zeroExtend 32
  | .blW4 => s.bl.w4.zeroExtend 32
  | .blWf => s.cfg.pWf.zeroExtend 32
  | .blWidth => s.bl.width.zeroExtend 32
  | .blHeight => s.bl.height.zeroExtend 32
  | .blPitch => s.bl.pitch.zeroExtend 32

/-! ## Writing a register (R132) -/

/-- Bits 15:0 of a written value. -/
def low16 (v : Word) : BitVec 16 := v.extractLsb' 0 16

/-- WRREG RS_CTRL (R39): SEL; the FALLBACK notice, once per selection of sinc; RS_INIT when the effective backend
changes. -/
def writeRsCtrl (v : Word) (s : State) : State :=
  let s1 := { s with rs := { s.rs with sel := backendOf v } }
  let s2 :=
    if backendOf v = .sinc ∧ s.cfg.pSincOk = false ∧ s.rs.sel = .cosine then s1.raise .fallback else s1
  if effBackend s2 = effBackend s then s2 else rsInit s2

/-- WRREG PC_SPF (R56). -/
def writePcSpf (v : Word) (s : State) : State :=
  if v = 0 then s.raise .badval else { s with pc := { s.pc with spf := v } }

/-- WRREG PC_MULT (R57): bits 2:0, legal values 1 .. 5. -/
def writePcMult (v : Word) (s : State) : State :=
  let m := v.extractLsb' 0 3
  if 1 ≤ m.toNat ∧ m.toNat ≤ 5 then { s with pc := { s.pc with mult := m } } else s.raise .badval

/-- WRREG BL_CTRL (R58): a changed mode clears history, and raises ALLOC when its memories are missing. -/
def writeBlCtrl (v : Word) (s : State) : State :=
  let s1 := { s with bl := { s.bl with mode := kindOf v } }
  if kindOf v = s.bl.mode then s1
  else
    let s2 := histClear s1
    if need (kindOf v) > s.cfg.pHistAvail then s2.raise .alloc else s2

/-- WRREG BL_W1 .. BL_W4 (R60): a weight above 0x0100 is refused with BADVAL. -/
def writeWeight (v : Word) (set : BitVec 16 → Blender → Blender) (s : State) : State :=
  if (low16 v).toNat > 0x0100 then s.raise .badval else { s with bl := set (low16 v) s.bl }

/-- WRREG BL_WIDTH, BL_HEIGHT, BL_PITCH (R133): a changed value clears history. -/
def writeGeometry (v : Word) (old : BitVec 16) (set : BitVec 16 → Blender → Blender) (s : State) : State :=
  let s1 := { s with bl := set (low16 v) s.bl }
  if low16 v = old then s1 else histClear s1

/-- WRREG to an assigned register (R132). -/
def writeReg (r : Reg) (v : Word) (s : State) : State :=
  match r with
  -- read-only registers (R35)
  | .caps | .rsStat | .rsRate | .rsAvail | .rsBlkcnt | .rsPhase | .pcSamplesLo | .pcSamplesHi | .pcFramesLo
  | .pcFramesHi | .pcStat | .blStat | .blWf => s.raise .badval
  | .status => s.clearStatus v
  | .rsCtrl => writeRsCtrl v s
  | .rsCap => { s with rs := { s.rs with cap := v } }
  | .rsDropcnt => { s with rs := { s.rs with dropcnt := 0 } }
  | .pcSpf => writePcSpf v s
  | .pcMult => writePcMult v s
  | .blCtrl => writeBlCtrl v s
  | .blW1 => writeWeight v (fun w b => { b with w1 := w }) s
  | .blW2 => writeWeight v (fun w b => { b with w2 := w }) s
  | .blW3 => writeWeight v (fun w b => { b with w3 := w }) s
  | .blW4 => writeWeight v (fun w b => { b with w4 := w }) s
  | .blWidth => writeGeometry v s.bl.width (fun w b => { b with width := w }) s
  | .blHeight => writeGeometry v s.bl.height (fun h b => { b with height := h }) s
  | .blPitch => writeGeometry v s.bl.pitch (fun p b => { b with pitch := p }) s

/-! ## Reset and illegal words -/

/-- What RESET does to the block: every piece of state of R68 except FB takes its reset value; the command port is no
part of the block's state (R134, R300). -/
def resetBlock (s : State) : State :=
  let c := State.powerOn s.cfg
  { c with mem := { c.mem with fb := s.mem.fb }, cmds := s.cmds, resps := s.resps }

/-- An illegal word: raises ILLEGAL, returns response 0 and changes nothing else (R109). -/
def illegalWord (s : State) : Result := done 0 (s.raise .illegal)

/-- The next command word the host delivers, and the state with it taken from the port (R31, R100). -/
def fetch (s : State) : Option (Command × State) :=
  match s.cmds with
  | [] => none
  | c :: rest => some (c, { s with cmds := rest })

end Sys2Proof.Machine
end

