-- ==== Sys2Proof/Machine/Blender.lean ====
section
/-! DEFINITION. The temporal blender: BL_FRAME with its three filters, FB_WR, FB_RD, HIST_RD (43_blender.md). -/

namespace Sys2Proof.Machine

/-! ## Per-pixel filters -/

/-- `MIX(a, b)`: per channel the round-to-nearest average, halves up (R235). -/
def mixPixel (f : PixFmt) (a b : Pixel) : Pixel := perChannel f fun ch => (unpack f a ch + unpack f b ch + 1) / 2

/-- `LERP(v, h, w) = v + asr((h - v) * w + 128, 8)` (R238). -/
def lerp (v h w : Int) : Int := v + asr ((h - v) * w + 128) 8

/-- A filtered channel value as the pixel keeps it: `clamp(v, 0, MAXC(ch))` (R237, R239). -/
def clampChannel (f : PixFmt) (ch : Chan) (v : Int) : Nat := (clamp v 0 (maxC f ch)).toNat

/-- `GHOST_ACC(cur, h1, h2, h3, h4)` with the weights BL_W1 .. BL_W4: four chained interpolations per channel
(R237). -/
def ghostAcc (f : PixFmt) (b : Blender) (cur h1 h2 h3 h4 : Pixel) : Pixel :=
  perChannel f fun ch =>
    let v1 := lerp (unpack f cur ch) (unpack f h1 ch) b.w1.toNat
    let v2 := lerp v1 (unpack f h2 ch) b.w2.toNat
    let v3 := lerp v2 (unpack f h3 ch) b.w3.toNat
    let v4 := lerp v3 (unpack f h4 ch) b.w4.toNat
    clampChannel f ch v4

/-- `GHOST_FAST(cur, h1)` with the weight P_WF (R239). -/
def ghostFast (c : Config) (cur h1 : Pixel) : Pixel :=
  perChannel c.pPixFmt fun ch =>
    clampChannel c.pPixFmt ch (lerp (unpack c.pPixFmt cur ch) (unpack c.pPixFmt h1 ch) c.pWf.toNat)

/-! ## BL_FRAME -/

/-- The cell of pixel (x, y) (R84). -/
def cellIndex (b : Blender) (x y : Nat) : Nat := y * b.pitch.toNat + x

/-- The active cells, row by row (R84, R233). -/
def activeCells (b : Blender) : List Nat :=
  (List.range b.height.toNat).flatMap fun y => (List.range b.width.toNat).map fun x => cellIndex b x y

/-- The filtered pixel of one cell, and the state with the history cells written, for a current pixel `cur`
(R233). -/
def filterCell (m : BlendKind) (i : Nat) (cur : Pixel) (s : State) : Pixel × State :=
  match m with
  | .off => (cur, s)
  | .mix => (mixPixel s.cfg.pPixFmt cur (histRead .h1 i s), memWrite .h1 i cur s)
  | .ghostAccurate =>
    let h1 := histRead .h1 i s
    let h2 := histRead .h2 i s
    let h3 := histRead .h3 i s
    let h4 := histRead .h4 i s
    (ghostAcc s.cfg.pPixFmt s.bl cur h1 h2 h3 h4,
      memWrite .h1 i cur (memWrite .h2 i h1 (memWrite .h3 i h2 (memWrite .h4 i h3 s))))
  | .ghostFast =>
    let out := ghostFast s.cfg cur (histRead .h1 i s)
    (out, memWrite .h1 i out s)

/-- One active cell of BL_FRAME (R233); an FB cell never written since power-on is a fault (R302, log entry 1). -/
def blendCell (m : BlendKind) (i : Nat) (s : State) : Except Fault State :=
  match memRead .fb i s with
  | none => .error (.fbCellUnwritten i)
  | some cur =>
    let out := filterCell m i cur s
    .ok (memWrite .fb i out.1 out.2)

/-- The loop of BL_FRAME over a list of cells (R233). -/
def blendCells (m : BlendKind) : List Nat → State → Except Fault State
  | [], s => .ok s
  | i :: is, s =>
    match blendCell m i s with
    | .error f => .error f
    | .ok t => blendCells m is t

/-- BL_FRAME: passthrough in mode none; GEOM and nothing else on an invalid geometry; else every active cell is
filtered (R233, R234). -/
def execBlFrame (s : State) : Result :=
  if effMode s = .off then done 0 s
  else if geomValid s then
    match blendCells (effMode s) (activeCells s.bl) s with
    | .error f => .fault f
    | .ok t => done 0 t
  else done 0 (s.raise .geom)

/-! ## Access to the cells -/

/-- FB_WR i, p: writes one FB cell; RANGE and no write outside FB (R241). -/
def execFbWr (i : BitVec 16) (p : Word) (s : State) : Result :=
  if s.cfg.pFbPixels ≤ i.toNat then done 0 (s.raise .range) else done 0 (memWrite .fb i.toNat p s)

/-- FB_RD i: reads one FB cell; RANGE and response 0 outside FB; a cell never written since power-on is a fault
(R242, R302, log entry 1). -/
def execFbRd (i : BitVec 16) (s : State) : Result :=
  if s.cfg.pFbPixels ≤ i.toNat then done 0 (s.raise .range)
  else
    match memRead .fb i.toNat s with
    | none => .fault (.fbCellUnwritten i.toNat)
    | some p => done p s

/-- HIST_RD j, i: reads one history cell; RANGE and response 0 for a memory or a cell that does not exist (R243). -/
def execHistRd (j : BitVec 8) (i : BitVec 16) (s : State) : Result :=
  if j.toNat < 1 ∨ s.cfg.pHistAvail < j.toNat ∨ s.cfg.pFbPixels ≤ i.toNat then done 0 (s.raise .range)
  else done (histRead (histSpace j.toNat) i.toNat s) s

end Sys2Proof.Machine
end

