-- ==== Sys2Proof/Machine/Control.lean ====
section
/-! DEFINITION. The control commands NOP, RDREG, WRREG and RESET (40_control.md). -/

namespace Sys2Proof.Machine

/-- NOP: changes nothing, returns 0 (R130). -/
def execNop (s : State) : Result := done 0 s

/-- RDREG n: the register's value; an unassigned number raises ILLEGAL and returns 0 (R131, R69). -/
def execRdreg (n : BitVec 8) (s : State) : Result :=
  match regOf n with
  | none => done 0 (s.raise .illegal)
  | some r => done (readReg r s) s

/-- WRREG n, v: what a write to the register does; an unassigned number raises ILLEGAL (R132, R69). -/
def execWrreg (n : BitVec 8) (v : Word) (s : State) : Result :=
  match regOf n with
  | none => done 0 (s.raise .illegal)
  | some r => done 0 (writeReg r v s)

/-- RESET: the whole block but FB (R134). -/
def execReset (s : State) : Result := done 0 (resetBlock s)

end Sys2Proof.Machine
end

