-- ==== Sys2Proof/Machine/Pacer.lean ====
section
/-! DEFINITION. The frame pacer: PC_CHECK, PC_ADD, PC_COMMIT, PC_CLEAR (42_pacer.md). The dupe test is §4.3's, as
90_conflicts.md C1 settles. -/

namespace Sys2Proof.Machine

/-- `DUPE_DUE() = (FRAMES < (SAMPLES div SPF))` (R200). -/
def dupeDue (s : State) : Bool := s.pc.frames.toNat < s.pc.samples.toNat / s.pc.spf.toNat

/-- `FRAMES + PC_MULT` modulo 2^64 (R201, R203). -/
def framesPlusMult (p : Pacer) : BitVec 64 := p.frames + p.mult.zeroExtend 64

/-- PC_CHECK: the start-of-tick verdict, 1 dupe or 0 run (R201). -/
def execPcCheck (s : State) : Result :=
  if dupeDue s then
    done 1 { s with pc := { s.pc with frames := framesPlusMult s.pc, lastDupe := true, run := false } }
  else done 0 { s with pc := { s.pc with lastDupe := false, run := true } }

/-- PC_ADD n: counts produced samples, modulo 2^64 (R202). -/
def execPcAdd (n : Word) (s : State) : Result :=
  done 0 { s with pc := { s.pc with samples := s.pc.samples + n.zeroExtend 64 } }

/-- PC_COMMIT: a fresh frame was delivered; PROTO when no run verdict is outstanding (R203). -/
def execPcCommit (s : State) : Result :=
  if s.pc.run then done 0 { s with pc := { s.pc with frames := framesPlusMult s.pc, run := false } }
  else done 0 (s.raise .proto)

/-- PC_CLEAR: a new session (R204). -/
def execPcClear (s : State) : Result :=
  done 0 { s with pc := { s.pc with samples := 0, frames := 0, lastDupe := false, run := false } }

end Sys2Proof.Machine
end

