-- ==== Sys2Proof/Machine/Resampler.lean ====
section
/-! DEFINITION. The resampler unit: RS_PUSH, RS_POP, RS_MARK and the two backends (41_resampler.md). -/

namespace Sys2Proof.Machine

/-! ## The output FIFO (R156) -/

/-- `EMIT(yl, yr)`: appends one output pair, or loses it with OVF when OUTQ holds P_Q pairs (R156). -/
def emit (yl yr : Int) (s : State) : State :=
  if s.rs.outq.length = s.cfg.pQ then s.raise .ovf
  else { s with rs := { s.rs with outq := s.rs.outq ++ [packPair yl yr] } }

/-! ## The sinc backend (R160 to R162) -/

/-- `H[p][k]`: the coefficient that input phase `p` adds into the output `k` places ahead (R160). -/
def sincCoef (c : Config) (p k : Nat) : Int := (c.pHp.getD (k * c.pD + (c.pD - 1 - p)) 0).toInt

/-- One input sample `x` scattered into the accumulators of one channel, the first of them number `k` (R161); each is
written modulo 2^64 (R10), which loses nothing (R163). -/
def sincScatter (c : Config) (p : Nat) (x : Int) : Nat → List Acc → List Acc
  | _, [] => []
  | k, a :: as => BitVec.ofInt 64 (a.toInt + x * sincCoef c p k) :: sincScatter c p x (k + 1) as

/-- `SINC_OUT(acc)`: round to nearest, halves up, then saturate (R162). -/
def sincOut (acc : Int) : Int := sat16 (asr (acc + 16384) 15)

/-- The accumulators of one channel after an output: each moves one place nearer, and the last is 0 (R161). -/
def sincShift (accs : List Acc) : List Acc := accs.tail ++ [0]

/-- `SINC_STEP(l, r)`: one accepted input pair (R161). -/
def sincStep (l r : Sample) (s : State) : State :=
  let p := s.rs.ph
  let accL := sincScatter s.cfg p l.toInt 0 s.rs.saccL
  let accR := sincScatter s.cfg p r.toInt 0 s.rs.saccR
  if p = s.cfg.pD - 1 then
    let yl := sincOut (accL.headD 0).toInt
    let yr := sincOut (accR.headD 0).toInt
    emit yl yr { s with rs := { s.rs with saccL := sincShift accL, saccR := sincShift accR, ph := 0 } }
  else { s with rs := { s.rs with saccL := accL, saccR := accR, ph := p + 1 } }

/-! ## The cosine backend (R170 to R172) -/

/-- `COS_INTERP(a, b, i)` (R172). -/
def cosInterp (a b : Int) (i : Nat) : Int := a + asr ((b - a) * cosw i + 16384) 15

/-- The loop of COS_STEP: while CR <= P_FO, one output pair and CR + P_FI (R170). The first argument bounds the number
of turns; `cosTurns` is never too few (P_FI >= 1: `Laws/Resampler.lean`, `cosLoop_cr`). -/
def cosLoop (l r : Sample) : Nat → State → State
  | 0, s => s
  | turns + 1, s =>
    if s.rs.cr.toNat ≤ s.cfg.pFo then
      let i := s.rs.cr.toNat * 256 / s.cfg.pFo
      let s1 := emit (cosInterp s.rs.caL.toInt l.toInt i) (cosInterp s.rs.caR.toInt r.toInt i) s
      cosLoop l r turns { s1 with rs := { s1.rs with cr := BitVec.ofNat 32 (s1.rs.cr.toNat + s.cfg.pFi) } }
    else s

/-- The most outputs one push can make: CR rises by P_FI from 0 or above, while it is at most P_FO (R170, R317). -/
def cosTurns (c : Config) : Nat := c.pFo / c.pFi + 1

/-- `COS_STEP(l, r)`: one accepted input pair (R170). -/
def cosStep (l r : Sample) (s : State) : State :=
  let s1 := cosLoop l r (cosTurns s.cfg) s
  { s1 with rs := { s1.rs with cr := s1.rs.cr - BitVec.ofNat 32 s.cfg.pFo, caL := l, caR := r } }

/-! ## The commands -/

/-- CAP_ACCEPT() answers true: RS_BLKCNT is below RS_CAP, unsigned (R152). -/
def capAccepts (s : State) : Bool := s.rs.blkcnt.toNat < s.rs.cap.toNat

/-- A pair dropped by the cap: RS_DROPCNT + 1, saturating, and DROP (R152). -/
def dropPair (s : State) : State :=
  State.raise
    { s with rs := { s.rs with dropcnt := BitVec.ofNat 32 (min (s.rs.dropcnt.toNat + 1) 0xFFFFFFFF) } } .drop

/-- The step of the backend in effect (R150, R151). -/
def backendStep (l r : Sample) (s : State) : State :=
  match effBackend s with
  | .sinc => sincStep l r s
  | .cosine => cosStep l r s

/-- RS_PUSH l, r: the cap gate, then one step of the backend in effect (R151). -/
def execRsPush (l r : Sample) (s : State) : Result :=
  if capAccepts s then done 0 (backendStep l r { s with rs := { s.rs with blkcnt := s.rs.blkcnt + 1 } })
  else done 0 (dropPair s)

/-- RS_POP: takes the oldest pair; on an empty OUTQ raises UNDER and returns 0 (R154). -/
def execRsPop (s : State) : Result :=
  match s.rs.outq with
  | [] => done 0 (s.raise .under)
  | y :: ys => done y { s with rs := { s.rs with outq := ys } }

/-- RS_MARK: starts a new input block (R155). -/
def execRsMark (s : State) : Result := done 0 { s with rs := { s.rs with blkcnt := 0 } }

end Sys2Proof.Machine
end

