-- ==== Sys2Proof/Machine/Dispatch.lean ====
section
/-! DEFINITION. One arm per command (30_encoding.md R106). -/

namespace Sys2Proof.Machine

def exec (i : Instr) (s : State) : Host.Outcome State Fault Refusal :=
  match i with
  | .nop => Sys2Proof.Machine.execNop s
  | .rdreg n => Sys2Proof.Machine.execRdreg n s
  | .wrreg n v => Sys2Proof.Machine.execWrreg n v s
  | .reset => Sys2Proof.Machine.execReset s
  | .rsPush l r => Sys2Proof.Machine.execRsPush l r s
  | .rsPop => Sys2Proof.Machine.execRsPop s
  | .rsMark => Sys2Proof.Machine.execRsMark s
  | .pcCheck => Sys2Proof.Machine.execPcCheck s
  | .pcAdd n => Sys2Proof.Machine.execPcAdd n s
  | .pcCommit => Sys2Proof.Machine.execPcCommit s
  | .pcClear => Sys2Proof.Machine.execPcClear s
  | .blFrame => Sys2Proof.Machine.execBlFrame s
  | .fbWr x p => Sys2Proof.Machine.execFbWr x p s
  | .fbRd x => Sys2Proof.Machine.execFbRd x s
  | .histRd j x => Sys2Proof.Machine.execHistRd j x s

end Sys2Proof.Machine
end

