-- ==== Sys2Proof/WellFormed.lean ====
section
/-! DEFINITION. Which builds and which commands are well-formed. A build is well-formed when every parameter has a
legal value (00_scope.md R6); a model refuses any other (93_implementation_defined.md section 2). A command's
operands fit their fields by their types, so the one check left on a command is what its assembler syntax can spell
(30_encoding.md R113). -/

namespace Sys2Proof

/-- P_FI is in 1 .. 2^31 - 1 (R6). -/
def Config.legalFi (c : Config) : Bool := 1 ≤ c.pFi && c.pFi ≤ 2 ^ 31 - 1

/-- P_D is in 1 .. 2^16 (R6). -/
def Config.legalD (c : Config) : Bool := 1 ≤ c.pD && c.pD ≤ 2 ^ 16

/-- P_T is in 1 .. 2^16 (R6). -/
def Config.legalT (c : Config) : Bool := 1 ≤ c.pT && c.pT ≤ 2 ^ 16

/-- P_D * P_T <= 2^32 (R6). -/
def Config.legalTaps (c : Config) : Bool := c.pD * c.pT ≤ 2 ^ 32

/-- P_HP has exactly P_D * P_T entries (R6). -/
def Config.legalHp (c : Config) : Bool := c.pHp.length == c.pD * c.pT

/-- P_FO is in 1 .. 2^31 - 1 (R6). -/
def Config.legalFo (c : Config) : Bool := 1 ≤ c.pFo && c.pFo ≤ 2 ^ 31 - 1

/-- P_FI + P_FO <= 2^32 - 1 (R6). -/
def Config.legalRates (c : Config) : Bool := c.pFi + c.pFo ≤ 2 ^ 32 - 1

/-- P_Q is in 1 .. 2^24 (R6). -/
def Config.legalQ (c : Config) : Bool := 1 ≤ c.pQ && c.pQ ≤ 2 ^ 24

/-- P_HIST_AVAIL is in 0 .. 4 (R6). -/
def Config.legalHist (c : Config) : Bool := c.pHistAvail ≤ 4

/-- P_FB_PIXELS is in 1 .. 65536 (R6). -/
def Config.legalCells (c : Config) : Bool := 1 ≤ c.pFbPixels && c.pFbPixels ≤ 65536

/-- P_WF is in 0 .. 0x0100 (R6). -/
def Config.legalWf (c : Config) : Bool := c.pWf.toNat ≤ 0x0100

/-- Every parameter has a legal value (R6). The parameters not checked here are legal by their types. -/
def Config.legal (c : Config) : Bool :=
  c.legalFi && c.legalD && c.legalT && c.legalTaps && c.legalHp && c.legalFo && c.legalRates && c.legalQ &&
    c.legalHist && c.legalCells && c.legalWf

/-- The command can be written in the assembler syntax of R113: `HIST_RD Hj, index` takes j in 1 .. 4; every other
command takes every value of its fields. (A word with another j still decodes, and its command raises RANGE: R243.) -/
def Instr.wellFormed : Instr → Bool
  | .histRd j _ => 1 ≤ j.toNat && j.toNat ≤ 4
  | .nop | .rdreg _ | .wrreg _ _ | .reset | .rsPush _ _ | .rsPop | .rsMark | .pcCheck | .pcAdd _ | .pcCommit
  | .pcClear | .blFrame | .fbWr _ _ | .fbRd _ => true

end Sys2Proof
end

