-- ==== Sys2Proof/Machine/Step.lean ====
section
/-! DEFINITION. One step of the block: it takes the next command word from its port and executes it completely
(10_state.md R31, 30_encoding.md R100, R107). With no word on the port it waits, holding all its state (R295, R301). -/

namespace Sys2Proof.Machine

/-- One step. An illegal word is a defined outcome, not a trap (R109); an illegal build is refused (log entry 6). -/
def step (s : State) : Host.Outcome State Fault Refusal :=
  if s.cfg.legal then
    match fetch s with
    | none => .next s
    | some (c, s1) =>
      match decode c with
      | .error _ => illegalWord s1
      | .ok i => exec i s1
  else .refused .illegalBuild

/-- The state in which the host delivers, as its very next command word, the word numbered as the opcode table numbers
it (bits above `nbits` are 0). Nothing else changes: the block fetches nothing, so a program is what the host
delivers (R31, R94, log entry 4). -/
def State.withFetchWord (s : State) (nbits w : Nat) : State :=
  { s with cmds := BitVec.ofNat 64 (w % 2 ^ nbits) :: s.cmds }

end Sys2Proof.Machine
end

