-- ==== Sys2Proof/Machine/Asm.lean ====
section
/-! DEFINITION. The assembler of 30_encoding.md: one line of text to the commands it stands for (R113), with the
pseudo-instructions (R114). It refuses (answers nothing for) a line that is not of the syntax, and a value that does
not fit its field. No command's meaning uses it. -/

namespace Sys2Proof.Machine

/-- The register's name (R33). -/
def Reg.name : Reg → String
  | .caps => "CAPS"
  | .status => "STATUS"
  | .rsCtrl => "RS_CTRL"
  | .rsStat => "RS_STAT"
  | .rsRate => "RS_RATE"
  | .rsAvail => "RS_AVAIL"
  | .rsCap => "RS_CAP"
  | .rsBlkcnt => "RS_BLKCNT"
  | .rsDropcnt => "RS_DROPCNT"
  | .rsPhase => "RS_PHASE"
  | .pcSamplesLo => "PC_SAMPLES_LO"
  | .pcSamplesHi => "PC_SAMPLES_HI"
  | .pcFramesLo => "PC_FRAMES_LO"
  | .pcFramesHi => "PC_FRAMES_HI"
  | .pcSpf => "PC_SPF"
  | .pcMult => "PC_MULT"
  | .pcStat => "PC_STAT"
  | .blCtrl => "BL_CTRL"
  | .blStat => "BL_STAT"
  | .blW1 => "BL_W1"
  | .blW2 => "BL_W2"
  | .blW3 => "BL_W3"
  | .blW4 => "BL_W4"
  | .blWf => "BL_WF"
  | .blWidth => "BL_WIDTH"
  | .blHeight => "BL_HEIGHT"
  | .blPitch => "BL_PITCH"

/-- The registers in the order of their numbers (R33). -/
def allRegs : List Reg :=
  [.caps, .status, .rsCtrl, .rsStat, .rsRate, .rsAvail, .rsCap, .rsBlkcnt, .rsDropcnt, .rsPhase] ++
    [.pcSamplesLo, .pcSamplesHi, .pcFramesLo, .pcFramesHi, .pcSpf, .pcMult, .pcStat] ++
    [.blCtrl, .blStat, .blW1, .blW2, .blW3, .blW4, .blWf, .blWidth, .blHeight, .blPitch]

/-! ## Text -/

/-- A space or a tab. -/
def isBlank (c : Char) : Bool := c == ' ' || c == '\t'

/-- The text without blanks at its ends. -/
def trimBlanks (cs : List Char) : List Char := ((cs.dropWhile isBlank).reverse.dropWhile isBlank).reverse

/-- The parts of a text between commas. -/
def splitCommas : List Char → List (List Char)
  | [] => [[]]
  | c :: cs =>
    match splitCommas cs with
    | [] => [[c]]
    | p :: ps => if c = ',' then [] :: p :: ps else (c :: p) :: ps

/-- The value of a digit in a base up to 16. -/
def digitOf (base : Nat) (c : Char) : Option Nat :=
  let v :=
    if '0'.toNat ≤ c.toNat ∧ c.toNat ≤ '9'.toNat then c.toNat - '0'.toNat
    else if 'A'.toNat ≤ c.toNat ∧ c.toNat ≤ 'F'.toNat then c.toNat - 'A'.toNat + 10
    else if 'a'.toNat ≤ c.toNat ∧ c.toNat ≤ 'f'.toNat then c.toNat - 'a'.toNat + 10
    else 16
  if v < base then some v else none

/-- Digits read from the left onto a value already read. -/
def readDigits (base : Nat) : Nat → List Char → Option Nat
  | acc, [] => some acc
  | acc, c :: cs =>
    match digitOf base c with
    | none => none
    | some v => readDigits base (acc * base + v) cs

/-- A number: decimal, or hexadecimal with `0x` (R113). -/
def readNumber : List Char → Option Nat
  | [] => none
  | '0' :: 'x' :: c :: cs => readDigits 16 0 (c :: cs)
  | c :: cs => readDigits 10 0 (c :: cs)

/-- A number that fits a field of `w` bits (R113). -/
def readField (w : Nat) (cs : List Char) : Option (BitVec w) :=
  match readNumber cs with
  | none => none
  | some v => if v < 2 ^ w then some (BitVec.ofNat w v) else none

/-- A sample: a number, or a negative decimal, in -32768 .. 32767 (R113). -/
def readSample : List Char → Option Sample
  | '-' :: c :: cs =>
    match readDigits 10 0 (c :: cs) with
    | none => none
    | some v => if v ≤ 32768 then some (BitVec.ofInt 16 (-(v : Int))) else none
  | cs =>
    match readNumber cs with
    | none => none
    | some v => if v ≤ 32767 then some (BitVec.ofNat 16 v) else none

/-- A register: its name, or a number (R113). -/
def readRegName (cs : List Char) : Option (BitVec 8) :=
  match allRegs.find? (fun r => r.name.toList == cs) with
  | some r => some r.number
  | none => readField 8 cs

/-- A history memory `Hj`, j = 1 .. 4 (R113). -/
def readHist (cs : List Char) : Option (BitVec 8) :=
  match cs with
  | ['H', '1'] => some 1
  | ['H', '2'] => some 2
  | ['H', '3'] => some 3
  | ['H', '4'] => some 4
  | _ => none

/-- A number of a listed range, as a 32-bit value (R114's `b`, `m` and `j`; log entry 7). -/
def readRange (lo hi : Nat) (cs : List Char) : Option Word :=
  match readNumber cs with
  | none => none
  | some v => if lo ≤ v ∧ v ≤ hi then some (BitVec.ofNat 32 v) else none

/-! ## Lines -/

/-- WRREG of a register and a value that may have been refused. -/
def setReg (r : Reg) (v : Option Word) : Option (List Instr) := v.map fun v => [.wrreg r.number v]

/-- The commands of a mnemonic and its operands (R113, R114). DESIGN CHOICE (log entry 7): `.WORD w`, which a program of
95_test_vectors.md uses for a raw word, has no row in R113 or R114; the spec leaves its syntax open, and this assembler
refuses such a line. -/
def assembleOp (mnemonic : List Char) (ops : List (List Char)) : Option (List Instr) :=
  let is (n : String) : Bool := mnemonic == n.toList
  match ops with
  | [] =>
    if is "NOP" then some [.nop]
    else if is "RESET" then some [.reset]
    else if is "RS_POP" then some [.rsPop]
    else if is "RS_MARK" then some [.rsMark]
    else if is "PC_CHECK" then some [.pcCheck]
    else if is "PC_COMMIT" then some [.pcCommit]
    else if is "PC_CLEAR" then some [.pcClear]
    else if is "BL_FRAME" then some [.blFrame]
    else if is "CLRSTAT" then some [.wrreg Reg.status.number 0x3FF]
    else if is "RDSAMPLES" then some [.rdreg Reg.pcSamplesLo.number, .rdreg Reg.pcSamplesHi.number]
    else if is "RDFRAMES" then some [.rdreg Reg.pcFramesLo.number, .rdreg Reg.pcFramesHi.number]
    else none
  | [a] =>
    if is "RDREG" then (readRegName a).map fun n => [.rdreg n]
    else if is "PC_ADD" then (readField 32 a).map fun n => [.pcAdd n]
    else if is "FB_RD" then (readField 16 a).map fun x => [.fbRd x]
    else if is "SELBE" then setReg .rsCtrl (readRange 0 1 a)
    else if is "SETCAP" then setReg .rsCap (readField 32 a)
    else if is "SETMODE" then setReg .blCtrl (readRange 0 3 a)
    else if is "SETSPF" then setReg .pcSpf (readField 32 a)
    else if is "SETMULT" then setReg .pcMult (readField 32 a)
    else none
  | [a, b] =>
    if is "WRREG" then (readRegName a).bind fun n => (readField 32 b).map fun v => [.wrreg n v]
    else if is "RS_PUSH" then (readSample a).bind fun l => (readSample b).map fun r => [.rsPush l r]
    else if is "FB_WR" then (readField 16 a).bind fun x => (readField 32 b).map fun p => [.fbWr x p]
    else if is "HIST_RD" then (readHist a).bind fun j => (readField 16 b).map fun x => [.histRd j x]
    else if is "SETW" then
      (readRange 1 4 a).bind fun j => (readField 32 b).map fun w => [.wrreg (0x21 + j.truncate 8) w]
    else none
  | [a, b, c] =>
    if is "SETGEOM" then
      (readField 32 a).bind fun w => (readField 32 b).bind fun h => (readField 32 c).map fun p =>
        [.wrreg Reg.blWidth.number w, .wrreg Reg.blHeight.number h, .wrreg Reg.blPitch.number p]
    else none
  | _ => none

/-- The commands of one line: a mnemonic, then operands separated by commas; `;` starts a comment (R113). A line with
nothing before its comment stands for no command. -/
def assembleLine (line : String) : Option (List Instr) :=
  let body := trimBlanks (line.toList.takeWhile (· ≠ ';'))
  if body = [] then some []
  else
    let mnemonic := body.takeWhile (fun c => !isBlank c)
    let rest := trimBlanks (body.drop mnemonic.length)
    assembleOp mnemonic (if rest = [] then [] else (splitCommas rest).map trimBlanks)

/-- The command words of a line (R113, R102). -/
def assembleWords (line : String) : Option (List Command) := (assembleLine line).map fun is => is.map encode

end Sys2Proof.Machine
end

