-- ==== Sys2Proof/Safety.lean ====
section
/-! DEFINITION. The terms that claims about the block use: runs of commands, the invariant of every state a legal build
can reach, which errors a command can raise (60_exceptions.md R280), the closed forms of the two backends
(41_resampler.md R164, R173, R174), and the host's duties (70_reset_and_hazards.md R305 to R309), which the block does
not enforce and a claim takes as premises (93_implementation_defined.md section 2). -/

namespace Sys2Proof.Machine

/-! ## Runs -/

/-- The commands executed one after another, stopping at the first that is not a next state (R31). -/
def execAll : List Instr → State → Result
  | [], s => .next s
  | i :: is, s =>
    match exec i s with
    | .next t => execAll is t
    | .fault f => .fault f
    | .refused r => .refused r

/-! ## Errors -/

/-- The errors a command can raise: the column "commands that raise it" of R280. -/
def mayRaise : Instr → List Err
  | .nop | .rsMark | .pcCheck | .pcAdd _ | .pcClear => []
  | .rdreg _ => [.illegal]
  | .wrreg _ _ => [.illegal, .fallback, .alloc, .badval]
  | .reset => [.fallback]
  | .rsPush _ _ => [.drop, .ovf]
  | .rsPop => [.under]
  | .pcCommit => [.proto]
  | .blFrame => [.geom]
  | .fbWr _ _ | .fbRd _ | .histRd _ _ => [.range]

/-- The commands whose response can be other than 0 (R90, R112). -/
def respondsValue : Instr → Bool
  | .rdreg _ | .rsPop | .pcCheck | .fbRd _ | .histRd _ _ => true
  | .nop | .wrreg _ _ | .reset | .rsPush _ _ | .rsMark | .pcAdd _ | .pcCommit | .pcClear | .blFrame | .fbWr _ _ =>
    false

/-! ## The invariant -/

/-- No sinc accumulator is larger than the products it can have received: at phase `p`, accumulator `k` has received at
most (P_T - 1 - k) * P_D + p of them, each at most 2^30 in magnitude (R163). -/
def accsBounded (c : Config) (p : Nat) (accs : List Acc) : Prop :=
  ∀ k, ∀ h : k < accs.length, accs[k].toInt.natAbs ≤ ((c.pT - 1 - k) * c.pD + p) * 2 ^ 30

/-- The cells of a memory are cells of the build: an index below P_FB_PIXELS and a pixel of the cell's width (R80). -/
def cellsFit (c : Config) (m : Memory) : Bool :=
  m.all fun cell => decide (cell.1 < c.pFbPixels) && decide (cell.2.toNat < 2 ^ cellWidth c.pPixFmt)

/-- What holds of every state a legal build can reach. -/
structure State.Inv (s : State) : Prop where
  /-- The build is legal (R6). -/
  build : s.cfg.legal = true
  /-- OUTQ holds at most P_Q pairs (R85). -/
  outq : s.rs.outq.length ≤ s.cfg.pQ
  /-- There are P_T accumulators a channel (R48). -/
  lenL : s.rs.saccL.length = s.cfg.pT
  lenR : s.rs.saccR.length = s.cfg.pT
  /-- PH is in 0 .. P_D - 1 (R48). -/
  phase : s.rs.ph < s.cfg.pD
  /-- No accumulator can have wrapped (R163). -/
  accL : accsBounded s.cfg s.rs.ph s.rs.saccL
  accR : accsBounded s.cfg s.rs.ph s.rs.saccR
  /-- CR is P_FO before the first push, and in 1 .. P_FI after (R175). -/
  cosPhase : s.rs.cr.toNat = s.cfg.pFo ∨ (1 ≤ s.rs.cr.toNat ∧ s.rs.cr.toNat ≤ s.cfg.pFi)
  /-- SPF is at least 1 (R56, R200). -/
  spf : 1 ≤ s.pc.spf.toNat
  /-- MULT is in 1 .. 5 (R57). -/
  mult : 1 ≤ s.pc.mult.toNat ∧ s.pc.mult.toNat ≤ 5
  /-- LAST_DUPE and RUN are never both 1 (R201). -/
  verdict : ¬(s.pc.lastDupe = true ∧ s.pc.run = true)
  /-- The weights are at most 0x0100 (R60). -/
  weights : s.bl.w1.toNat ≤ 0x100 ∧ s.bl.w2.toNat ≤ 0x100 ∧ s.bl.w3.toNat ≤ 0x100 ∧ s.bl.w4.toNat ≤ 0x100
  /-- Every memory is in its canonical form. -/
  memories : ∀ sp, Memory.wf sp.unlisted (s.memory sp) = true
  /-- Every listed cell is a cell of the build. -/
  cells : ∀ sp, cellsFit s.cfg (s.memory sp) = true
  /-- A history memory numbered above P_HIST_AVAIL does not exist (R83): nothing is listed in it. -/
  absent : ∀ j, 1 ≤ j → j ≤ 4 → s.cfg.pHistAvail < j → s.memory (histSpace j) = []

/-! ## Closed forms of the backends -/

/-- `x(t)`: the input of one channel at time t, 0 for t < 0 (R164). -/
def inputAt (xs : List Sample) (t : Int) : Int := if t < 0 then 0 else (xs.getD t.toNat 0).toInt

/-- The sum inside R164: `sum over m of sext_16(hp[m]) * x((n + 1) * P_D - 1 - m)`. -/
def firSum (c : Config) (xs : List Sample) (n : Nat) : Int :=
  ((List.range (c.pD * c.pT)).map fun (m : Nat) =>
    (c.pHp.getD m 0).toInt * inputAt xs (((n : Int) + 1) * c.pD - 1 - m)).sum

/-- `y(n)` of R164. -/
def sincY (c : Config) (xs : List Sample) (n : Nat) : Int := sincOut (firSum c xs n)

/-- The number of pairs the sinc backend has made after `n` accepted inputs (R165). -/
def sincCount (c : Config) (n : Nat) : Nat := n / c.pD

/-- `t(j) = ceil(j * P_FI / P_FO)`: the push that makes cosine output j (R173). -/
def cosPush (c : Config) (j : Nat) : Nat := (j * c.pFi + c.pFo - 1) / c.pFo

/-- `floor(256 * mu)` with `mu = tau(j) - (t(j) - 1)` (R173): mu * P_FO = j * P_FI + P_FO - t(j) * P_FO. -/
def cosIndex (c : Config) (j : Nat) : Nat := 256 * (j * c.pFi + c.pFo - cosPush c j * c.pFo) / c.pFo

/-- The value of cosine output j on one channel (R173). -/
def cosY (c : Config) (xs : List Sample) (j : Nat) : Int :=
  cosInterp (inputAt xs ((cosPush c j : Int) - 1)) (inputAt xs (cosPush c j)) (cosIndex c j)

/-- The number of pairs the cosine backend has made after `n` accepted inputs (R174). -/
def cosCount (c : Config) (n : Nat) : Nat := if n = 0 then 0 else (n - 1) * c.pFo / c.pFi + 1

/-- The backends are as RS_INIT leaves them (R157). -/
def backendsFresh (s : State) : Prop := rsInit s = s

/-- The pushes of a list of input pairs. -/
def pushes (xs : List (Sample × Sample)) : List Instr := xs.map fun x => .rsPush x.1 x.2

/-- The pairs of two channels' outputs 0 .. n - 1, packed (R13). -/
def packedPairs (yl yr : Nat → Int) (n : Nat) : List Word := (List.range n).map fun j => packPair (yl j) (yr j)

/-! ## The host's duties -/

/-- The commands a host must not send in the rest of a dupe tick (R305). -/
def dupeTickForbids : Instr → Bool
  | .rsPush _ _ | .pcAdd _ | .rsMark | .blFrame | .pcCommit => true
  | .nop | .rdreg _ | .wrreg _ _ | .reset | .rsPop | .pcCheck | .pcClear | .fbWr _ _ | .fbRd _ | .histRd _ _ => false

/-- The most pairs one push can make: 1 with sinc, ceil(P_FO / P_FI) with cosine (R307). -/
def pushBound (s : State) : Nat :=
  match effBackend s with
  | .sinc => 1
  | .cosine => (s.cfg.pFo + s.cfg.pFi - 1) / s.cfg.pFi

/-- Every active FB cell has been written (R309). -/
def frameWritten (s : State) : Prop := ∀ i ∈ activeCells s.bl, memRead .fb i s ≠ none

/-- The host keeps its duties in sending this command in this state: the dupe tick (R305), one PC_COMMIT per run verdict
(R306), room in OUTQ before a push (R307), a pair to pop (R308), and a written frame before a filtering BL_FRAME (R309).
The model's own additions, which no rule makes a duty: room under the cap before a push (R310 asks only for RS_MARK and
a look at the drop count), a valid geometry before a filtering BL_FRAME, cell indexes and history memory numbers in
range, and an assigned register number (log entry 13). -/
def State.dutiful (s : State) (i : Instr) : Prop :=
  (s.pc.lastDupe = true → dupeTickForbids i = false) ∧
    match i with
    | .rsPush _ _ => capAccepts s = true ∧ s.rs.outq.length + pushBound s ≤ s.cfg.pQ
    | .rsPop => s.rs.outq ≠ []
    | .pcCommit => s.pc.run = true
    | .blFrame => effMode s = .off ∨ (geomValid s = true ∧ frameWritten s)
    | .fbWr x _ => x.toNat < s.cfg.pFbPixels
    | .fbRd x => x.toNat < s.cfg.pFbPixels ∧ memRead .fb x.toNat s ≠ none
    | .histRd j x => 1 ≤ j.toNat ∧ j.toNat ≤ s.cfg.pHistAvail ∧ x.toNat < s.cfg.pFbPixels
    | .rdreg n => regOf n ≠ none
    | .nop | .wrreg _ _ | .reset | .rsMark | .pcCheck | .pcAdd _ | .pcClear => True

/-- The order in which a host hands popped pairs to an interleaved 16-bit stereo sink: left before right (R87). -/
def interleave : List Word → List Sample
  | [] => []
  | y :: ys => y.extractLsb' 16 16 :: y.extractLsb' 0 16 :: interleave ys

/-- The row pitch in bytes that a host's video sink is given: PITCH times the pixel size (R64, R305). -/
def rowPitchBytes (s : State) : Nat := s.bl.pitch.toNat * (cellWidth s.cfg.pPixFmt / 8)

/-- The commands by which a host sets the block up after a reset, in the order of R304's steps. -/
def bootCommands (sel cap spf mult w h pitch w1 w2 w3 w4 mode : Word) : List Instr :=
  [.rdreg 0x00] ++
    [.wrreg 0x02 sel, .rdreg 0x03, .rdreg 0x04, .rdreg 0x01] ++
    [.wrreg 0x06 cap] ++
    [.wrreg 0x14 spf, .wrreg 0x15 mult, .pcClear] ++
    [.wrreg 0x27 w, .wrreg 0x28 h, .wrreg 0x29 pitch, .wrreg 0x22 w1, .wrreg 0x23 w2, .wrreg 0x24 w3, .wrreg 0x25 w4] ++
    [.wrreg 0x20 mode, .rdreg 0x21, .rdreg 0x01] ++
    [.wrreg 0x01 0x3FF]

/-- The commands of a run tick after its PC_CHECK (R205, R306): the pairs the core produced and their count, the fresh
frame, BL_FRAME, the delivery of the frame, and the one PC_COMMIT. A dupe tick sends none (R305). -/
def runTick (samples : List (Sample × Sample)) (count : Word) (frame : List (BitVec 16 × Word)) : List Instr :=
  .rsMark :: pushes samples ++ [.pcAdd count] ++ frame.map (fun c => .fbWr c.1 c.2) ++ [.blFrame] ++
    frame.map (fun c => .fbRd c.1) ++ [.pcCommit]

/-! ## Frames -/

/-- A command that answers 0 and leaves everything but the cell memories as it was. -/
def onlyMemoriesChange (s t : State) : Prop :=
  t.cfg = s.cfg ∧ t.status = s.status ∧ t.rs = s.rs ∧ t.pc = s.pc ∧ t.bl = s.bl ∧ t.cmds = s.cmds ∧
    t.resps = s.resps ++ [0]

/-- Every cell of every memory reads as before, but for the cells of `changed`. -/
def cellsKept (s t : State) (changed : Space → Nat → Prop) : Prop :=
  ∀ sp i, ¬changed sp i → memRead sp i t = memRead sp i s

/-- What HIST_CLEAR does, seen through reads: every cell of every present history memory reads 0, every other cell as
before (R66). -/
def historyCleared (s t : State) : Prop :=
  (∀ j i, 1 ≤ j → j ≤ 4 → j ≤ s.cfg.pHistAvail → memRead (histSpace j) i t = some 0) ∧
    cellsKept s t fun sp _ => ∃ j, 1 ≤ j ∧ j ≤ 4 ∧ j ≤ s.cfg.pHistAvail ∧ sp = histSpace j

/-- FB holds values that FB can hold: canonical, each cell inside it and of its width (R80, R82). -/
def frameMemoryOk (s : State) : Prop := Memory.wf Space.fb.unlisted s.mem.fb = true ∧ cellsFit s.cfg s.mem.fb = true

/-- A clean start state (R303): the state of R68 after power-on with STATUS = 0 (so OUTQ is empty and RUN = 0), FB holding
any values, and any words still to be delivered by the host, who is no part of the block (log entry 4). -/
def State.clean (s : State) : Prop :=
  s = { State.powerOn s.cfg with
    mem := { (State.powerOn s.cfg).mem with fb := s.mem.fb }
    cmds := s.cmds } ∧ s.status = 0 ∧ frameMemoryOk s

end Sys2Proof.Machine
end

