-- ==== Sys2Proof/Certificates/Slice0/Obligations.lean ====
section
/-! DEFINITION. The statements about RSPB, from the numbered rules of spec/. Each names its rules; `{ s with … }` is
the whole next state, so every field not named in it is unchanged. -/

open Sys2Proof Sys2Proof.Machine

/-! ## Encoding -/

/-- R115: the six worked encodings, through the assembler, the encoder and the decoder. -/
def Obligations.WorkedEncodings : Prop :=
  (assembleWords "RS_PUSH 1000, -1" = some [0x1000000003E8FFFF] ∧
    decode 0x1000000003E8FFFF = .ok (.rsPush 1000 (-1)) ∧ encode (.rsPush 1000 (-1)) = 0x1000000003E8FFFF) ∧
  (assembleWords "WRREG PC_SPF, 35112" = some [0x0214000000008928] ∧
    decode 0x0214000000008928 = .ok (.wrreg 0x14 35112) ∧ encode (.wrreg 0x14 35112) = 0x0214000000008928) ∧
  (assembleWords "RDREG RS_AVAIL" = some [0x0105000000000000] ∧
    decode 0x0105000000000000 = .ok (.rdreg 0x05) ∧ encode (.rdreg 0x05) = 0x0105000000000000) ∧
  (assembleWords "FB_WR 3, 0xF800" = some [0x310000030000F800] ∧
    decode 0x310000030000F800 = .ok (.fbWr 3 0xF800) ∧ encode (.fbWr 3 0xF800) = 0x310000030000F800) ∧
  (assembleWords "HIST_RD H2, 7" = some [0x3302000700000000] ∧
    decode 0x3302000700000000 = .ok (.histRd 2 7) ∧ encode (.histRd 2 7) = 0x3302000700000000) ∧
  (assembleWords "PC_ADD 70224" = some [0x2100000000011250] ∧
    decode 0x2100000000011250 = .ok (.pcAdd 70224) ∧ encode (.pcAdd 70224) = 0x2100000000011250)

/-- Decoding and encoding are inverse: every command, with every operand, is what its own encoding decodes to, and a word
the decoder accepts is the encoding of the command it selects, so no bit of an accepted word is ignored (R101 to R108). -/
def Obligations.DecodeInvertsEncode : Prop := ∀ (c : Command) (i : Instr), decode c = .ok i ↔ c = encode i

/-- R104 on numbers: where each operand stands in the word, for the commands that have operands. -/
def Obligations.OperandsStandWhereSaid : Prop :=
  (∀ n < 2 ^ 8, decode (BitVec.ofNat 64 (0x01 * 2 ^ 56 + n * 2 ^ 48)) = .ok (.rdreg (BitVec.ofNat 8 n))) ∧
  (∀ n < 2 ^ 8, ∀ v < 2 ^ 32,
    decode (BitVec.ofNat 64 (0x02 * 2 ^ 56 + n * 2 ^ 48 + v)) =
      .ok (.wrreg (BitVec.ofNat 8 n) (BitVec.ofNat 32 v))) ∧
  (∀ l r : Int, -32768 ≤ l → l ≤ 32767 → -32768 ≤ r → r ≤ 32767 →
    ∃ x y : Sample, x.toInt = l ∧ y.toInt = r ∧
      decode (BitVec.ofNat 64 (0x10 * 2 ^ 56 + (l % 2 ^ 16).toNat * 2 ^ 16 + (r % 2 ^ 16).toNat)) =
        .ok (.rsPush x y)) ∧
  (∀ v < 2 ^ 32, decode (BitVec.ofNat 64 (0x21 * 2 ^ 56 + v)) = .ok (.pcAdd (BitVec.ofNat 32 v))) ∧
  (∀ x < 2 ^ 16, ∀ p < 2 ^ 32,
    decode (BitVec.ofNat 64 (0x31 * 2 ^ 56 + x * 2 ^ 32 + p)) = .ok (.fbWr (BitVec.ofNat 16 x) (BitVec.ofNat 32 p))) ∧
  (∀ x < 2 ^ 16, decode (BitVec.ofNat 64 (0x32 * 2 ^ 56 + x * 2 ^ 32)) = .ok (.fbRd (BitVec.ofNat 16 x))) ∧
  (∀ j < 2 ^ 8, ∀ x < 2 ^ 16,
    decode (BitVec.ofNat 64 (0x33 * 2 ^ 56 + j * 2 ^ 48 + x * 2 ^ 32)) =
      .ok (.histRd (BitVec.ofNat 8 j) (BitVec.ofNat 16 x)))

/-- R110: the unassigned opcodes are exactly those of the four ranges, and NOP is the one word 0. -/
def Obligations.UnassignedOpcodesAreIllegal : Prop :=
  (∀ c : Command,
    decode c = .error .unassignedOpcode ↔
      (0x04 ≤ c.toNat / 2 ^ 56 ∧ c.toNat / 2 ^ 56 ≤ 0x0F) ∨ (0x13 ≤ c.toNat / 2 ^ 56 ∧ c.toNat / 2 ^ 56 ≤ 0x1F) ∨
        (0x24 ≤ c.toNat / 2 ^ 56 ∧ c.toNat / 2 ^ 56 ≤ 0x2F) ∨ 0x34 ≤ c.toNat / 2 ^ 56) ∧
  (∀ c : Command, decode c = .ok .nop ↔ c = 0)

/-- R102, R108: a word is accepted exactly when its opcode is assigned and every reserved field of its format is 0. -/
def Obligations.ReservedFieldsMustBeZero : Prop :=
  ∀ (op a : BitVec 8) (b : BitVec 16) (d : Word),
    (∃ i, decode (wordOf op a b d) = .ok i) ↔
      (op ∈ [0x00, 0x03, 0x11, 0x12, 0x20, 0x22, 0x23, 0x30] ∧ a = 0 ∧ b = 0 ∧ d = 0) ∨
      (op = 0x01 ∧ b = 0 ∧ d = 0) ∨ (op = 0x02 ∧ b = 0) ∨ (op ∈ [0x10, 0x21] ∧ a = 0 ∧ b = 0) ∨
      (op = 0x31 ∧ a = 0) ∨ (op = 0x32 ∧ a = 0 ∧ d = 0) ∨ (op = 0x33 ∧ d = 0)

/-! ## The step -/

/-- A step runs the command the next word decodes to, in the state with that word taken from the port (R31, R107). The
port as a list of words in State is the model's choice (log entry 4). -/
def Obligations.StepRunsDecodedCommand : Prop :=
  ∀ (s : State) (c : Command) (rest : List Command) (i : Instr),
    s.cfg.legal = true → s.cmds = c :: rest → decode c = .ok i → step s = exec i { s with cmds := rest }

/-- R109: an illegal word raises ILLEGAL, returns response 0 and changes nothing else. -/
def Obligations.IllegalWordRaisesIllegalOnly : Prop :=
  ∀ (s : State) (c : Command) (rest : List Command) (e : Reject),
    s.cfg.legal = true → s.cmds = c :: rest → decode c = .error e →
      step s = .next { s with cmds := rest, status := s.status ||| 0x001, resps := s.resps ++ [0] }

/-- With no command word on the port the block waits, unchanged (R295, R301; log entry 4); a build with an illegal parameter is
refused (93_implementation_defined.md section 2; log entry 6). -/
def Obligations.WaitsUnchangedWithoutCommand : Prop :=
  (∀ s : State, s.cfg.legal = true → s.cmds = [] → step s = .next s) ∧
  (∀ s : State, s.cfg.legal = false → step s = .refused .illegalBuild)

/-- R296: in every state every command has its outcome, a next state, but for a read of an FB cell that nothing has
written since power-on, which is the model's fault (log entry 1), at a cell the command reads. R302: a BL_FRAME that
filters under a valid geometry with an active cell never written does end in that fault, at such a cell. (FrameCellRead
says so of FB_RD.) -/
def Obligations.OnlyUnwrittenCellsStopACommand : Prop :=
  (∀ (i : Instr) (s : State),
    (∃ t, exec i s = .next t) ∨
      ∃ k, exec i s = .fault (.fbCellUnwritten k) ∧ memRead .fb k s = none ∧
        ((∃ x : BitVec 16, i = .fbRd x ∧ k = x.toNat ∧ k < s.cfg.pFbPixels) ∨
          (i = .blFrame ∧ effMode s ≠ .off ∧ geomValid s = true ∧ k ∈ activeCells s.bl))) ∧
  (∀ s : State, effMode s ≠ .off → geomValid s = true → (∃ j ∈ activeCells s.bl, memRead .fb j s = none) →
    ∃ k ∈ activeCells s.bl, memRead .fb k s = none ∧ exec .blFrame s = .fault (.fbCellUnwritten k))

/-- R112, R90: a command returns exactly one response, 0 unless it is RDREG, RS_POP, PC_CHECK, FB_RD or HIST_RD; it
takes no word from the port and changes no build parameter. -/
def Obligations.OneResponsePerCommand : Prop :=
  ∀ (i : Instr) (s t : State),
    exec i s = .next t →
      t.cfg = s.cfg ∧ t.cmds = s.cmds ∧
        ∃ v, t.resps = s.resps ++ [v] ∧ (respondsValue i = false → v = 0)

/-- Every step from a state that meets the invariant gives a state that meets it. -/
def Obligations.StepKeepsInvariant : Prop := ∀ s t : State, s.Inv → step s = .next t → t.Inv

/-- The state after power-on of every legal build meets the invariant, and so does every clean start state of one
(R303), whatever values its FB holds. `State.reset` is one such state, of a build the model chose (log entry 3). -/
def Obligations.PowerOnMeetsInvariant : Prop :=
  (∀ c : Config, c.legal = true → (State.powerOn c).Inv) ∧ (∀ s : State, s.cfg.legal = true → s.clean → s.Inv) ∧
    State.reset.Inv

/-! ## STATUS -/

/-- R280, R284: a command newly sets at most one STATUS bit, and one its own rule raises. -/
def Obligations.AtMostOneOwnErrorPerCommand : Prop :=
  ∀ (i : Instr) (s t : State),
    exec i s = .next t →
      (∀ e, s.flag e = false → t.flag e = true → e ∈ mayRaise i) ∧
        ∀ e₁ e₂, s.flag e₁ = false → t.flag e₁ = true → s.flag e₂ = false → t.flag e₂ = true → e₁ = e₂

/-- R282: a set STATUS bit stays set, but for RESET and a write of STATUS with that bit 1. -/
def Obligations.StatusBitsAreSticky : Prop :=
  ∀ (i : Instr) (s t : State) (e : Err),
    exec i s = .next t → s.flag e = true →
      t.flag e = true ∨ i = .reset ∨ ∃ v : Word, i = .wrreg 0x01 v ∧ v.getLsbD e.code = true

/-- R37: a write of STATUS clears the bits written 1, leaves the others, sets none, and raises no error. -/
def Obligations.StatusWriteOneClears : Prop :=
  ∀ (s : State) (v : Word),
    ∃ st : BitVec 10,
      exec (.wrreg 0x01 v) s = .next { s with status := st, resps := s.resps ++ [0] } ∧
        ∀ b < 10, st.getLsbD b = (s.status.getLsbD b && !v.getLsbD b)

/-! ## Control commands -/

/-- R130: NOP is the word 0 alone, changes nothing and returns 0. -/
def Obligations.NopChangesNothing : Prop :=
  (∀ s : State, exec .nop s = .next { s with resps := s.resps ++ [0] }) ∧
  decode 0x0000000000000000 = .ok .nop ∧ decode 0x0000000000000001 = .error .reservedField ∧
  ∀ c : Command, c.toNat / 2 ^ 56 = 0 → c ≠ 0 → decode c = .error .reservedField

/-- RDREG of every register (R33, R34, R36, R38, R40 to R47, R50, R51, R53, R56 to R64, R131): the value each reads as;
nothing else changes. -/
def Obligations.RegistersReadTheirValues : Prop :=
  ∀ s : State, s.cfg.legal = true →
    let eff : Nat := if s.rs.sel = .sinc ∧ s.cfg.pSincOk = true then 0 else 1
    let mode : Nat := match s.bl.mode with | .off => 0 | .mix => 1 | .ghostAccurate => 2 | .ghostFast => 3
    let memories : Nat := match s.bl.mode with | .off => 0 | .mix => 1 | .ghostAccurate => 4 | .ghostFast => 1
    let reads (n : BitVec 8) (v : Nat) : Prop :=
      exec (.rdreg n) s = .next { s with resps := s.resps ++ [BitVec.ofNat 32 v] }
    (reads 0x00
        ((if s.cfg.pSincOk then 1 else 0) + 2 * s.cfg.pHistAvail + (if s.cfg.pPixFmt = .xrgb8888 then 16 else 0)) ∧
      reads 0x01 s.status.toNat ∧
      reads 0x02 (if s.rs.sel = .cosine then 1 else 0) ∧
      reads 0x03 eff ∧
      reads 0x04 (if eff = 0 then s.cfg.pFi / s.cfg.pD else s.cfg.pFo) ∧
      reads 0x05 s.rs.outq.length ∧
      reads 0x06 s.rs.cap.toNat ∧
      reads 0x07 s.rs.blkcnt.toNat ∧
      reads 0x08 s.rs.dropcnt.toNat ∧
      reads 0x09 (if eff = 0 then s.rs.ph else s.rs.cr.toNat)) ∧
    (reads 0x10 (s.pc.samples.toNat % 2 ^ 32) ∧
      reads 0x11 (s.pc.samples.toNat / 2 ^ 32) ∧
      reads 0x12 (s.pc.frames.toNat % 2 ^ 32) ∧
      reads 0x13 (s.pc.frames.toNat / 2 ^ 32) ∧
      reads 0x14 s.pc.spf.toNat ∧
      reads 0x15 s.pc.mult.toNat ∧
      reads 0x16 ((if s.pc.lastDupe then 1 else 0) + (if s.pc.run then 2 else 0))) ∧
    (reads 0x20 mode ∧
      reads 0x21 (if memories ≤ s.cfg.pHistAvail then mode else 0) ∧
      reads 0x22 s.bl.w1.toNat ∧
      reads 0x23 s.bl.w2.toNat ∧
      reads 0x24 s.bl.w3.toNat ∧
      reads 0x25 s.bl.w4.toNat ∧
      reads 0x26 s.cfg.pWf.toNat ∧
      reads 0x27 s.bl.width.toNat ∧
      reads 0x28 s.bl.height.toNat ∧
      reads 0x29 s.bl.pitch.toNat)

/-- R69: RDREG and WRREG of an unassigned register number raise ILLEGAL, return 0, and change nothing else. The
unassigned numbers are those of R33: 0x0A to 0x0F, 0x17 to 0x1F, 0x2A to 0xFF. -/
def Obligations.UnassignedRegistersRaiseIllegal : Prop :=
  ∀ (s : State) (n : BitVec 8) (v : Word),
    (0x0A ≤ n.toNat ∧ n.toNat ≤ 0x0F) ∨ (0x17 ≤ n.toNat ∧ n.toNat ≤ 0x1F) ∨ 0x2A ≤ n.toNat →
      exec (.rdreg n) s = .next { s with status := s.status ||| 0x001, resps := s.resps ++ [0] } ∧
      exec (.wrreg n v) s = .next { s with status := s.status ||| 0x001, resps := s.resps ++ [0] }

/-- R35: a write of CAPS or of any other read-only register raises BADVAL and changes nothing else. -/
def Obligations.ReadOnlyRegistersRefuseWrites : Prop :=
  ∀ (s : State) (n : BitVec 8) (v : Word),
    n ∈ [0x00, 0x03, 0x04, 0x05, 0x07, 0x09, 0x10, 0x11, 0x12, 0x13, 0x16, 0x21, 0x26] →
      exec (.wrreg n v) s = .next { s with status := s.status ||| 0x100, resps := s.resps ++ [0] }

/-- R39: a write of RS_CTRL sets SEL, raises FALLBACK once per selection of an absent sinc backend, and returns both
backends to their initial state exactly when the effective backend changes. -/
def Obligations.BackendSelectionWrite : Prop :=
  ∀ (s : State) (v : Word),
    let sel : Backend := if v.getLsbD 0 then .cosine else .sinc
    let eff (x : Backend) : Nat := if x = .sinc ∧ s.cfg.pSincOk = true then 0 else 1
    exec (.wrreg 0x02 v) s =
      .next
        { s with
          status :=
            if v.getLsbD 0 = false ∧ s.cfg.pSincOk = false ∧ s.rs.sel = .cosine then s.status ||| 0x010 else s.status
          rs :=
            if eff sel = eff s.rs.sel then { s.rs with sel := sel }
            else
              { s.rs with
                sel := sel, saccL := List.replicate s.cfg.pT 0, saccR := List.replicate s.cfg.pT 0, ph := 0,
                caL := 0, caR := 0, cr := BitVec.ofNat 32 s.cfg.pFo }
          resps := s.resps ++ [0] }

/-- Writes of the plain registers RS_CAP, RS_DROPCNT, PC_SPF, PC_MULT and BL_W1 .. BL_W4 (R44, R46, R56, R57, R60): a
legal value is stored (any write of RS_DROPCNT clears it), an illegal one raises BADVAL and leaves the register; nothing
else changes, so STATUS.DROP survives a clear of RS_DROPCNT and a weight write clears no history. -/
def Obligations.PlainRegisterWrites : Prop :=
  ∀ (s : State) (v : Word),
    let badval := { s with status := s.status ||| 0x100, resps := s.resps ++ [0] }
    let w := BitVec.ofNat 16 (v.toNat % 2 ^ 16)
    exec (.wrreg 0x06 v) s = .next { s with rs := { s.rs with cap := v }, resps := s.resps ++ [0] } ∧
    exec (.wrreg 0x08 v) s = .next { s with rs := { s.rs with dropcnt := 0 }, resps := s.resps ++ [0] } ∧
    (v = 0 → exec (.wrreg 0x14 v) s = .next badval) ∧
    (v ≠ 0 → exec (.wrreg 0x14 v) s = .next { s with pc := { s.pc with spf := v }, resps := s.resps ++ [0] }) ∧
    (v.toNat % 8 ∈ [0, 6, 7] → exec (.wrreg 0x15 v) s = .next badval) ∧
    (v.toNat % 8 ∈ [1, 2, 3, 4, 5] →
      exec (.wrreg 0x15 v) s =
        .next { s with pc := { s.pc with mult := BitVec.ofNat 3 (v.toNat % 8) }, resps := s.resps ++ [0] }) ∧
    (0x0100 < v.toNat % 2 ^ 16 →
      ∀ n : BitVec 8, n ∈ [0x22, 0x23, 0x24, 0x25] → exec (.wrreg n v) s = .next badval) ∧
    (v.toNat % 2 ^ 16 ≤ 0x0100 →
      exec (.wrreg 0x22 v) s = .next { s with bl := { s.bl with w1 := w }, resps := s.resps ++ [0] } ∧
      exec (.wrreg 0x23 v) s = .next { s with bl := { s.bl with w2 := w }, resps := s.resps ++ [0] } ∧
      exec (.wrreg 0x24 v) s = .next { s with bl := { s.bl with w3 := w }, resps := s.resps ++ [0] } ∧
      exec (.wrreg 0x25 v) s = .next { s with bl := { s.bl with w4 := w }, resps := s.resps ++ [0] })

/-- R58: a write of BL_CTRL stores MODE; when the mode changes it clears history, and raises ALLOC when the mode needs
more history memories than the build has. -/
def Obligations.BlendModeWrite : Prop :=
  ∀ (s : State) (v : Word),
    let kinds : List BlendKind := [.off, .mix, .ghostAccurate, .ghostFast]
    let needs : List Nat := [0, 1, 4, 1]
    let k := v.toNat % 4
    let m := kinds.getD k .off
    (m = s.bl.mode → exec (.wrreg 0x20 v) s = .next { s with resps := s.resps ++ [0] }) ∧
    (m ≠ s.bl.mode →
      ∃ t, exec (.wrreg 0x20 v) s = .next t ∧ historyCleared s t ∧
        t = { s with
          status := if needs.getD k 0 > s.cfg.pHistAvail then s.status ||| 0x080 else s.status
          bl := { s.bl with mode := m }
          mem := t.mem
          resps := s.resps ++ [0] })

/-- R133: a write of BL_WIDTH, BL_HEIGHT or BL_PITCH stores bits 15:0 and clears history exactly when the value
changes. -/
def Obligations.GeometryWrites : Prop :=
  ∀ (s : State) (v : Word) (n : BitVec 8) (old : BitVec 16) (set : BitVec 16 → Blender → Blender),
    (n = 0x27 ∧ old = s.bl.width ∧ set = fun g b => { b with width := g }) ∨
    (n = 0x28 ∧ old = s.bl.height ∧ set = fun g b => { b with height := g }) ∨
    (n = 0x29 ∧ old = s.bl.pitch ∧ set = fun g b => { b with pitch := g }) →
      let new := BitVec.ofNat 16 (v.toNat % 2 ^ 16)
      (new = old → exec (.wrreg n v) s = .next { s with resps := s.resps ++ [0] }) ∧
      (new ≠ old →
        ∃ t, exec (.wrreg n v) s = .next t ∧ historyCleared s t ∧
          t = { s with bl := set new s.bl, mem := t.mem, resps := s.resps ++ [0] })

/-- R132's corner case: writing a register the value it reads as has no side effect, for every register that stores
what is written to it. -/
def Obligations.EqualValueWriteHasNoEffect : Prop :=
  ∀ (s : State) (r : Reg), s.Inv →
    r ∈ [.rsCtrl, .rsCap, .pcSpf, .pcMult, .blCtrl, .blW1, .blW2, .blW3, .blW4, .blWidth, .blHeight, .blPitch] →
      exec (.wrreg r.number (readReg r s)) s = .next { s with resps := s.resps ++ [0] }

/-- R134: RESET puts every piece of state but FB into its reset value of R68 and returns 0. -/
def Obligations.ResetRestoresResetValues : Prop :=
  ∀ s : State,
    exec .reset s =
      .next
        { cfg := s.cfg
          status := if s.cfg.pSelReset = .sinc ∧ s.cfg.pSincOk = false then 0x010 else 0x000
          rs :=
            { sel := s.cfg.pSelReset, outq := [], cap := s.cfg.pCapReset, blkcnt := 0, dropcnt := 0,
              saccL := List.replicate s.cfg.pT 0, saccR := List.replicate s.cfg.pT 0, ph := 0, caL := 0, caR := 0,
              cr := BitVec.ofNat 32 s.cfg.pFo }
          pc := { samples := 0, frames := 0, spf := 35112, mult := 1, lastDupe := false, run := false }
          bl :=
            { mode := .off, w1 := 0, w2 := 0, w3 := 0, w4 := 0, width := s.cfg.pWReset, height := s.cfg.pHReset,
              pitch := s.cfg.pPitchReset }
          mem := { fb := s.mem.fb, h1 := [], h2 := [], h3 := [], h4 := [] }
          cmds := s.cmds
          resps := s.resps ++ [0] }

/-- R68, seen by the host: after power-on or RESET of a legal build the registers read as the table says, every history
cell reads 0, and RESET keeps every FB cell. -/
def Obligations.ResetTableReadsBack : Prop :=
  ∀ s₀ s : State, s₀.cfg.legal = true →
    (s = State.powerOn s₀.cfg ∨ exec .reset s₀ = .next s) →
      let c := s₀.cfg
      let eff : Nat := if c.pSelReset = .sinc ∧ c.pSincOk = true then 0 else 1
      let reads (n : BitVec 8) (v : Nat) : Prop :=
        exec (.rdreg n) s = .next { s with resps := s.resps ++ [BitVec.ofNat 32 v] }
      reads 0x00 ((if c.pSincOk then 1 else 0) + 2 * c.pHistAvail + (if c.pPixFmt = .xrgb8888 then 16 else 0)) ∧
      reads 0x01 (if c.pSelReset = .sinc ∧ c.pSincOk = false then 0x10 else 0) ∧
      reads 0x02 (if c.pSelReset = .cosine then 1 else 0) ∧ reads 0x03 eff ∧
      reads 0x04 (if eff = 0 then c.pFi / c.pD else c.pFo) ∧
      (∀ n : BitVec 8, n ∈ [0x05, 0x07, 0x08, 0x10, 0x11, 0x12, 0x13, 0x16] → reads n 0) ∧
      reads 0x06 c.pCapReset.toNat ∧ reads 0x09 (if eff = 0 then 0 else c.pFo) ∧
      reads 0x14 35112 ∧ reads 0x15 1 ∧
      (∀ n : BitVec 8, n ∈ [0x20, 0x21, 0x22, 0x23, 0x24, 0x25] → reads n 0) ∧
      reads 0x26 c.pWf.toNat ∧ reads 0x27 c.pWReset.toNat ∧ reads 0x28 c.pHReset.toNat ∧
      reads 0x29 c.pPitchReset.toNat ∧
      (∀ j x, 1 ≤ j → j ≤ 4 → memRead (histSpace j) x s = some 0) ∧
      (exec .reset s₀ = .next s → ∀ x, memRead .fb x s = memRead .fb x s₀)

/-! ## Resampler -/

/-- R152: a push at the cap (unsigned comparison) drops its pair, with RS_DROPCNT + 1 saturating and DROP, and changes
nothing else; a push below the cap leaves RS_DROPCNT and STATUS.DROP as they were. -/
def Obligations.PushAtCapDropsPair : Prop :=
  ∀ (s : State) (l r : Sample),
    (s.rs.cap.toNat ≤ s.rs.blkcnt.toNat →
      exec (.rsPush l r) s =
        .next
          { s with
            status := s.status ||| 0x002
            rs :=
              { s.rs with
                dropcnt := if s.rs.dropcnt = 0xFFFFFFFF then 0xFFFFFFFF else s.rs.dropcnt + 1 }
            resps := s.resps ++ [0] }) ∧
    (s.rs.blkcnt.toNat < s.rs.cap.toNat →
      ∃ t, exec (.rsPush l r) s = .next t ∧ t.rs.dropcnt = s.rs.dropcnt ∧ t.flag .drop = s.flag .drop)

/-- R150, R151, R153: an accepted push counts one pair without wrapping, steps the backend in effect only, appends to
OUTQ only, can change no STATUS bit but OVF, and leaves the pacer, the blender and the memories alone. -/
def Obligations.AcceptedPushFrame : Prop :=
  ∀ (s : State) (l r : Sample), s.rs.blkcnt.toNat < s.rs.cap.toNat →
    ∃ t, exec (.rsPush l r) s = .next t ∧
      t.rs.blkcnt.toNat = s.rs.blkcnt.toNat + 1 ∧ t.rs.sel = s.rs.sel ∧ t.rs.cap = s.rs.cap ∧
      t.rs.dropcnt = s.rs.dropcnt ∧ s.rs.outq <+: t.rs.outq ∧
      (s.rs.sel = .sinc ∧ s.cfg.pSincOk = true →
        t.rs.caL = s.rs.caL ∧ t.rs.caR = s.rs.caR ∧ t.rs.cr = s.rs.cr) ∧
      (¬(s.rs.sel = .sinc ∧ s.cfg.pSincOk = true) →
        t.rs.saccL = s.rs.saccL ∧ t.rs.saccR = s.rs.saccR ∧ t.rs.ph = s.rs.ph) ∧
      (∀ e, e ≠ .ovf → t.flag e = s.flag e) ∧
      t.cfg = s.cfg ∧ t.pc = s.pc ∧ t.bl = s.bl ∧ t.mem = s.mem ∧ t.cmds = s.cmds ∧ t.resps = s.resps ++ [0]

/-- R160, R161, R163: one accepted push of the sinc backend, in exact integers: every accumulator gains its product,
and at the last phase the nearest leaves as an output pair and the others move one place. -/
def Obligations.SincPushStep : Prop :=
  ∀ (s : State) (l r : Sample), s.Inv → s.rs.blkcnt.toNat < s.rs.cap.toNat →
    s.rs.sel = .sinc → s.cfg.pSincOk = true →
      let p := s.rs.ph
      let coef (k : Nat) : Int := (s.cfg.pHp.getD (k * s.cfg.pD + (s.cfg.pD - 1 - p)) 0).toInt
      let sumL (k : Nat) : Int := (s.rs.saccL.getD k 0).toInt + l.toInt * coef k
      let sumR (k : Nat) : Int := (s.rs.saccR.getD k 0).toInt + r.toInt * coef k
      ∃ t, exec (.rsPush l r) s = .next t ∧
        (p + 1 < s.cfg.pD →
          t.rs.ph = p + 1 ∧ t.rs.outq = s.rs.outq ∧ t.status = s.status ∧
          ∀ k < s.cfg.pT, (t.rs.saccL.getD k 0).toInt = sumL k ∧ (t.rs.saccR.getD k 0).toInt = sumR k) ∧
        (p + 1 = s.cfg.pD →
          t.rs.ph = 0 ∧
          (∀ k, k + 1 < s.cfg.pT →
            (t.rs.saccL.getD k 0).toInt = sumL (k + 1) ∧ (t.rs.saccR.getD k 0).toInt = sumR (k + 1)) ∧
          t.rs.saccL.getD (s.cfg.pT - 1) 1 = 0 ∧ t.rs.saccR.getD (s.cfg.pT - 1) 1 = 0 ∧
          (s.rs.outq.length < s.cfg.pQ →
            t.rs.outq = s.rs.outq ++ [packPair (sincOut (sumL 0)) (sincOut (sumR 0))] ∧ t.status = s.status) ∧
          (s.rs.outq.length = s.cfg.pQ → t.rs.outq = s.rs.outq ∧ t.status = s.status ||| 0x004))

/-- R162: SINC_OUT rounds to nearest with halves up, saturated to 16 bits, with the rule's five examples. -/
def Obligations.SincRoundsToNearestAndSaturates : Prop :=
  (∀ acc : Int,
    -32768 ≤ sincOut acc ∧ sincOut acc ≤ 32767 ∧
      (sincOut acc < 32767 → acc + 16384 < 32768 * (sincOut acc + 1)) ∧
      (-32768 < sincOut acc → 32768 * sincOut acc ≤ acc + 16384)) ∧
  sincOut 16384 = 1 ∧ sincOut (-16384) = 0 ∧ sincOut (-16385) = -1 ∧ sincOut (32767 * 32767 * 2) = 32767 ∧
    sincOut (-32768 * 32767 * 2) = -32768

/-- R164, R165: from freshly initialised backends, any number N of accepted pushes with room in OUTQ makes exactly
N div P_D pairs, the n-th of them the FIR decimation of the prototype filter, made by input (n + 1) * P_D - 1. -/
def Obligations.SincStreamIsFirDecimation : Prop :=
  ∀ (s : State) (xs : List (Sample × Sample)),
    s.cfg.legal = true → s.rs.sel = .sinc → s.cfg.pSincOk = true → backendsFresh s →
    s.rs.blkcnt.toNat + xs.length ≤ s.rs.cap.toNat →
    s.rs.outq.length + xs.length / s.cfg.pD ≤ s.cfg.pQ →
      ∃ t, execAll (pushes xs) s = .next t ∧ t.status = s.status ∧ t.rs.ph = xs.length % s.cfg.pD ∧
        t.rs.outq = s.rs.outq ++
          packedPairs (sincY s.cfg (xs.map Prod.fst)) (sincY s.cfg (xs.map Prod.snd)) (sincCount s.cfg xs.length)

/-- R166: when the prototype coefficients sum to 32768, a constant input comes out unchanged from output P_T - 1 on. -/
def Obligations.SincUnityDcGain : Prop :=
  ∀ (c : Config) (x : Sample) (len n : Nat),
    c.legal = true → (c.pHp.map BitVec.toInt).sum = 32768 → c.pT - 1 ≤ n → (n + 1) * c.pD ≤ len →
      sincY c (List.replicate len x) n = x.toInt

/-- R171, R172: the cosine weights rise strictly from 0 to 32768 and mirror, COSW[i] + COSW[256 - i] = 32768; COS_INTERP
lies between its samples, is exact at both ends, fits a 32-bit signed intermediate, and rounds to nearest; with the
rule's example. -/
def Obligations.CosineInterpolatesBetween : Prop :=
  (cosw 0 = 0 ∧ cosw 128 = 16384 ∧ cosw 256 = 32768 ∧ (∀ i < 256, cosw i < cosw (i + 1)) ∧
    ∀ i ≤ 256, cosw i + cosw (256 - i) = 32768) ∧
  (∀ (a b : Sample) (i : Nat), i ≤ 256 →
    min a.toInt b.toInt ≤ cosInterp a.toInt b.toInt i ∧ cosInterp a.toInt b.toInt i ≤ max a.toInt b.toInt ∧
      ((b.toInt - a.toInt) * cosw i).natAbs ≤ 2147450880 ∧
      cosInterp a.toInt b.toInt 256 = b.toInt ∧ cosInterp a.toInt b.toInt 0 = a.toInt ∧
      32768 * (cosInterp a.toInt b.toInt i - a.toInt) ≤ (b.toInt - a.toInt) * cosw i + 16384 ∧
      (b.toInt - a.toInt) * cosw i + 16384 < 32768 * (cosInterp a.toInt b.toInt i - a.toInt + 1)) ∧
  cosInterp 1000 2000 128 = 1500

/-- R156, R170: one accepted push of the cosine backend. It makes one pair for each CR, CR + P_FI, … that is at most
P_FO; pairs beyond the depth of OUTQ are lost with OVF; CR and the previous samples advance all the same. -/
def Obligations.CosinePushStep : Prop :=
  ∀ (s : State) (l r : Sample), s.Inv → s.rs.blkcnt.toNat < s.rs.cap.toNat →
    ¬(s.rs.sel = .sinc ∧ s.cfg.pSincOk = true) →
      let cr := s.rs.cr.toNat
      let made := if cr ≤ s.cfg.pFo then (s.cfg.pFo - cr) / s.cfg.pFi + 1 else 0
      let index (j : Nat) : Nat := (cr + j * s.cfg.pFi) * 256 / s.cfg.pFo
      let pairs :=
        packedPairs (fun j => cosInterp s.rs.caL.toInt l.toInt (index j))
          (fun j => cosInterp s.rs.caR.toInt r.toInt (index j)) made
      ∃ t, exec (.rsPush l r) s = .next t ∧
        t.rs.outq = (s.rs.outq ++ pairs).take s.cfg.pQ ∧
        t.status = (if s.rs.outq.length + made ≤ s.cfg.pQ then s.status else s.status ||| 0x004) ∧
        (t.rs.cr.toNat : Int) = cr + made * s.cfg.pFi - s.cfg.pFo ∧ t.rs.caL = l ∧ t.rs.caR = r

/-- R173, R174: from freshly initialised backends, any number N of accepted pushes with room in OUTQ makes exactly
((N - 1) * P_FO) div P_FI + 1 pairs (none for N = 0), output j being the interpolation at input time j * P_FI / P_FO. -/
def Obligations.CosineStreamIsOnTime : Prop :=
  ∀ (s : State) (xs : List (Sample × Sample)),
    s.cfg.legal = true → ¬(s.rs.sel = .sinc ∧ s.cfg.pSincOk = true) → backendsFresh s →
    s.rs.blkcnt.toNat + xs.length ≤ s.rs.cap.toNat →
    s.rs.outq.length + cosCount s.cfg xs.length ≤ s.cfg.pQ →
      ∃ t, execAll (pushes xs) s = .next t ∧ t.status = s.status ∧
        t.rs.outq = s.rs.outq ++
          packedPairs (cosY s.cfg (xs.map Prod.fst)) (cosY s.cfg (xs.map Prod.snd)) (cosCount s.cfg xs.length)

/-- R165, R174: cutting a stream of accepted pushes into blocks with RS_MARK changes no output pair and no backend
state, with either backend: no drift across blocks. -/
def Obligations.BlocksDoNotShiftTheStream : Prop :=
  ∀ (s : State) (xs ys : List (Sample × Sample)),
    s.rs.blkcnt.toNat + xs.length + ys.length ≤ s.rs.cap.toNat →
      ∃ t u, execAll (pushes (xs ++ ys)) s = .next t ∧
        execAll (pushes xs ++ .rsMark :: pushes ys) s = .next u ∧
        u.status = t.status ∧ u.rs = { t.rs with blkcnt := BitVec.ofNat 32 ys.length }

/-- R154, R155: RS_POP returns and removes the oldest pair; on an empty OUTQ it returns 0 and raises UNDER; RS_MARK sets
RS_BLKCNT to 0; nothing else changes. -/
def Obligations.PopAndMark : Prop :=
  (∀ s : State, s.rs.outq = [] →
    exec .rsPop s = .next { s with status := s.status ||| 0x008, resps := s.resps ++ [0] }) ∧
  (∀ (s : State) (y : Word) (ys : List Word), s.rs.outq = y :: ys →
    exec .rsPop s = .next { s with rs := { s.rs with outq := ys }, resps := s.resps ++ [y] }) ∧
  (∀ s : State, exec .rsMark s = .next { s with rs := { s.rs with blkcnt := 0 }, resps := s.resps ++ [0] })

/-! ## Pacer -/

/-- R200, R201: the verdict of PC_CHECK, and what each verdict changes. -/
def Obligations.CheckGivesVerdict : Prop :=
  (∀ s : State, s.pc.frames.toNat < s.pc.samples.toNat / s.pc.spf.toNat →
    exec .pcCheck s =
      .next
        { s with
          pc :=
            { s.pc with
              frames := BitVec.ofNat 64 (s.pc.frames.toNat + s.pc.mult.toNat), lastDupe := true, run := false }
          resps := s.resps ++ [1] }) ∧
  (∀ s : State, s.pc.samples.toNat / s.pc.spf.toNat ≤ s.pc.frames.toNat →
    exec .pcCheck s =
      .next { s with pc := { s.pc with lastDupe := false, run := true }, resps := s.resps ++ [0] })

/-- R202: PC_ADD adds its count to SAMPLES modulo 2^64, in any phase. -/
def Obligations.AddCountsSamples : Prop :=
  ∀ (s : State) (n : Word),
    exec (.pcAdd n) s =
      .next
        { s with
          pc := { s.pc with samples := BitVec.ofNat 64 (s.pc.samples.toNat + n.toNat) }
          resps := s.resps ++ [0] }

/-- R203: PC_COMMIT adds PC_MULT to FRAMES and ends the run phase; with no run verdict outstanding it raises PROTO and
changes nothing else. -/
def Obligations.CommitAddsMultiplier : Prop :=
  (∀ s : State, s.pc.run = true →
    exec .pcCommit s =
      .next
        { s with
          pc := { s.pc with frames := BitVec.ofNat 64 (s.pc.frames.toNat + s.pc.mult.toNat), run := false }
          resps := s.resps ++ [0] }) ∧
  (∀ s : State, s.pc.run = false →
    exec .pcCommit s = .next { s with status := s.status ||| 0x020, resps := s.resps ++ [0] })

/-- R204: PC_CLEAR zeroes SAMPLES, FRAMES and PC_STAT, and keeps PC_SPF, PC_MULT and every other unit; the next
PC_CHECK returns 0. -/
def Obligations.ClearStartsSession : Prop :=
  ∀ s : State,
    ∃ t, exec .pcClear s = .next t ∧
      t = { s with
        pc := { s.pc with samples := 0, frames := 0, lastDupe := false, run := false }, resps := s.resps ++ [0] } ∧
      ∃ u, exec .pcCheck t = .next u ∧ u.resps = t.resps ++ [0]

/-- R206: after a state with SAMPLES = S and FRAMES = F, the next ceil((S div SPF - F) / MULT) verdicts are dupes, each
adding MULT to FRAMES, and the first after them is a run. The premise keeps FRAMES below 2^64
(93_implementation_defined.md section 2, counters past 2^64). -/
def Obligations.DupesUntilCaughtUp : Prop :=
  ∀ s : State, s.Inv →
    let due := s.pc.samples.toNat / s.pc.spf.toNat
    let f := s.pc.frames.toNat
    let m := s.pc.mult.toNat
    let dupes := (due - f + (m - 1)) / m
    due + m ≤ 2 ^ 64 →
      (∀ k ≤ dupes, ∃ t, execAll (List.replicate k .pcCheck) s = .next t ∧
        t.resps = s.resps ++ List.replicate k 1 ∧ t.pc.frames.toNat = f + k * m ∧ t.pc.samples = s.pc.samples) ∧
      ∃ t, execAll (List.replicate (dupes + 1) .pcCheck) s = .next t ∧
        t.resps = s.resps ++ List.replicate dupes 1 ++ [0] ∧ t.pc.run = true ∧ t.pc.frames.toNat = f + dupes * m

/-- R207: when PC_CHECK returns run, FRAMES is at least SAMPLES div SPF; when it returns dupe, FRAMES after it is below
SAMPLES div SPF + MULT. -/
def Obligations.VerdictBoundsFrames : Prop :=
  ∀ s t : State, exec .pcCheck s = .next t →
    (t.resps = s.resps ++ [0] → s.pc.samples.toNat / s.pc.spf.toNat ≤ t.pc.frames.toNat) ∧
    (t.resps = s.resps ++ [1] →
      t.pc.frames.toNat < s.pc.samples.toNat / s.pc.spf.toNat + s.pc.mult.toNat)

/-- R50, R51, R55: only PC_ADD, PC_CLEAR and RESET change SAMPLES; only PC_CHECK, PC_COMMIT, PC_CLEAR and RESET change
FRAMES; only PC_CHECK, PC_CLEAR and RESET change LAST_DUPE; and a command that changes no counter by its rule leaves
the whole pacer alone unless it writes PC_SPF or PC_MULT. -/
def Obligations.PacerStateChangesOnlyByItsCommands : Prop :=
  ∀ (i : Instr) (s t : State), exec i s = .next t →
    (t.pc.samples ≠ s.pc.samples → (∃ n, i = .pcAdd n) ∨ i = .pcClear ∨ i = .reset) ∧
    (t.pc.frames ≠ s.pc.frames → i = .pcCheck ∨ i = .pcCommit ∨ i = .pcClear ∨ i = .reset) ∧
    (t.pc.lastDupe ≠ s.pc.lastDupe → i = .pcCheck ∨ i = .pcClear ∨ i = .reset) ∧
    (t.pc.run ≠ s.pc.run → i = .pcCheck ∨ i = .pcCommit ∨ i = .pcClear ∨ i = .reset) ∧
    (t.pc.spf ≠ s.pc.spf → (∃ v, i = .wrreg 0x14 v) ∨ i = .reset) ∧
    (t.pc.mult ≠ s.pc.mult → (∃ v, i = .wrreg 0x15 v) ∨ i = .reset)

/-- Every tick adds exactly PC_MULT to FRAMES: by PC_CHECK itself on a dupe verdict, and on a run verdict by the
PC_COMMIT that ends the tick, which then raises no PROTO, whatever other commands stand between the two (R201, R203,
R205; 95_test_vectors.md S3). -/
def Obligations.EveryTickAddsMultiplier : Prop :=
  (∀ s t : State, exec .pcCheck s = .next t → t.resps = s.resps ++ [1] →
    t.pc.frames = s.pc.frames + s.pc.mult.zeroExtend 64 ∧ t.pc.run = false) ∧
  (∀ (s t u : State) (body : List Instr), exec .pcCheck s = .next t → t.resps = s.resps ++ [0] →
    (∀ i ∈ body, i ≠ .pcCheck ∧ i ≠ .pcCommit ∧ i ≠ .pcClear ∧ i ≠ .reset ∧ ∀ v, i ≠ .wrreg 0x15 v) →
    execAll body t = .next u →
      ∃ w, exec .pcCommit u = .next w ∧ w.pc.frames = s.pc.frames + s.pc.mult.zeroExtend 64 ∧
        w.pc.run = false ∧ w.status = u.status)

/-! ## Blender -/

/-- R235, R236: MIX is the per-channel average with halves up, X is 0, and on every input it agrees with the packed form
of each format; with the rule's examples. -/
def Obligations.MixAgreesWithPackedForm : Prop :=
  (∀ (f : PixFmt) (a b : Pixel) (ch : Chan),
    unpack f (mixPixel f a b) ch = (unpack f a ch + unpack f b ch + 1) / 2) ∧
  (∀ a b : Pixel, a.toNat < 2 ^ 16 → b.toNat < 2 ^ 16 →
    (mixPixel .rgb565 a b).toNat = (a.toNat + b.toNat + ((a ^^^ b) &&& 0x0821).toNat) / 2) ∧
  (∀ a b : Pixel,
    let a' := a &&& 0x00FFFFFF
    let b' := b &&& 0x00FFFFFF
    (mixPixel .xrgb8888 a b).toNat = (a'.toNat + b'.toNat + ((a' ^^^ b') &&& 0x010101).toNat) / 2) ∧
  mixPixel .rgb565 0xFFFF 0x0000 = 0x8410 ∧ mixPixel .rgb565 0x0001 0x0000 = 0x0001 ∧
  mixPixel .rgb565 0xF800 0x07E0 = 0x8400 ∧ mixPixel .rgb565 0x0841 0x0000 = 0x0821

/-- R238: LERP lies between v and h, so that a clamp to a range that holds both changes nothing; it rounds to nearest
with halves up, and is exact for v = h, w = 0 and w = 256; with the rule's examples. -/
def Obligations.LerpStaysBetween : Prop :=
  (∀ v h w : Int, 0 ≤ w → w ≤ 256 →
    min v h ≤ lerp v h w ∧ lerp v h w ≤ max v h ∧
      256 * (lerp v h w - v) ≤ (h - v) * w + 128 ∧ (h - v) * w + 128 < 256 * (lerp v h w - v + 1) ∧
      lerp v v w = v ∧ lerp v h 0 = v ∧ lerp v h 256 = h ∧
      ∀ m : Int, 0 ≤ v → v ≤ m → 0 ≤ h → h ≤ m → clamp (lerp v h w) 0 m = lerp v h w) ∧
  lerp 31 0 128 = 16 ∧ lerp 0 31 128 = 16 ∧ lerp 10 11 128 = 11 ∧ lerp 11 10 128 = 11

/-- R237, R238, R239: the two ghosting filters per channel: four chained interpolations, and one; the clamp changes
nothing, and X is 0. -/
def Obligations.GhostFiltersChainLerp : Prop :=
  (∀ (f : PixFmt) (b : Blender) (cur h1 h2 h3 h4 : Pixel),
    b.w1.toNat ≤ 0x100 → b.w2.toNat ≤ 0x100 → b.w3.toNat ≤ 0x100 → b.w4.toNat ≤ 0x100 →
      (∀ ch : Chan,
        (unpack f (ghostAcc f b cur h1 h2 h3 h4) ch : Int) =
          lerp
            (lerp (lerp (lerp (unpack f cur ch) (unpack f h1 ch) b.w1.toNat) (unpack f h2 ch) b.w2.toNat)
              (unpack f h3 ch) b.w3.toNat)
            (unpack f h4 ch) b.w4.toNat) ∧
      (f = .xrgb8888 → (ghostAcc f b cur h1 h2 h3 h4).toNat < 2 ^ 24)) ∧
  (∀ (c : Config) (cur h1 : Pixel), c.legal = true →
    (∀ ch : Chan,
      (unpack c.pPixFmt (ghostFast c cur h1) ch : Int) =
        lerp (unpack c.pPixFmt cur ch) (unpack c.pPixFmt h1 ch) c.pWf.toNat) ∧
    (c.pPixFmt = .xrgb8888 → (ghostFast c cur h1).toNat < 2 ^ 24))

/-- R234, and the geometry check of R233: BL_FRAME whose effective mode is none changes nothing; in another mode with
an invalid geometry it raises GEOM and changes nothing else. -/
def Obligations.FramePassesThroughOrRefusesGeometry : Prop :=
  ∀ s : State,
    let memories : Nat := match s.bl.mode with | .off => 0 | .mix => 1 | .ghostAccurate => 4 | .ghostFast => 1
    let w := s.bl.width.toNat
    let h := s.bl.height.toNat
    let pitch := s.bl.pitch.toNat
    (s.bl.mode = .off ∨ s.cfg.pHistAvail < memories →
      exec .blFrame s = .next { s with resps := s.resps ++ [0] }) ∧
    (s.bl.mode ≠ .off → memories ≤ s.cfg.pHistAvail →
      ¬(1 ≤ w ∧ 1 ≤ h ∧ w ≤ pitch ∧ (h - 1) * pitch + w ≤ s.cfg.pFbPixels) →
        exec .blFrame s = .next { s with status := s.status ||| 0x040, resps := s.resps ++ [0] })

/-- R65: when the geometry is valid, and that under a valid geometry every active pixel (x, y) has its own cell, at
y * PITCH + x (R84), below P_FB_PIXELS. -/
def Obligations.ValidGeometryKeepsCellsInside : Prop :=
  ∀ s : State,
    let w := s.bl.width.toNat
    let h := s.bl.height.toNat
    let pitch := s.bl.pitch.toNat
    (geomValid s = true ↔ 1 ≤ w ∧ 1 ≤ h ∧ w ≤ pitch ∧ (h - 1) * pitch + w ≤ s.cfg.pFbPixels) ∧
      (geomValid s = true →
        (∀ i, i ∈ activeCells s.bl ↔ ∃ x y, x < w ∧ y < h ∧ i = y * pitch + x) ∧
        (∀ i ∈ activeCells s.bl, i < s.cfg.pFbPixels) ∧ (activeCells s.bl).Nodup)

/-- R233 in mode mix: when every active FB cell has been written, BL_FRAME completes; each active FB cell becomes the
MIX of its pixel with H1's, H1 takes the pixel before blending, and every other cell of every memory is unchanged. -/
def Obligations.FrameInModeMix : Prop :=
  ∀ s : State, s.Inv → effMode s = .mix → geomValid s = true → frameWritten s →
    ∃ t, exec .blFrame s = .next t ∧ onlyMemoriesChange s t ∧
      cellsKept s t (fun sp i => i ∈ activeCells s.bl ∧ (sp = .fb ∨ sp = .h1)) ∧
      ∀ i ∈ activeCells s.bl, ∀ cur h1, memRead .fb i s = some cur → memRead .h1 i s = some h1 →
        memRead .fb i t = some (mixPixel s.cfg.pPixFmt cur h1) ∧ memRead .h1 i t = some cur

/-- R233 in mode ghosting-accurate: each active FB cell becomes the four-tap filter of its pixel and H1 .. H4, which
shift by one with the pixel before filtering in H1; every other cell is unchanged. -/
def Obligations.FrameInModeGhostAccurate : Prop :=
  ∀ s : State, s.Inv → effMode s = .ghostAccurate → geomValid s = true → frameWritten s →
    ∃ t, exec .blFrame s = .next t ∧ onlyMemoriesChange s t ∧ cellsKept s t (fun _ i => i ∈ activeCells s.bl) ∧
      ∀ i ∈ activeCells s.bl, ∀ cur h1 h2 h3 h4, memRead .fb i s = some cur → memRead .h1 i s = some h1 →
        memRead .h2 i s = some h2 → memRead .h3 i s = some h3 → memRead .h4 i s = some h4 →
        memRead .fb i t = some (ghostAcc s.cfg.pPixFmt s.bl cur h1 h2 h3 h4) ∧ memRead .h1 i t = some cur ∧
          memRead .h2 i t = some h1 ∧ memRead .h3 i t = some h2 ∧ memRead .h4 i t = some h3

/-- R233 in mode ghosting-fast: each active FB cell becomes the one-tap filter of its pixel and H1, which takes the
output; every other cell is unchanged. -/
def Obligations.FrameInModeGhostFast : Prop :=
  ∀ s : State, s.Inv → effMode s = .ghostFast → geomValid s = true → frameWritten s →
    ∃ t, exec .blFrame s = .next t ∧ onlyMemoriesChange s t ∧
      cellsKept s t (fun sp i => i ∈ activeCells s.bl ∧ (sp = .fb ∨ sp = .h1)) ∧
      ∀ i ∈ activeCells s.bl, ∀ cur h1, memRead .fb i s = some cur → memRead .h1 i s = some h1 →
        memRead .fb i t = some (ghostFast s.cfg cur h1) ∧ memRead .h1 i t = some (ghostFast s.cfg cur h1)

/-- R240: with a constant current channel value c and a stored value c + d, d > 0, the next stored value is c + d again
exactly when d * (256 - P_WF) <= 128; with P_WF = 256 the history never changes; a stored value below c moves toward c
when P_WF < 256 and its distance times (256 - P_WF) is at least 128. R246: with all weights 0 the accurate filter, and with
P_WF = 0 the fast one, outputs the current pixel unchanged, except X = 0. -/
def Obligations.GhostResidueAndZeroWeights : Prop :=
  (∀ c d w : Int, 0 ≤ w → w ≤ 256 → 0 < d → (lerp c (c + d) w = c + d ↔ d * (256 - w) ≤ 128)) ∧
  (∀ c h : Int, lerp c h 256 = h) ∧
  (∀ c d w : Int, 0 ≤ w → w < 256 → 0 < d → 128 ≤ d * (256 - w) →
    c - d < lerp c (c - d) w ∧ lerp c (c - d) w ≤ c) ∧
  (∀ (f : PixFmt) (b : Blender) (cur h1 h2 h3 h4 : Pixel),
    b.w1 = 0 → b.w2 = 0 → b.w3 = 0 → b.w4 = 0 → cur.toNat < 2 ^ cellWidth f →
      ghostAcc f b cur h1 h2 h3 h4 = match f with | .rgb565 => cur | .xrgb8888 => cur &&& 0x00FFFFFF) ∧
  (∀ (c : Config) (cur h1 : Pixel), c.pWf = 0 → cur.toNat < 2 ^ cellWidth c.pPixFmt →
    ghostFast c cur h1 = match c.pPixFmt with | .rgb565 => cur | .xrgb8888 => cur &&& 0x00FFFFFF)

/-- R244: if FB holds the same frame on two successive BL_FRAME in mode mix, the second output equals that frame (each
pixel with X = 0 where the format has an X). -/
def Obligations.MixOfRepeatedFrameIsTheFrame : Prop :=
  ∀ s t u v : State, s.Inv → effMode s = .mix → geomValid s = true →
    exec .blFrame s = .next t → u.Inv → u.cfg = t.cfg → u.bl = t.bl → u.mem.h1 = t.mem.h1 →
    (∀ i ∈ activeCells s.bl, memRead .fb i u = memRead .fb i s) →
    exec .blFrame u = .next v →
      ∀ i ∈ activeCells s.bl, ∀ p, memRead .fb i s = some p →
        memRead .fb i v = some (match s.cfg.pPixFmt with | .rgb565 => p | .xrgb8888 => p &&& 0x00FFFFFF)

/-- R241: FB_WR stores the pixel, as wide as the format, in one FB cell and changes nothing else; an index outside FB
raises RANGE and writes nothing. -/
def Obligations.FrameCellWrite : Prop :=
  ∀ (s : State) (i : BitVec 16) (d : Word),
    (s.cfg.pFbPixels ≤ i.toNat →
      exec (.fbWr i d) s = .next { s with status := s.status ||| 0x200, resps := s.resps ++ [0] }) ∧
    (i.toNat < s.cfg.pFbPixels →
      ∃ t, exec (.fbWr i d) s = .next t ∧ onlyMemoriesChange s t ∧
        cellsKept s t (fun sp k => sp = .fb ∧ k = i.toNat) ∧
        memRead .fb i.toNat t =
          some (BitVec.ofNat 32 (match s.cfg.pPixFmt with | .rgb565 => d.toNat % 2 ^ 16 | .xrgb8888 => d.toNat)))

/-- R242: FB_RD returns the cell and changes nothing; outside FB it raises RANGE and returns 0; and by the model's choice
(log entry 1) a cell never written since power-on is a fault. -/
def Obligations.FrameCellRead : Prop :=
  ∀ (s : State) (i : BitVec 16),
    (s.cfg.pFbPixels ≤ i.toNat →
      exec (.fbRd i) s = .next { s with status := s.status ||| 0x200, resps := s.resps ++ [0] }) ∧
    (i.toNat < s.cfg.pFbPixels → ∀ p, memRead .fb i.toNat s = some p →
      exec (.fbRd i) s = .next { s with resps := s.resps ++ [p] }) ∧
    (i.toNat < s.cfg.pFbPixels → memRead .fb i.toNat s = none →
      exec (.fbRd i) s = .fault (.fbCellUnwritten i.toNat))

/-- R243: HIST_RD returns the cell of a present history memory and changes nothing; another memory number or an index
outside it raises RANGE and returns 0. -/
def Obligations.HistoryCellRead : Prop :=
  ∀ (s : State) (j : BitVec 8) (i : BitVec 16), s.cfg.legal = true →
    (j.toNat < 1 ∨ s.cfg.pHistAvail < j.toNat ∨ s.cfg.pFbPixels ≤ i.toNat →
      exec (.histRd j i) s = .next { s with status := s.status ||| 0x200, resps := s.resps ++ [0] }) ∧
    (1 ≤ j.toNat → j.toNat ≤ s.cfg.pHistAvail → i.toNat < s.cfg.pFbPixels →
      ∃ p, memRead ([Space.h1, .h2, .h3, .h4].getD (j.toNat - 1) .h4) i.toNat s = some p ∧
        exec (.histRd j i) s = .next { s with resps := s.resps ++ [p] })

/-- R82, R83: an FB cell is changed by FB_WR and BL_FRAME only; a history cell by BL_FRAME, by HIST_CLEAR (a WRREG of
BL_CTRL or of a geometry register) and by RESET only. -/
def Obligations.CellsChangeOnlyByTheirCommands : Prop :=
  ∀ (i : Instr) (s t : State), exec i s = .next t →
    (∀ x, memRead .fb x t ≠ memRead .fb x s → (∃ a p, i = .fbWr a p) ∨ i = .blFrame) ∧
    (∀ sp x, sp ≠ .fb → memRead sp x t ≠ memRead sp x s →
      i = .blFrame ∨ i = .reset ∨ ∃ (n : BitVec 8) (v : Word), i = .wrreg n v ∧ n ∈ [0x20, 0x27, 0x28, 0x29])

/-! ## Host duties -/

/-- R305 to R309: a command sent in keeping with `State.dutiful` completes and changes no STATUS bit (a WRREG and a RESET
apart, whose STATUS effects their own rules give). `State.dutiful` asks more than the duties of those rules: room under
the cap before a push, a valid geometry before a filtering BL_FRAME, cell indexes and history memory numbers in range and
an assigned register number are the model's own premises (log entry 13). -/
def Obligations.DutifulCommandsRaiseNothing : Prop :=
  ∀ (i : Instr) (s : State), s.Inv → s.dutiful i → (∀ n v, i ≠ .wrreg n v) → i ≠ .reset →
    ∃ t, exec i s = .next t ∧ t.status = s.status
end

