-- ==== Sys2Proof/Laws/State.lean ====
section
/-! SUPPORT. What each shared operation leaves alone, one lemma per field, so that no later proof unfolds a record
update. -/

namespace Sys2Proof.Machine

/-! ## Ending a command, raising an error -/

@[simp] theorem respond_cfg (s : State) (v : Word) : (s.respond v).cfg = s.cfg := rfl
@[simp] theorem respond_status (s : State) (v : Word) : (s.respond v).status = s.status := rfl
@[simp] theorem respond_rs (s : State) (v : Word) : (s.respond v).rs = s.rs := rfl
@[simp] theorem respond_pc (s : State) (v : Word) : (s.respond v).pc = s.pc := rfl
@[simp] theorem respond_bl (s : State) (v : Word) : (s.respond v).bl = s.bl := rfl
@[simp] theorem respond_mem (s : State) (v : Word) : (s.respond v).mem = s.mem := rfl
@[simp] theorem respond_cmds (s : State) (v : Word) : (s.respond v).cmds = s.cmds := rfl
@[simp] theorem respond_resps (s : State) (v : Word) : (s.respond v).resps = s.resps ++ [v] := rfl
@[simp] theorem respond_flag (s : State) (v : Word) (e : Err) : (s.respond v).flag e = s.flag e := rfl
@[simp] theorem respond_memory (s : State) (v : Word) (sp : Space) :
    (s.respond v).memory sp = s.memory sp := by cases sp <;> rfl

@[simp] theorem raise_cfg (s : State) (e : Err) : (s.raise e).cfg = s.cfg := rfl
@[simp] theorem raise_rs (s : State) (e : Err) : (s.raise e).rs = s.rs := rfl
@[simp] theorem raise_pc (s : State) (e : Err) : (s.raise e).pc = s.pc := rfl
@[simp] theorem raise_bl (s : State) (e : Err) : (s.raise e).bl = s.bl := rfl
@[simp] theorem raise_mem (s : State) (e : Err) : (s.raise e).mem = s.mem := rfl
@[simp] theorem raise_cmds (s : State) (e : Err) : (s.raise e).cmds = s.cmds := rfl
@[simp] theorem raise_resps (s : State) (e : Err) : (s.raise e).resps = s.resps := rfl
@[simp] theorem raise_memory (s : State) (e : Err) (sp : Space) :
    (s.raise e).memory sp = s.memory sp := by cases sp <;> rfl

@[simp] theorem clearStatus_cfg (s : State) (v : Word) : (s.clearStatus v).cfg = s.cfg := rfl
@[simp] theorem clearStatus_rs (s : State) (v : Word) : (s.clearStatus v).rs = s.rs := rfl
@[simp] theorem clearStatus_pc (s : State) (v : Word) : (s.clearStatus v).pc = s.pc := rfl
@[simp] theorem clearStatus_bl (s : State) (v : Word) : (s.clearStatus v).bl = s.bl := rfl
@[simp] theorem clearStatus_mem (s : State) (v : Word) : (s.clearStatus v).mem = s.mem := rfl
@[simp] theorem clearStatus_cmds (s : State) (v : Word) : (s.clearStatus v).cmds = s.cmds := rfl
@[simp] theorem clearStatus_resps (s : State) (v : Word) : (s.clearStatus v).resps = s.resps := rfl
@[simp] theorem clearStatus_memory (s : State) (v : Word) (sp : Space) :
    (s.clearStatus v).memory sp = s.memory sp := by cases sp <;> rfl

/-! ## Cell memories -/

@[simp] theorem setMemory_cfg (s : State) (sp : Space) (m : Memory) :
    (s.setMemory sp m).cfg = s.cfg := by cases sp <;> rfl
@[simp] theorem setMemory_status (s : State) (sp : Space) (m : Memory) :
    (s.setMemory sp m).status = s.status := by cases sp <;> rfl
@[simp] theorem setMemory_rs (s : State) (sp : Space) (m : Memory) :
    (s.setMemory sp m).rs = s.rs := by cases sp <;> rfl
@[simp] theorem setMemory_pc (s : State) (sp : Space) (m : Memory) :
    (s.setMemory sp m).pc = s.pc := by cases sp <;> rfl
@[simp] theorem setMemory_bl (s : State) (sp : Space) (m : Memory) :
    (s.setMemory sp m).bl = s.bl := by cases sp <;> rfl
@[simp] theorem setMemory_cmds (s : State) (sp : Space) (m : Memory) :
    (s.setMemory sp m).cmds = s.cmds := by cases sp <;> rfl
@[simp] theorem setMemory_resps (s : State) (sp : Space) (m : Memory) :
    (s.setMemory sp m).resps = s.resps := by cases sp <;> rfl
@[simp] theorem setMemory_memory_same (s : State) (sp : Space) (m : Memory) :
    (s.setMemory sp m).memory sp = m := by cases sp <;> rfl

theorem setMemory_memory_ne (s : State) {sp sp' : Space} (m : Memory) (h : sp' ≠ sp) :
    (s.setMemory sp m).memory sp' = s.memory sp' := by cases sp <;> cases sp' <;> first | rfl | exact absurd rfl h

@[simp] theorem memWrite_cfg (sp : Space) (i : Nat) (p : Word) (s : State) :
    (memWrite sp i p s).cfg = s.cfg := by simp [memWrite]
@[simp] theorem memWrite_status (sp : Space) (i : Nat) (p : Word) (s : State) :
    (memWrite sp i p s).status = s.status := by simp [memWrite]
@[simp] theorem memWrite_rs (sp : Space) (i : Nat) (p : Word) (s : State) :
    (memWrite sp i p s).rs = s.rs := by simp [memWrite]
@[simp] theorem memWrite_pc (sp : Space) (i : Nat) (p : Word) (s : State) :
    (memWrite sp i p s).pc = s.pc := by simp [memWrite]
@[simp] theorem memWrite_bl (sp : Space) (i : Nat) (p : Word) (s : State) :
    (memWrite sp i p s).bl = s.bl := by simp [memWrite]
@[simp] theorem memWrite_cmds (sp : Space) (i : Nat) (p : Word) (s : State) :
    (memWrite sp i p s).cmds = s.cmds := by simp [memWrite]
@[simp] theorem memWrite_resps (sp : Space) (i : Nat) (p : Word) (s : State) :
    (memWrite sp i p s).resps = s.resps := by simp [memWrite]

@[simp] theorem histClear_cfg (s : State) : (histClear s).cfg = s.cfg := rfl
@[simp] theorem histClear_status (s : State) : (histClear s).status = s.status := rfl
@[simp] theorem histClear_rs (s : State) : (histClear s).rs = s.rs := rfl
@[simp] theorem histClear_pc (s : State) : (histClear s).pc = s.pc := rfl
@[simp] theorem histClear_bl (s : State) : (histClear s).bl = s.bl := rfl
@[simp] theorem histClear_cmds (s : State) : (histClear s).cmds = s.cmds := rfl
@[simp] theorem histClear_resps (s : State) : (histClear s).resps = s.resps := rfl
@[simp] theorem histClear_fb (s : State) : (histClear s).mem.fb = s.mem.fb := rfl

/-! ## The resampler -/

@[simp] theorem rsInit_cfg (s : State) : (rsInit s).cfg = s.cfg := rfl
@[simp] theorem rsInit_status (s : State) : (rsInit s).status = s.status := rfl
@[simp] theorem rsInit_pc (s : State) : (rsInit s).pc = s.pc := rfl
@[simp] theorem rsInit_bl (s : State) : (rsInit s).bl = s.bl := rfl
@[simp] theorem rsInit_mem (s : State) : (rsInit s).mem = s.mem := rfl
@[simp] theorem rsInit_cmds (s : State) : (rsInit s).cmds = s.cmds := rfl
@[simp] theorem rsInit_resps (s : State) : (rsInit s).resps = s.resps := rfl
@[simp] theorem rsInit_rs_sel (s : State) : (rsInit s).rs.sel = s.rs.sel := rfl
@[simp] theorem rsInit_rs_outq (s : State) : (rsInit s).rs.outq = s.rs.outq := rfl
@[simp] theorem rsInit_rs_cap (s : State) : (rsInit s).rs.cap = s.rs.cap := rfl
@[simp] theorem rsInit_rs_blkcnt (s : State) : (rsInit s).rs.blkcnt = s.rs.blkcnt := rfl
@[simp] theorem rsInit_rs_dropcnt (s : State) : (rsInit s).rs.dropcnt = s.rs.dropcnt := rfl

@[simp] theorem emit_cfg (yl yr : Int) (s : State) : (emit yl yr s).cfg = s.cfg := by unfold emit; split <;> rfl
@[simp] theorem emit_pc (yl yr : Int) (s : State) : (emit yl yr s).pc = s.pc := by unfold emit; split <;> rfl
@[simp] theorem emit_bl (yl yr : Int) (s : State) : (emit yl yr s).bl = s.bl := by unfold emit; split <;> rfl
@[simp] theorem emit_mem (yl yr : Int) (s : State) : (emit yl yr s).mem = s.mem := by unfold emit; split <;> rfl
@[simp] theorem emit_cmds (yl yr : Int) (s : State) : (emit yl yr s).cmds = s.cmds := by unfold emit; split <;> rfl
@[simp] theorem emit_resps (yl yr : Int) (s : State) : (emit yl yr s).resps = s.resps := by unfold emit; split <;> rfl
@[simp] theorem emit_rs_sel (yl yr : Int) (s : State) :
    (emit yl yr s).rs.sel = s.rs.sel := by unfold emit; split <;> rfl
@[simp] theorem emit_rs_cap (yl yr : Int) (s : State) :
    (emit yl yr s).rs.cap = s.rs.cap := by unfold emit; split <;> rfl
@[simp] theorem emit_rs_blkcnt (yl yr : Int) (s : State) :
    (emit yl yr s).rs.blkcnt = s.rs.blkcnt := by unfold emit; split <;> rfl
@[simp] theorem emit_rs_dropcnt (yl yr : Int) (s : State) :
    (emit yl yr s).rs.dropcnt = s.rs.dropcnt := by unfold emit; split <;> rfl
@[simp] theorem emit_rs_saccL (yl yr : Int) (s : State) :
    (emit yl yr s).rs.saccL = s.rs.saccL := by unfold emit; split <;> rfl
@[simp] theorem emit_rs_saccR (yl yr : Int) (s : State) :
    (emit yl yr s).rs.saccR = s.rs.saccR := by unfold emit; split <;> rfl
@[simp] theorem emit_rs_ph (yl yr : Int) (s : State) : (emit yl yr s).rs.ph = s.rs.ph := by unfold emit; split <;> rfl
@[simp] theorem emit_rs_caL (yl yr : Int) (s : State) :
    (emit yl yr s).rs.caL = s.rs.caL := by unfold emit; split <;> rfl
@[simp] theorem emit_rs_caR (yl yr : Int) (s : State) :
    (emit yl yr s).rs.caR = s.rs.caR := by unfold emit; split <;> rfl
@[simp] theorem emit_rs_cr (yl yr : Int) (s : State) : (emit yl yr s).rs.cr = s.rs.cr := by unfold emit; split <;> rfl

@[simp] theorem sincStep_cfg (l r : Sample) (s : State) :
    (sincStep l r s).cfg = s.cfg := by unfold sincStep; dsimp only; split <;> simp
@[simp] theorem sincStep_pc (l r : Sample) (s : State) :
    (sincStep l r s).pc = s.pc := by unfold sincStep; dsimp only; split <;> simp
@[simp] theorem sincStep_bl (l r : Sample) (s : State) :
    (sincStep l r s).bl = s.bl := by unfold sincStep; dsimp only; split <;> simp
@[simp] theorem sincStep_mem (l r : Sample) (s : State) :
    (sincStep l r s).mem = s.mem := by unfold sincStep; dsimp only; split <;> simp
@[simp] theorem sincStep_cmds (l r : Sample) (s : State) :
    (sincStep l r s).cmds = s.cmds := by unfold sincStep; dsimp only; split <;> simp
@[simp] theorem sincStep_resps (l r : Sample) (s : State) :
    (sincStep l r s).resps = s.resps := by unfold sincStep; dsimp only; split <;> simp
@[simp] theorem sincStep_rs_sel (l r : Sample) (s : State) :
    (sincStep l r s).rs.sel = s.rs.sel := by unfold sincStep; dsimp only; split <;> simp
@[simp] theorem sincStep_rs_cap (l r : Sample) (s : State) :
    (sincStep l r s).rs.cap = s.rs.cap := by unfold sincStep; dsimp only; split <;> simp
@[simp] theorem sincStep_rs_blkcnt (l r : Sample) (s : State) :
    (sincStep l r s).rs.blkcnt = s.rs.blkcnt := by unfold sincStep; dsimp only; split <;> simp
@[simp] theorem sincStep_rs_dropcnt (l r : Sample) (s : State) :
    (sincStep l r s).rs.dropcnt = s.rs.dropcnt := by unfold sincStep; dsimp only; split <;> simp
@[simp] theorem sincStep_rs_caL (l r : Sample) (s : State) :
    (sincStep l r s).rs.caL = s.rs.caL := by unfold sincStep; dsimp only; split <;> simp
@[simp] theorem sincStep_rs_caR (l r : Sample) (s : State) :
    (sincStep l r s).rs.caR = s.rs.caR := by unfold sincStep; dsimp only; split <;> simp
@[simp] theorem sincStep_rs_cr (l r : Sample) (s : State) :
    (sincStep l r s).rs.cr = s.rs.cr := by unfold sincStep; dsimp only; split <;> simp

/-- What every turn of the cosine loop keeps, said once. -/
theorem cosLoop_frame (l r : Sample) (n : Nat) (s : State) :
    ∃ st q c, cosLoop l r n s = { s with status := st, rs := { s.rs with outq := q, cr := c } } := by
  induction n generalizing s with
  | zero => exact ⟨s.status, s.rs.outq, s.rs.cr, rfl⟩
  | succ n ih =>
    unfold cosLoop
    split
    · refine (ih _).imp fun st h => h.imp fun q h => h.imp fun c h => h.trans ?_
      unfold emit
      split <;> rfl
    · exact ⟨s.status, s.rs.outq, s.rs.cr, rfl⟩

@[simp] theorem cosLoop_cfg (l r : Sample) (n : Nat) (s : State) :
    (cosLoop l r n s).cfg = s.cfg := by obtain ⟨_, _, _, h⟩ := cosLoop_frame l r n s; rw [h]
@[simp] theorem cosLoop_pc (l r : Sample) (n : Nat) (s : State) :
    (cosLoop l r n s).pc = s.pc := by obtain ⟨_, _, _, h⟩ := cosLoop_frame l r n s; rw [h]
@[simp] theorem cosLoop_bl (l r : Sample) (n : Nat) (s : State) :
    (cosLoop l r n s).bl = s.bl := by obtain ⟨_, _, _, h⟩ := cosLoop_frame l r n s; rw [h]
@[simp] theorem cosLoop_mem (l r : Sample) (n : Nat) (s : State) :
    (cosLoop l r n s).mem = s.mem := by obtain ⟨_, _, _, h⟩ := cosLoop_frame l r n s; rw [h]
@[simp] theorem cosLoop_cmds (l r : Sample) (n : Nat) (s : State) :
    (cosLoop l r n s).cmds = s.cmds := by obtain ⟨_, _, _, h⟩ := cosLoop_frame l r n s; rw [h]
@[simp] theorem cosLoop_resps (l r : Sample) (n : Nat) (s : State) :
    (cosLoop l r n s).resps = s.resps := by obtain ⟨_, _, _, h⟩ := cosLoop_frame l r n s; rw [h]
@[simp] theorem cosLoop_rs_sel (l r : Sample) (n : Nat) (s : State) :
    (cosLoop l r n s).rs.sel = s.rs.sel := by obtain ⟨_, _, _, h⟩ := cosLoop_frame l r n s; rw [h]
@[simp] theorem cosLoop_rs_cap (l r : Sample) (n : Nat) (s : State) :
    (cosLoop l r n s).rs.cap = s.rs.cap := by obtain ⟨_, _, _, h⟩ := cosLoop_frame l r n s; rw [h]
@[simp] theorem cosLoop_rs_blkcnt (l r : Sample) (n : Nat) (s : State) :
    (cosLoop l r n s).rs.blkcnt = s.rs.blkcnt := by obtain ⟨_, _, _, h⟩ := cosLoop_frame l r n s; rw [h]
@[simp] theorem cosLoop_rs_dropcnt (l r : Sample) (n : Nat) (s : State) :
    (cosLoop l r n s).rs.dropcnt = s.rs.dropcnt := by obtain ⟨_, _, _, h⟩ := cosLoop_frame l r n s; rw [h]
@[simp] theorem cosLoop_rs_saccL (l r : Sample) (n : Nat) (s : State) :
    (cosLoop l r n s).rs.saccL = s.rs.saccL := by obtain ⟨_, _, _, h⟩ := cosLoop_frame l r n s; rw [h]
@[simp] theorem cosLoop_rs_saccR (l r : Sample) (n : Nat) (s : State) :
    (cosLoop l r n s).rs.saccR = s.rs.saccR := by obtain ⟨_, _, _, h⟩ := cosLoop_frame l r n s; rw [h]
@[simp] theorem cosLoop_rs_ph (l r : Sample) (n : Nat) (s : State) :
    (cosLoop l r n s).rs.ph = s.rs.ph := by obtain ⟨_, _, _, h⟩ := cosLoop_frame l r n s; rw [h]
@[simp] theorem cosLoop_rs_caL (l r : Sample) (n : Nat) (s : State) :
    (cosLoop l r n s).rs.caL = s.rs.caL := by obtain ⟨_, _, _, h⟩ := cosLoop_frame l r n s; rw [h]
@[simp] theorem cosLoop_rs_caR (l r : Sample) (n : Nat) (s : State) :
    (cosLoop l r n s).rs.caR = s.rs.caR := by obtain ⟨_, _, _, h⟩ := cosLoop_frame l r n s; rw [h]

@[simp] theorem cosStep_cfg (l r : Sample) (s : State) : (cosStep l r s).cfg = s.cfg := by simp [cosStep]
@[simp] theorem cosStep_pc (l r : Sample) (s : State) : (cosStep l r s).pc = s.pc := by simp [cosStep]
@[simp] theorem cosStep_bl (l r : Sample) (s : State) : (cosStep l r s).bl = s.bl := by simp [cosStep]
@[simp] theorem cosStep_mem (l r : Sample) (s : State) : (cosStep l r s).mem = s.mem := by simp [cosStep]
@[simp] theorem cosStep_cmds (l r : Sample) (s : State) : (cosStep l r s).cmds = s.cmds := by simp [cosStep]
@[simp] theorem cosStep_resps (l r : Sample) (s : State) : (cosStep l r s).resps = s.resps := by simp [cosStep]
@[simp] theorem cosStep_rs_sel (l r : Sample) (s : State) : (cosStep l r s).rs.sel = s.rs.sel := by simp [cosStep]
@[simp] theorem cosStep_rs_cap (l r : Sample) (s : State) : (cosStep l r s).rs.cap = s.rs.cap := by simp [cosStep]
@[simp] theorem cosStep_rs_blkcnt (l r : Sample) (s : State) :
    (cosStep l r s).rs.blkcnt = s.rs.blkcnt := by simp [cosStep]
@[simp] theorem cosStep_rs_dropcnt (l r : Sample) (s : State) :
    (cosStep l r s).rs.dropcnt = s.rs.dropcnt := by simp [cosStep]
@[simp] theorem cosStep_rs_saccL (l r : Sample) (s : State) :
    (cosStep l r s).rs.saccL = s.rs.saccL := by simp [cosStep]
@[simp] theorem cosStep_rs_saccR (l r : Sample) (s : State) :
    (cosStep l r s).rs.saccR = s.rs.saccR := by simp [cosStep]
@[simp] theorem cosStep_rs_ph (l r : Sample) (s : State) : (cosStep l r s).rs.ph = s.rs.ph := by simp [cosStep]
@[simp] theorem cosStep_rs_caL (l r : Sample) (s : State) : (cosStep l r s).rs.caL = l := rfl
@[simp] theorem cosStep_rs_caR (l r : Sample) (s : State) : (cosStep l r s).rs.caR = r := rfl

@[simp] theorem backendStep_cfg (l r : Sample) (s : State) :
    (backendStep l r s).cfg = s.cfg := by unfold backendStep; split <;> simp
@[simp] theorem backendStep_pc (l r : Sample) (s : State) :
    (backendStep l r s).pc = s.pc := by unfold backendStep; split <;> simp
@[simp] theorem backendStep_bl (l r : Sample) (s : State) :
    (backendStep l r s).bl = s.bl := by unfold backendStep; split <;> simp
@[simp] theorem backendStep_mem (l r : Sample) (s : State) :
    (backendStep l r s).mem = s.mem := by unfold backendStep; split <;> simp
@[simp] theorem backendStep_cmds (l r : Sample) (s : State) :
    (backendStep l r s).cmds = s.cmds := by unfold backendStep; split <;> simp
@[simp] theorem backendStep_resps (l r : Sample) (s : State) :
    (backendStep l r s).resps = s.resps := by unfold backendStep; split <;> simp
@[simp] theorem backendStep_rs_sel (l r : Sample) (s : State) :
    (backendStep l r s).rs.sel = s.rs.sel := by unfold backendStep; split <;> simp
@[simp] theorem backendStep_rs_cap (l r : Sample) (s : State) :
    (backendStep l r s).rs.cap = s.rs.cap := by unfold backendStep; split <;> simp
@[simp] theorem backendStep_rs_blkcnt (l r : Sample) (s : State) :
    (backendStep l r s).rs.blkcnt = s.rs.blkcnt := by unfold backendStep; split <;> simp
@[simp] theorem backendStep_rs_dropcnt (l r : Sample) (s : State) :
    (backendStep l r s).rs.dropcnt = s.rs.dropcnt := by unfold backendStep; split <;> simp

@[simp] theorem dropPair_cfg (s : State) : (dropPair s).cfg = s.cfg := rfl
@[simp] theorem dropPair_pc (s : State) : (dropPair s).pc = s.pc := rfl
@[simp] theorem dropPair_bl (s : State) : (dropPair s).bl = s.bl := rfl
@[simp] theorem dropPair_mem (s : State) : (dropPair s).mem = s.mem := rfl
@[simp] theorem dropPair_cmds (s : State) : (dropPair s).cmds = s.cmds := rfl
@[simp] theorem dropPair_resps (s : State) : (dropPair s).resps = s.resps := rfl
@[simp] theorem dropPair_rs_sel (s : State) : (dropPair s).rs.sel = s.rs.sel := rfl
@[simp] theorem dropPair_rs_outq (s : State) : (dropPair s).rs.outq = s.rs.outq := rfl
@[simp] theorem dropPair_rs_cap (s : State) : (dropPair s).rs.cap = s.rs.cap := rfl
@[simp] theorem dropPair_rs_blkcnt (s : State) : (dropPair s).rs.blkcnt = s.rs.blkcnt := rfl
@[simp] theorem dropPair_rs_saccL (s : State) : (dropPair s).rs.saccL = s.rs.saccL := rfl
@[simp] theorem dropPair_rs_saccR (s : State) : (dropPair s).rs.saccR = s.rs.saccR := rfl
@[simp] theorem dropPair_rs_ph (s : State) : (dropPair s).rs.ph = s.rs.ph := rfl
@[simp] theorem dropPair_rs_caL (s : State) : (dropPair s).rs.caL = s.rs.caL := rfl
@[simp] theorem dropPair_rs_caR (s : State) : (dropPair s).rs.caR = s.rs.caR := rfl
@[simp] theorem dropPair_rs_cr (s : State) : (dropPair s).rs.cr = s.rs.cr := rfl

/-! ## The blender -/

@[simp] theorem filterCell_cfg (m : BlendKind) (i : Nat) (cur : Pixel) (s : State) :
    (filterCell m i cur s).2.cfg = s.cfg := by cases m <;> simp [filterCell]
@[simp] theorem filterCell_status (m : BlendKind) (i : Nat) (cur : Pixel) (s : State) :
    (filterCell m i cur s).2.status = s.status := by cases m <;> simp [filterCell]
@[simp] theorem filterCell_rs (m : BlendKind) (i : Nat) (cur : Pixel) (s : State) :
    (filterCell m i cur s).2.rs = s.rs := by cases m <;> simp [filterCell]
@[simp] theorem filterCell_pc (m : BlendKind) (i : Nat) (cur : Pixel) (s : State) :
    (filterCell m i cur s).2.pc = s.pc := by cases m <;> simp [filterCell]
@[simp] theorem filterCell_bl (m : BlendKind) (i : Nat) (cur : Pixel) (s : State) :
    (filterCell m i cur s).2.bl = s.bl := by cases m <;> simp [filterCell]
@[simp] theorem filterCell_cmds (m : BlendKind) (i : Nat) (cur : Pixel) (s : State) :
    (filterCell m i cur s).2.cmds = s.cmds := by cases m <;> simp [filterCell]
@[simp] theorem filterCell_resps (m : BlendKind) (i : Nat) (cur : Pixel) (s : State) :
    (filterCell m i cur s).2.resps = s.resps := by cases m <;> simp [filterCell]

/-! ## RESET -/

@[simp] theorem resetBlock_cfg (s : State) : (resetBlock s).cfg = s.cfg := rfl
@[simp] theorem resetBlock_cmds (s : State) : (resetBlock s).cmds = s.cmds := rfl
@[simp] theorem resetBlock_resps (s : State) : (resetBlock s).resps = s.resps := rfl
@[simp] theorem resetBlock_fb (s : State) : (resetBlock s).mem.fb = s.mem.fb := rfl
@[simp] theorem resetBlock_pc (s : State) : (resetBlock s).pc = (State.powerOn s.cfg).pc := rfl
@[simp] theorem resetBlock_bl (s : State) : (resetBlock s).bl = (State.powerOn s.cfg).bl := rfl
@[simp] theorem resetBlock_rs (s : State) : (resetBlock s).rs = (State.powerOn s.cfg).rs := rfl
@[simp] theorem resetBlock_status (s : State) : (resetBlock s).status = statusAtReset s.cfg := rfl

end Sys2Proof.Machine
end

