-- ==== Sys2Proof/Laws/Memory.lean ====
section
/-! SUPPORT. The cell memories: a read after a write, a write elsewhere, and that every memory operation keeps the
canonical form. -/

namespace Sys2Proof.Machine

/-! ## Looking up -/

@[simp] theorem memLookup_memInsert_same (m : Memory) (i : Nat) (v : Pixel) :
    memLookup (memInsert m i v) i = some v := by
  induction m with
  | nil => simp [memInsert, memLookup]
  | cons cell m ih =>
    obtain ⟨a, w⟩ := cell
    unfold memInsert
    split
    · simp [memLookup]
    · split
      · simp [memLookup]
      · next h1 h2 => simp [memLookup, ih, Ne.symm h2]

theorem memLookup_memInsert_ne (m : Memory) {i j : Nat} (v : Pixel) (h : j ≠ i) :
    memLookup (memInsert m i v) j = memLookup m j := by
  induction m with
  | nil => simp [memInsert, memLookup, Ne.symm h]
  | cons cell m ih =>
    obtain ⟨a, w⟩ := cell
    unfold memInsert
    split
    · simp [memLookup, Ne.symm h]
    · split
      · next h2 => subst h2; simp [memLookup, Ne.symm h]
      · simp [memLookup, ih]

theorem memLookup_memErase_ne (m : Memory) {i j : Nat} (h : j ≠ i) : memLookup (memErase m i) j = memLookup m j := by
  induction m with
  | nil => rfl
  | cons cell m ih =>
    obtain ⟨a, w⟩ := cell
    unfold memErase
    split
    · next h2 => subst h2; simp [memLookup, Ne.symm h]
    · simp [memLookup, ih]

/-- Every index of the list is at least `lo`, and they rise: the form `Memory.rising` gives a tail. -/
theorem rising_cons {a : Nat} {w : Pixel} {m : Memory} :
    Memory.rising ((a, w) :: m) = true ↔ Memory.rising m = true ∧ ∀ c ∈ m, a < c.1 := by
  induction m generalizing a w with
  | nil => simp [Memory.rising]
  | cons c m ih =>
    obtain ⟨b, v⟩ := c
    constructor
    · intro h
      simp only [Memory.rising, Bool.and_eq_true, decide_eq_true_eq] at h
      refine ⟨h.2, ?_⟩
      intro c hc
      rcases List.mem_cons.1 hc with rfl | hc
      · exact h.1
      · exact Nat.lt_trans h.1 ((ih.1 h.2).2 c hc)
    · intro ⟨h, hlt⟩
      simp only [Memory.rising, Bool.and_eq_true, decide_eq_true_eq]
      exact ⟨hlt (b, v) (by simp), h⟩

theorem memLookup_eq_none_of_lt (m : Memory) (i : Nat) (h : ∀ c ∈ m, i < c.1) : memLookup m i = none := by
  induction m with
  | nil => rfl
  | cons c m ih =>
    have h1 := h c (by simp)
    rw [memLookup, if_neg (by omega), ih fun c hc => h c (by simp [hc])]

/-- In a canonical list an erased cell is listed nowhere. -/
theorem memLookup_memErase_same (m : Memory) (i : Nat) (h : m.rising = true) : memLookup (memErase m i) i = none := by
  induction m with
  | nil => rfl
  | cons c m ih =>
    obtain ⟨a, w⟩ := c
    have hr := rising_cons.1 h
    unfold memErase
    split
    · next h2 => subst h2; exact memLookup_eq_none_of_lt m a hr.2
    · next h2 => rw [memLookup, if_neg h2, ih hr.1]

theorem memLookup_mem {m : Memory} {i : Nat} {v : Pixel} (h : memLookup m i = some v) : (i, v) ∈ m := by
  induction m with
  | nil => simp [memLookup] at h
  | cons c m ih =>
    obtain ⟨a, w⟩ := c
    unfold memLookup at h
    split at h
    · next h2 => simp at h; simp [h2, h]
    · exact List.mem_cons_of_mem _ (ih h)

/-! ## What is listed after a write -/

theorem mem_memInsert {m : Memory} {i : Nat} {v : Pixel} {c : Nat × Pixel} (h : c ∈ memInsert m i v) :
    c = (i, v) ∨ c ∈ m := by
  induction m with
  | nil => simpa [memInsert] using h
  | cons d m ih =>
    obtain ⟨a, w⟩ := d
    unfold memInsert at h
    split at h
    · simpa using h
    · split at h
      · rcases List.mem_cons.1 h with h | h
        · exact .inl h
        · exact .inr (by simp [h])
      · rcases List.mem_cons.1 h with h | h
        · exact .inr (by simp [h])
        · exact (ih h).imp id fun h => by simp [h]

theorem mem_memErase {m : Memory} {i : Nat} {c : Nat × Pixel} (h : c ∈ memErase m i) : c ∈ m := by
  induction m with
  | nil => simp [memErase] at h
  | cons d m ih =>
    obtain ⟨a, w⟩ := d
    unfold memErase at h
    split at h
    · simp [h]
    · rcases List.mem_cons.1 h with h | h
      · simp [h]
      · simp [ih h]

/-- Whatever is listed after a write was listed before or is the written cell. -/
theorem mem_memPut {d : Option Pixel} {m : Memory} {i : Nat} {v : Pixel} {c : Nat × Pixel} (h : c ∈ memPut d m i v) :
    c = (i, v) ∨ c ∈ m := by
  unfold memPut at h
  split at h
  · exact .inr (mem_memErase h)
  · exact mem_memInsert h

/-! ## The canonical form is kept -/

theorem rising_memInsert (m : Memory) (i : Nat) (v : Pixel) (h : m.rising = true) : (memInsert m i v).rising = true := by
  induction m with
  | nil => rfl
  | cons c m ih =>
    obtain ⟨a, w⟩ := c
    have hr := rising_cons.1 h
    unfold memInsert
    split
    · next h1 =>
      refine rising_cons.2 ⟨h, ?_⟩
      intro c hc
      rcases List.mem_cons.1 hc with rfl | hc
      · exact h1
      · exact Nat.lt_trans h1 (hr.2 c hc)
    · split
      · next h2 => subst h2; exact rising_cons.2 hr
      · next h1 h2 =>
        refine rising_cons.2 ⟨ih hr.1, ?_⟩
        intro c hc
        rcases mem_memInsert hc with rfl | hc
        · show a < i
          omega
        · exact hr.2 c hc

theorem rising_memErase (m : Memory) (i : Nat) (h : m.rising = true) : (memErase m i).rising = true := by
  induction m with
  | nil => rfl
  | cons c m ih =>
    obtain ⟨a, w⟩ := c
    have hr := rising_cons.1 h
    unfold memErase
    split
    · exact hr.1
    · exact rising_cons.2 ⟨ih hr.1, fun c hc => hr.2 c (mem_memErase hc)⟩

theorem wf_iff {d : Option Pixel} {m : Memory} :
    Memory.wf d m = true ↔ m.rising = true ∧ ∀ c ∈ m, some c.2 ≠ d := by
  simp [Memory.wf, List.all_eq_true]

/-- A write keeps the canonical form. -/
theorem memPut_wf (d : Option Pixel) (m : Memory) (i : Nat) (v : Pixel) (h : Memory.wf d m = true) :
    Memory.wf d (memPut d m i v) = true := by
  rw [wf_iff] at *
  refine ⟨?_, ?_⟩
  · unfold memPut
    split
    · exact rising_memErase m i h.1
    · exact rising_memInsert m i v h.1
  · intro c hc
    unfold memPut at hc
    split at hc
    · exact h.2 c (mem_memErase hc)
    · next hv =>
      rcases mem_memInsert hc with rfl | hc
      · exact hv
      · exact h.2 c hc

/-- MemWrite keeps the canonical form of every memory. -/
theorem memWrite_wf (sp : Space) (i : Nat) (p : Word) (s : State)
    (h : ∀ sp, Memory.wf sp.unlisted (s.memory sp) = true) :
    ∀ sp', Memory.wf sp'.unlisted ((memWrite sp i p s).memory sp') = true := by
  intro sp'
  by_cases he : sp' = sp
  · subst he
    simpa [memWrite] using memPut_wf _ _ i _ (h sp')
  · simpa [memWrite, setMemory_memory_ne s _ he] using h sp'

/-- HIST_CLEAR keeps the canonical form of every memory. -/
theorem histClear_wf (s : State) (h : ∀ sp, Memory.wf sp.unlisted (s.memory sp) = true) :
    ∀ sp, Memory.wf sp.unlisted ((histClear s).memory sp) = true := by
  intro sp
  have h' := h sp
  cases sp <;> simp only [histClear, State.memory] at h' ⊢ <;> first | exact h' | (split <;> first | rfl | exact h')

/-- RESET keeps the canonical form of every memory. -/
theorem resetBlock_wf (s : State) (h : ∀ sp, Memory.wf sp.unlisted (s.memory sp) = true) :
    ∀ sp, Memory.wf sp.unlisted ((resetBlock s).memory sp) = true := by
  intro sp
  cases sp <;> first | exact h .fb | rfl

/-- The memories of every build are canonical after power-on. -/
theorem powerOn_wf (c : Config) (sp : Space) : Memory.wf sp.unlisted ((State.powerOn c).memory sp) = true := by
  cases sp <;> rfl

/-- The memories of the reset state are canonical. -/
theorem reset_wf (sp : Space) : Memory.wf sp.unlisted (State.reset.memory sp) = true := powerOn_wf _ sp

/-! ## Reading after writing -/

/-- The cell just written reads as the pixel the cell stores. -/
theorem memRead_memWrite_same (sp : Space) (i : Nat) (p : Word) (s : State)
    (h : (s.memory sp).rising = true) :
    memRead sp i (memWrite sp i p s) = some (storedPixel s.cfg.pPixFmt p) := by
  unfold memRead memWrite
  rw [setMemory_memory_same]
  unfold memPut
  split
  · next hv => rw [memLookup_memErase_same _ _ h, ← hv]; rfl
  · simp

/-- An FB cell just written reads as the pixel it stores, whatever the list looked like: an unlisted FB cell has no
value, so a write of FB always lists one. -/
theorem memRead_memWrite_fb (i : Nat) (p : Word) (s : State) :
    memRead .fb i (memWrite .fb i p s) = some (storedPixel s.cfg.pPixFmt p) := by
  unfold memRead memWrite
  rw [setMemory_memory_same]
  simp [memPut, Space.unlisted]

/-- Every other cell reads as before. -/
theorem memRead_memWrite_ne (sp sp' : Space) (i j : Nat) (p : Word) (s : State) (h : ¬(sp' = sp ∧ j = i)) :
    memRead sp' j (memWrite sp i p s) = memRead sp' j s := by
  unfold memRead memWrite
  by_cases he : sp' = sp
  · subst he
    have hj : j ≠ i := fun hj => h ⟨rfl, hj⟩
    rw [setMemory_memory_same]
    unfold memPut
    split
    · rw [memLookup_memErase_ne _ hj]
    · rw [memLookup_memInsert_ne _ _ hj]
  · rw [setMemory_memory_ne _ _ he]

/-- A history cell always has a value. -/
theorem memRead_hist (sp : Space) (i : Nat) (s : State) (h : sp ≠ .fb) : memRead sp i s = some (histRead sp i s) := by
  have hs : (memRead sp i s).isSome = true := by
    cases sp <;> first | exact absurd rfl h | simp [memRead, Space.unlisted]
  obtain ⟨v, hv⟩ := Option.isSome_iff_exists.1 hs
  simp [histRead, hv]

end Sys2Proof.Machine
end

