-- ==== Sys2Proof/Laws/Blender.lean ====
section
/-! SUPPORT. The blender: channels of a packed pixel, and what the loop of BL_FRAME can do. -/

namespace Sys2Proof.Machine

/-! ## Pixels -/

/-- A channel of a packed pixel is the channel that was packed (R232). -/
theorem unpack_pack (f : PixFmt) (r g b : Nat) (hr : r ≤ maxC f .R) (hg : g ≤ maxC f .G) (hb : b ≤ maxC f .B)
    (ch : Chan) : unpack f (pack f r g b) ch = (match ch with | .R => r | .G => g | .B => b) := by
  cases f <;> cases ch <;> simp [unpack, pack, maxC, chanShift, chanBits] at * <;> omega

/-- A channel of an operation applied to each channel is that operation, when its results are in range. -/
theorem unpack_perChannel (f : PixFmt) (op : Chan → Nat) (h : ∀ ch, op ch ≤ maxC f ch) (ch : Chan) :
    unpack f (perChannel f op) ch = op ch := by
  unfold perChannel
  rw [unpack_pack f _ _ _ (h .R) (h .G) (h .B)]
  cases ch <;> rfl

theorem unpack_le (f : PixFmt) (p : Pixel) (ch : Chan) : unpack f p ch ≤ maxC f ch := by
  have : 0 < 2 ^ chanBits f ch := Nat.two_pow_pos _
  have := Nat.mod_lt (p.toNat / 2 ^ chanShift f ch) this
  unfold unpack maxC
  omega

/-- A clamped channel is in range. -/
theorem clampChannel_le (f : PixFmt) (ch : Chan) (v : Int) : clampChannel f ch v ≤ maxC f ch := by
  unfold clampChannel clamp
  omega

/-- A pixel packed from channels in range fits the cell (R231). -/
theorem pack_lt (f : PixFmt) (r g b : Nat) (hr : r ≤ maxC f .R) (hg : g ≤ maxC f .G) (hb : b ≤ maxC f .B) :
    (pack f r g b).toNat < (match f with | .rgb565 => 2 ^ 16 | .xrgb8888 => 2 ^ 24) := by
  cases f <;> simp only [maxC, chanBits] at hr hg hb <;> simp [pack, chanShift] <;> omega

/-- A pixel that fits the cell is stored as it is (R82). -/
theorem storedPixel_of_fits (f : PixFmt) (p : Pixel) (h : p.toNat < 2 ^ cellWidth f) : storedPixel f p = p := by
  cases f
  · apply BitVec.eq_of_toNat_eq
    have : p.toNat % 2 ^ 16 = p.toNat := Nat.mod_eq_of_lt (by simpa [cellWidth] using h)
    simp only [storedPixel, BitVec.toNat_and]
    rw [show (0x0000FFFF : BitVec 32).toNat = 2 ^ 16 - 1 from rfl, Nat.and_two_pow_sub_one_eq_mod, this]
  · rfl

/-- A stored pixel fits the cell (R82). -/
theorem storedPixel_lt (f : PixFmt) (p : Word) : (storedPixel f p).toNat < 2 ^ cellWidth f := by
  cases f
  · simp only [storedPixel, BitVec.toNat_and, cellWidth]
    rw [show (0x0000FFFF : BitVec 32).toNat = 2 ^ 16 - 1 from rfl, Nat.and_two_pow_sub_one_eq_mod]
    exact Nat.mod_lt _ (by decide)
  · exact p.isLt

/-! ## The loop -/

/-- The filter of one cell writes history cells of that index only: every other cell reads as before. -/
theorem filterCell_memRead_ne (m : BlendKind) (i : Nat) (cur : Pixel) (s : State) (sp : Space) (j : Nat)
    (h : sp = .fb ∨ j ≠ i) : memRead sp j (filterCell m i cur s).2 = memRead sp j s := by
  cases m <;> simp only [filterCell] <;>
    (repeat rw [memRead_memWrite_ne _ _ _ _ _ _ (by rintro ⟨rfl, rfl⟩; rcases h with h | h <;> simp at h)])

/-- One cell of BL_FRAME faults on a cell never written, or writes its FB cell and its history cells (R233). -/
theorem blendCell_cases (m : BlendKind) (i : Nat) (s : State) :
    (memRead .fb i s = none ∧ blendCell m i s = .error (.fbCellUnwritten i)) ∨
      ∃ cur, memRead .fb i s = some cur ∧
        blendCell m i s = .ok (memWrite .fb i (filterCell m i cur s).1 (filterCell m i cur s).2) := by
  unfold blendCell
  split
  · exact .inl ⟨by assumption, rfl⟩
  · next cur h => exact .inr ⟨cur, h, rfl⟩

/-- What the loop of BL_FRAME leaves alone: everything but the memories, and every cell whose index is not visited. -/
theorem blendCells_frame (m : BlendKind) (is : List Nat) (s t : State) (h : blendCells m is s = .ok t) :
    t.cfg = s.cfg ∧ t.status = s.status ∧ t.rs = s.rs ∧ t.pc = s.pc ∧ t.bl = s.bl ∧ t.cmds = s.cmds ∧
      t.resps = s.resps ∧ ∀ sp j, j ∉ is → memRead sp j t = memRead sp j s := by
  induction is generalizing s with
  | nil =>
    cases h
    exact ⟨rfl, rfl, rfl, rfl, rfl, rfl, rfl, fun _ _ _ => rfl⟩
  | cons i is ih =>
    rcases blendCell_cases m i s with ⟨_, hb⟩ | ⟨cur, _, hb⟩
    · simp [blendCells, hb] at h
    · simp only [blendCells, hb] at h
      have := ih _ h
      simp only [memWrite_cfg, memWrite_status, memWrite_rs, memWrite_pc, memWrite_bl, memWrite_cmds, memWrite_resps,
        filterCell_cfg, filterCell_status, filterCell_rs, filterCell_pc, filterCell_bl, filterCell_cmds,
        filterCell_resps] at this
      obtain ⟨h1, h2, h3, h4, h5, h6, h7, h8⟩ := this
      refine ⟨h1, h2, h3, h4, h5, h6, h7, fun sp j hj => ?_⟩
      simp only [List.mem_cons, not_or] at hj
      rw [h8 sp j hj.2, memRead_memWrite_ne _ _ _ _ _ _ (fun hc => hj.1 hc.2),
        filterCell_memRead_ne _ _ _ _ _ _ (.inr hj.1)]

/-! ## Where BL_FRAME's loop faults -/

/-- A cell filtered leaves every other cell as it was. -/
theorem blendCell_memRead_ne {m : BlendKind} {i : Nat} {s t : State} (h : blendCell m i s = .ok t) (sp : Space) (j : Nat)
    (hj : j ≠ i) : memRead sp j t = memRead sp j s := by
  have hf := blendCells_frame m [i] s t (by simp [blendCells, h])
  exact hf.2.2.2.2.2.2.2 sp j (by simpa using hj)

/-- The loop faults only at a cell of its list that was unwritten when it began. -/
theorem blendCells_error {m : BlendKind} {is : List Nat} {s : State} {f : Fault} (h : blendCells m is s = .error f) :
    ∃ k ∈ is, memRead .fb k s = none ∧ f = .fbCellUnwritten k := by
  induction is generalizing s with
  | nil => simp [blendCells] at h
  | cons i is ih =>
    rcases blendCell_cases m i s with ⟨hr, hb⟩ | ⟨cur, hr, hb⟩
    · simp only [blendCells, hb, Except.error.injEq] at h
      exact ⟨i, by simp, hr, h.symm⟩
    · have h' := h
      simp only [blendCells, hb] at h'
      obtain ⟨k, hk, hn, hf⟩ := ih h'
      by_cases hki : k = i
      · subst hki
        rw [memRead_memWrite_fb] at hn
        simp at hn
      · exact ⟨k, by simp [hk], by rw [← blendCell_memRead_ne hb .fb k hki]; exact hn, hf⟩

/-- The loop ends in a next state only when every cell of its list had been written. -/
theorem blendCells_ok_written {m : BlendKind} {is : List Nat} {s t : State} (h : blendCells m is s = .ok t) (k : Nat)
    (hk : k ∈ is) : memRead .fb k s ≠ none := by
  induction is generalizing s with
  | nil => simp at hk
  | cons i is ih =>
    rcases blendCell_cases m i s with ⟨_, hb⟩ | ⟨cur, hr, hb⟩
    · simp [blendCells, hb] at h
    · simp only [blendCells, hb] at h
      by_cases hki : k = i
      · rw [hki, hr]
        simp
      · rw [← blendCell_memRead_ne hb .fb k hki]
        exact ih h ((List.mem_cons.1 hk).resolve_left hki)

end Sys2Proof.Machine
end

