-- ==== Sys2Proof/Laws/Flags.lean ====
section
/-! SUPPORT. The STATUS bits: raising an error and clearing bits, read back through `State.flag`. -/

namespace Sys2Proof.Machine

theorem code_lt (e : Err) : e.code < 10 := by cases e <;> decide

theorem code_injective {e e' : Err} (h : e.code = e'.code) : e = e' := by
  cases e <;> cases e' <;> first | rfl | exact absurd h (by decide)

/-- An error's mask has the error's own bit alone. -/
theorem mask_bit (e e' : Err) : e.mask.getLsbD e'.code = decide (e' = e) := by
  cases e <;> cases e' <;> rfl

/-- `raise E` sets bit E and leaves every other bit. -/
theorem raise_flag (s : State) (e e' : Err) : (s.raise e).flag e' = (s.flag e' || decide (e' = e)) := by
  simp [State.flag, State.raise, mask_bit]

@[simp] theorem raise_flag_same (s : State) (e : Err) : (s.raise e).flag e = true := by simp [raise_flag]

theorem raise_flag_ne (s : State) {e e' : Err} (h : e' ≠ e) : (s.raise e).flag e' = s.flag e' := by
  simp [raise_flag, h]

/-- A write of STATUS clears the bits written 1 and leaves the others. -/
theorem clearStatus_flag (s : State) (v : Word) (e : Err) :
    (s.clearStatus v).flag e = (s.flag e && !v.getLsbD e.code) := by
  have h := code_lt e
  simp [State.flag, State.clearStatus, h]

/-- Flags depend on STATUS alone. -/
theorem flag_congr {s t : State} (h : t.status = s.status) (e : Err) : t.flag e = s.flag e := by
  simp [State.flag, h]

end Sys2Proof.Machine
end

