-- ==== Sys2Proof/Laws/Control.lean ====
section
/-! SUPPORT. Register numbers, and what a register write can do, said once. -/

namespace Sys2Proof.Machine

/-! ## Register numbers -/

@[simp] theorem regOf_number (r : Reg) : regOf r.number = some r := by cases r <;> rfl

/-- A number names a register exactly when it is that register's number. -/
theorem regOf_eq_some_iff (n : BitVec 8) (r : Reg) : regOf n = some r ↔ n = r.number := by
  refine ⟨fun h => ?_, fun h => h ▸ regOf_number r⟩
  unfold regOf at h
  split at h <;> cases h <;> exact BitVec.eq_of_toNat_eq (by assumption)

theorem number_injective {r r' : Reg} (h : r.number = r'.number) : r = r' :=
  Option.some.inj ((regOf_number r).symm.trans ((congrArg regOf h).trans (regOf_number r')))

/-! ## What a register write can do -/

/-- Every register write leaves the build, the port and FB alone, and changes STATUS only by one error of WRREG's own,
or by clearing bits when the register is STATUS. -/
theorem writeReg_status (r : Reg) (v : Word) (s : State) :
    (writeReg r v s).status = s.status ∨ (r = .status ∧ (writeReg r v s).status = (s.clearStatus v).status) ∨
      ∃ e ∈ [Err.fallback, .alloc, .badval], (writeReg r v s).status = (s.raise e).status := by
  cases r <;> simp only [writeReg] <;> try exact .inr (.inr ⟨.badval, by simp, rfl⟩)
  case status => exact .inr (.inl ⟨trivial, trivial⟩)
  case rsCtrl =>
    unfold writeRsCtrl
    dsimp only
    split <;> split <;> first | exact .inr (.inr ⟨.fallback, by simp, rfl⟩) | exact .inl rfl
  case rsCap => exact .inl trivial
  case rsDropcnt => exact .inl trivial
  case pcSpf => unfold writePcSpf; split <;> first | exact .inr (.inr ⟨.badval, by simp, rfl⟩) | exact .inl rfl
  case pcMult =>
    unfold writePcMult
    dsimp only
    split <;> first | exact .inl rfl | exact .inr (.inr ⟨.badval, by simp, rfl⟩)
  case blCtrl =>
    unfold writeBlCtrl
    dsimp only
    split
    · exact .inl rfl
    · split <;> first | exact .inr (.inr ⟨.alloc, by simp, rfl⟩) | exact .inl rfl
  all_goals first
    | (unfold writeWeight; split <;> first | exact .inr (.inr ⟨.badval, by simp, rfl⟩) | exact .inl rfl)
    | (unfold writeGeometry; dsimp only; split <;> exact .inl rfl)

/-- A register write leaves the build, the command port and FB as they were. -/
theorem writeReg_kept (r : Reg) (v : Word) (s : State) :
    (writeReg r v s).cfg = s.cfg ∧ (writeReg r v s).cmds = s.cmds ∧ (writeReg r v s).resps = s.resps ∧
      (writeReg r v s).mem.fb = s.mem.fb := by
  cases r <;> simp only [writeReg, writeRsCtrl, writePcSpf, writePcMult, writeBlCtrl, writeWeight, writeGeometry] <;>
    (repeat' split) <;> simp

@[simp] theorem writeReg_cfg (r : Reg) (v : Word) (s : State) : (writeReg r v s).cfg = s.cfg := (writeReg_kept r v s).1

@[simp] theorem writeReg_cmds (r : Reg) (v : Word) (s : State) : (writeReg r v s).cmds = s.cmds :=
  (writeReg_kept r v s).2.1

@[simp] theorem writeReg_resps (r : Reg) (v : Word) (s : State) : (writeReg r v s).resps = s.resps :=
  (writeReg_kept r v s).2.2.1

@[simp] theorem writeReg_fb (r : Reg) (v : Word) (s : State) : (writeReg r v s).mem.fb = s.mem.fb :=
  (writeReg_kept r v s).2.2.2

/-- The history memories after a register write: as they were, or as HIST_CLEAR leaves them, which only BL_CTRL and the
geometry registers do. -/
theorem writeReg_mem (r : Reg) (v : Word) (s : State) :
    (writeReg r v s).mem = s.mem ∨
      (r ∈ [.blCtrl, .blWidth, .blHeight, .blPitch] ∧ (writeReg r v s).mem = (histClear s).mem) := by
  cases r <;> simp only [writeReg, writeRsCtrl, writePcSpf, writePcMult, writeBlCtrl, writeWeight, writeGeometry] <;>
    (repeat' split) <;> first | exact .inl rfl | exact .inr ⟨by simp, rfl⟩ | exact .inl trivial

/-- The pacer after a register write: as it was, but for SPF or MULT of the register written. -/
theorem writeReg_pc (r : Reg) (v : Word) (s : State) :
    (writeReg r v s).pc = s.pc ∨ (r = .pcSpf ∧ v ≠ 0 ∧ (writeReg r v s).pc = { s.pc with spf := v }) ∨
      (r = .pcMult ∧ ∃ m : BitVec 3, 1 ≤ m.toNat ∧ m.toNat ≤ 5 ∧ (writeReg r v s).pc = { s.pc with mult := m }) := by
  cases r <;> simp only [writeReg, writeRsCtrl, writePcSpf, writePcMult, writeBlCtrl, writeWeight, writeGeometry] <;>
    (repeat' split) <;> first
    | exact .inl rfl
    | exact .inl trivial
    | exact .inr (.inl ⟨trivial, by assumption, rfl⟩)
    | exact .inr (.inr ⟨trivial, _, (by assumption : _ ∧ _).1, (by assumption : _ ∧ _).2, rfl⟩)

/-- The resampler after a register write: changed by RS_CTRL, RS_CAP and RS_DROPCNT only, and never OUTQ or
RS_BLKCNT. -/
theorem writeReg_rs (r : Reg) (v : Word) (s : State) :
    (writeReg r v s).rs.outq = s.rs.outq ∧ (writeReg r v s).rs.blkcnt = s.rs.blkcnt ∧
      ((writeReg r v s).rs = s.rs ∨ r = .rsCtrl ∨ (r = .rsCap ∧ (writeReg r v s).rs = { s.rs with cap := v }) ∨
        (r = .rsDropcnt ∧ (writeReg r v s).rs = { s.rs with dropcnt := 0 })) := by
  cases r <;> simp only [writeReg, writeRsCtrl, writePcSpf, writePcMult, writeBlCtrl, writeWeight, writeGeometry] <;>
    (repeat' split) <;> simp [State.raise, State.clearStatus, histClear, rsInit]

end Sys2Proof.Machine
end

