-- ==== Sys2Proof/Laws/Pacer.lean ====
section
/-! SUPPORT. The pacer's commands by cases. -/

namespace Sys2Proof.Machine

theorem dupeDue_iff (s : State) : dupeDue s = true ↔ s.pc.frames.toNat < s.pc.samples.toNat / s.pc.spf.toNat := by
  simp [dupeDue]

/-- PC_CHECK gives a dupe verdict and adds MULT, or gives a run verdict and leaves the counters (R201). -/
theorem execPcCheck_cases (s : State) :
    (s.pc.frames.toNat < s.pc.samples.toNat / s.pc.spf.toNat ∧
      execPcCheck s =
        done 1 { s with pc := { s.pc with frames := framesPlusMult s.pc, lastDupe := true, run := false } }) ∨
      (s.pc.samples.toNat / s.pc.spf.toNat ≤ s.pc.frames.toNat ∧
        execPcCheck s = done 0 { s with pc := { s.pc with lastDupe := false, run := true } }) := by
  unfold execPcCheck
  split
  · next h => exact .inl ⟨(dupeDue_iff s).1 h, rfl⟩
  · next h => exact .inr ⟨by have := mt (dupeDue_iff s).2 h; omega, rfl⟩

/-- FRAMES + MULT on numbers, modulo 2^64. -/
theorem framesPlusMult_toNat (p : Pacer) : (framesPlusMult p).toNat = (p.frames.toNat + p.mult.toNat) % 2 ^ 64 := by
  have := p.mult.isLt
  simp [framesPlusMult, BitVec.toNat_add, Nat.mod_eq_of_lt (show p.mult.toNat < 18446744073709551616 by omega)]

end Sys2Proof.Machine
end

