-- ==== Sys2Proof/Laws/PerInstr.lean ====
section
/-! SUPPORT. For every command, as text: the opcode table's mask and match (30_encoding.md R103, R106) hold of its
encoding. -/

namespace Sys2Proof.Laws.TableMatch

/-- The encoding is in the format of the command's opcode: `(c AND mask) == (op << 56)` (R103). -/
def Statement (i : Instr) : Prop := encode i &&& i.format.mask = matchWord i.opcode

/-- Masking a word, field by field. -/
theorem wordOf_and (op a op' a' : BitVec 8) (b b' : BitVec 16) (d d' : Word) :
    wordOf op a b d &&& wordOf op' a' b' d' = wordOf (op &&& op') (a &&& a') (b &&& b') (d &&& d') := by
  simp only [wordOf, ← BitVec.and_append]

/-- A match word, field by field. -/
theorem matchWord_eq (op : BitVec 8) : matchWord op = wordOf op 0 0 0 := by
  revert op
  decide

/-- The masks, field by field. -/
theorem mask_eq (f : Format) : f.mask = match f with
    | .N => wordOf (BitVec.allOnes 8) (BitVec.allOnes 8) (BitVec.allOnes 16) (BitVec.allOnes 32)
    | .R => wordOf (BitVec.allOnes 8) 0 (BitVec.allOnes 16) (BitVec.allOnes 32)
    | .W => wordOf (BitVec.allOnes 8) 0 (BitVec.allOnes 16) 0
    | .D => wordOf (BitVec.allOnes 8) (BitVec.allOnes 8) (BitVec.allOnes 16) 0
    | .X => wordOf (BitVec.allOnes 8) (BitVec.allOnes 8) 0 0
    | .Y => wordOf (BitVec.allOnes 8) (BitVec.allOnes 8) 0 (BitVec.allOnes 32)
    | .H => wordOf (BitVec.allOnes 8) 0 0 (BitVec.allOnes 32) := by
  cases f <;> rfl

theorem nop : Statement .nop := rfl

theorem rdreg (n : BitVec 8) : Statement (.rdreg n) := by
  simp [Statement, encode, mask_eq, Instr.format, wordOf_and, matchWord_eq, Instr.opcode]

theorem wrreg (n : BitVec 8) (v : Word) : Statement (.wrreg n v) := by
  simp [Statement, encode, mask_eq, Instr.format, wordOf_and, matchWord_eq, Instr.opcode]

theorem reset : Statement .reset := rfl

theorem rsPush (l r : Sample) : Statement (.rsPush l r) := by
  simp [Statement, encode, mask_eq, Instr.format, wordOf_and, matchWord_eq, Instr.opcode]

theorem rsPop : Statement .rsPop := rfl

theorem rsMark : Statement .rsMark := rfl

theorem pcCheck : Statement .pcCheck := rfl

theorem pcAdd (n : Word) : Statement (.pcAdd n) := by
  simp [Statement, encode, mask_eq, Instr.format, wordOf_and, matchWord_eq, Instr.opcode]

theorem pcCommit : Statement .pcCommit := rfl

theorem pcClear : Statement .pcClear := rfl

theorem blFrame : Statement .blFrame := rfl

theorem fbWr (x : BitVec 16) (p : Word) : Statement (.fbWr x p) := by
  simp [Statement, encode, mask_eq, Instr.format, wordOf_and, matchWord_eq, Instr.opcode]

theorem fbRd (x : BitVec 16) : Statement (.fbRd x) := by
  simp [Statement, encode, mask_eq, Instr.format, wordOf_and, matchWord_eq, Instr.opcode]

theorem histRd (j : BitVec 8) (x : BitVec 16) : Statement (.histRd j x) := by
  simp [Statement, encode, mask_eq, Instr.format, wordOf_and, matchWord_eq, Instr.opcode]

end Sys2Proof.Laws.TableMatch
end

