-- ==== Sys2Proof/Laws/Resampler.lean ====
section
/-! SUPPORT. The resampler's shared operations: what EMIT can do, the accumulators one by one, the cosine loop's end. -/

namespace Sys2Proof.Machine

/-! ## EMIT -/

/-- EMIT loses the pair with OVF, or appends it (R156). -/
theorem emit_cases (yl yr : Int) (s : State) :
    (s.rs.outq.length = s.cfg.pQ ∧ emit yl yr s = s.raise .ovf) ∨
      (s.rs.outq.length ≠ s.cfg.pQ ∧
        emit yl yr s = { s with rs := { s.rs with outq := s.rs.outq ++ [packPair yl yr] } }) := by
  unfold emit
  split
  · exact .inl ⟨by assumption, rfl⟩
  · exact .inr ⟨by assumption, rfl⟩

/-- EMIT never takes a pair out of OUTQ. -/
theorem emit_outq_mono (yl yr : Int) (s : State) : s.rs.outq <+: (emit yl yr s).rs.outq := by
  rcases emit_cases yl yr s with ⟨_, h⟩ | ⟨_, h⟩ <;> rw [h]
  · exact List.prefix_rfl
  · exact List.prefix_append _ _

/-- EMIT keeps OUTQ within its depth. -/
theorem emit_outq_bound (yl yr : Int) (s : State) (h : s.rs.outq.length ≤ s.cfg.pQ) :
    (emit yl yr s).rs.outq.length ≤ s.cfg.pQ := by
  rcases emit_cases yl yr s with ⟨_, he⟩ | ⟨hne, he⟩ <;> rw [he]
  · exact h
  · simp only [List.length_append, List.length_singleton]
    omega

/-- EMIT can set OVF and no other STATUS bit. -/
theorem emit_flag_ne (yl yr : Int) (s : State) {e : Err} (h : e ≠ .ovf) : (emit yl yr s).flag e = s.flag e := by
  rcases emit_cases yl yr s with ⟨_, he⟩ | ⟨_, he⟩ <;> rw [he]
  · exact raise_flag_ne s h
  · rfl

/-! ## The sinc accumulators -/

@[simp] theorem sincScatter_length (c : Config) (p : Nat) (x : Int) (k : Nat) (accs : List Acc) :
    (sincScatter c p x k accs).length = accs.length := by
  induction accs generalizing k with
  | nil => rfl
  | cons a as ih => simp [sincScatter, ih]

/-- Accumulator `j` of a scatter gains its own product (R161). -/
theorem sincScatter_getElem (c : Config) (p : Nat) (x : Int) (k j : Nat) (accs : List Acc) (h : j < accs.length) :
    (sincScatter c p x k accs)[j]'(by simpa using h) =
      BitVec.ofInt 64 (accs[j].toInt + x * sincCoef c p (k + j)) := by
  induction accs generalizing k j with
  | nil => simp at h
  | cons a as ih =>
    cases j with
    | zero => simp [sincScatter]
    | succ j =>
      have hj : j < as.length := by simpa using h
      simpa [sincScatter, Nat.add_assoc, Nat.add_comm 1 j] using ih (k + 1) j hj

theorem sincShift_length (accs : List Acc) (h : accs ≠ []) : (sincShift accs).length = accs.length := by
  cases accs with
  | nil => exact absurd rfl h
  | cons a as => simp [sincShift]

/-! ## The cosine loop -/

/-- One turn of the loop, as EMIT and an advance of CR (R170). -/
theorem cosLoop_turn (l r : Sample) (n : Nat) (s : State) (h : s.rs.cr.toNat ≤ s.cfg.pFo) :
    ∃ yl yr, cosLoop l r (n + 1) s =
      cosLoop l r n
        { emit yl yr s with
          rs := { (emit yl yr s).rs with cr := BitVec.ofNat 32 (s.rs.cr.toNat + s.cfg.pFi) } } := by
  refine ⟨cosInterp s.rs.caL.toInt l.toInt (s.rs.cr.toNat * 256 / s.cfg.pFo),
    cosInterp s.rs.caR.toInt r.toInt (s.rs.cr.toNat * 256 / s.cfg.pFo), ?_⟩
  rw [cosLoop, if_pos h]
  simp

/-- The loop is over when CR is past P_FO. -/
theorem cosLoop_stop (l r : Sample) (n : Nat) (s : State) (h : s.cfg.pFo < s.rs.cr.toNat) : cosLoop l r n s = s := by
  cases n with
  | zero => rfl
  | succ n => rw [cosLoop, if_neg (by omega)]

/-- With turns enough the loop ends with CR past P_FO by at most P_FI (R175). -/
theorem cosLoop_cr (l r : Sample) (n : Nat) (s : State) (hr : s.cfg.pFo + s.cfg.pFi < 2 ^ 32)
    (hn : s.cfg.pFo < s.rs.cr.toNat + n * s.cfg.pFi) (hc : s.rs.cr.toNat ≤ s.cfg.pFo + s.cfg.pFi) :
    s.cfg.pFo < (cosLoop l r n s).rs.cr.toNat ∧ (cosLoop l r n s).rs.cr.toNat ≤ s.cfg.pFo + s.cfg.pFi := by
  induction n generalizing s with
  | zero => exact ⟨by simpa [cosLoop] using hn, by simpa [cosLoop] using hc⟩
  | succ n ih =>
    by_cases h : s.rs.cr.toNat ≤ s.cfg.pFo
    · obtain ⟨yl, yr, he⟩ := cosLoop_turn l r n s h
      have hm : (s.rs.cr.toNat + s.cfg.pFi) % 2 ^ 32 = s.rs.cr.toNat + s.cfg.pFi := Nat.mod_eq_of_lt (by omega)
      rw [he]
      have := ih { emit yl yr s with
          rs := { (emit yl yr s).rs with cr := BitVec.ofNat 32 (s.rs.cr.toNat + s.cfg.pFi) } }
        (by simpa using hr)
        (by
          simp only [emit_cfg, BitVec.toNat_ofNat, hm]
          rw [Nat.succ_mul] at hn
          omega)
        (by simp only [emit_cfg, BitVec.toNat_ofNat, hm]; omega)
      simpa using this
    · rw [cosLoop_stop l r _ s (by omega)]
      exact ⟨by omega, hc⟩

/-- `cosTurns` is never too few, from any CR. -/
theorem cosTurns_enough (c : Config) (cr : Nat) (h : 1 ≤ c.pFi) : c.pFo < cr + cosTurns c * c.pFi := by
  have := Nat.div_add_mod c.pFo c.pFi
  have := Nat.mod_lt c.pFo h
  unfold cosTurns
  rw [Nat.add_mul, Nat.mul_comm (c.pFo / c.pFi) c.pFi]
  omega

/-- The loop never takes a pair out of OUTQ. -/
theorem cosLoop_outq_mono (l r : Sample) (n : Nat) (s : State) : s.rs.outq <+: (cosLoop l r n s).rs.outq := by
  induction n generalizing s with
  | zero => exact List.prefix_rfl
  | succ n ih =>
    by_cases h : s.rs.cr.toNat ≤ s.cfg.pFo
    · obtain ⟨yl, yr, he⟩ := cosLoop_turn l r n s h
      rw [he]
      exact (emit_outq_mono yl yr s).trans
        (ih { emit yl yr s with rs := { (emit yl yr s).rs with cr := BitVec.ofNat 32 (s.rs.cr.toNat + s.cfg.pFi) } })
    · have hs : cosLoop l r (n + 1) s = s := cosLoop_stop l r _ s (by omega)
      exact ⟨[], by rw [hs, List.append_nil]⟩

/-- The loop keeps OUTQ within its depth. -/
theorem cosLoop_outq_bound (l r : Sample) (n : Nat) (s : State) (hq : s.rs.outq.length ≤ s.cfg.pQ) :
    (cosLoop l r n s).rs.outq.length ≤ s.cfg.pQ := by
  induction n generalizing s with
  | zero => exact hq
  | succ n ih =>
    by_cases h : s.rs.cr.toNat ≤ s.cfg.pFo
    · obtain ⟨yl, yr, he⟩ := cosLoop_turn l r n s h
      rw [he]
      simpa using ih _ (by simpa using emit_outq_bound yl yr s hq)
    · rw [cosLoop_stop l r _ s (by omega)]
      exact hq

/-- The loop can set OVF and no other STATUS bit. -/
theorem cosLoop_flag_ne (l r : Sample) (n : Nat) (s : State) {e : Err} (he : e ≠ .ovf) :
    (cosLoop l r n s).flag e = s.flag e := by
  induction n generalizing s with
  | zero => rfl
  | succ n ih =>
    by_cases h : s.rs.cr.toNat ≤ s.cfg.pFo
    · obtain ⟨yl, yr, ht⟩ := cosLoop_turn l r n s h
      rw [ht, ih]
      exact emit_flag_ne yl yr s he
    · rw [cosLoop_stop l r _ s (by omega)]

/-! ## RS_PUSH -/

/-- RS_PUSH drops the pair at the cap, or counts it and steps the backend in effect (R151). -/
theorem execRsPush_cases (l r : Sample) (s : State) :
    (s.rs.cap.toNat ≤ s.rs.blkcnt.toNat ∧ execRsPush l r s = done 0 (dropPair s)) ∨
      (s.rs.blkcnt.toNat < s.rs.cap.toNat ∧
        execRsPush l r s = done 0 (backendStep l r { s with rs := { s.rs with blkcnt := s.rs.blkcnt + 1 } })) := by
  unfold execRsPush capAccepts
  split
  · next h => exact .inr ⟨by simpa using h, rfl⟩
  · next h => exact .inl ⟨by simpa using h, rfl⟩

end Sys2Proof.Machine
end

