-- ==== Sys2Proof/Laws/Safety.lean ====
section
/-! SUPPORT. What a clean start state is, field by field. -/

namespace Sys2Proof.Machine

/-- A clean start state, from the power-on state: only FB and the words to be delivered can differ. -/
theorem State.clean_eq {s : State} (h : s.clean) :
    s = { State.powerOn s.cfg with
      mem := { (State.powerOn s.cfg).mem with fb := s.mem.fb }
      cmds := s.cmds } := h.1

theorem State.clean_rs {s : State} (h : s.clean) : s.rs = (State.powerOn s.cfg).rs := by
  have hrs := congrArg State.rs h.1
  exact hrs

theorem State.clean_pc {s : State} (h : s.clean) : s.pc = (State.powerOn s.cfg).pc := by
  have hpc := congrArg State.pc h.1
  exact hpc

/-- OUTQ is empty (R303). -/
theorem State.clean_outq {s : State} (h : s.clean) : s.rs.outq = [] := by
  rw [State.clean_rs h]; rfl

/-- RUN is 0 (R303). -/
theorem State.clean_run {s : State} (h : s.clean) : s.pc.run = false := by
  rw [State.clean_pc h]; rfl

/-- A clean start state's build is not P_SEL_RESET = 0 with P_SINC_OK = 0 (R303). -/
theorem State.clean_status {s : State} (h : s.clean) : statusAtReset s.cfg = 0 := by
  have hs := h.2.1
  rw [h.1] at hs
  exact hs

end Sys2Proof.Machine
end

