-- ==== Sys2Proof/Laws/Step.lean ====
section
/-! SUPPORT. What a step can do, said once: wait, run an illegal word, run a command, or refuse an illegal build. -/

namespace Sys2Proof.Machine

theorem step_cases (s : State) :
    (s.cfg.legal = false ∧ step s = .refused .illegalBuild) ∨
      (s.cfg.legal = true ∧ s.cmds = [] ∧ step s = .next s) ∨
      ∃ c rest, s.cfg.legal = true ∧ s.cmds = c :: rest ∧
        ((∃ e, decode c = .error e ∧ step s = illegalWord { s with cmds := rest }) ∨
          ∃ i, decode c = .ok i ∧ step s = exec i { s with cmds := rest }) := by
  by_cases hl : s.cfg.legal = true
  · cases hc : s.cmds with
    | nil => exact .inr (.inl ⟨hl, rfl, by simp [step, fetch, hl, hc]⟩)
    | cons c rest =>
      refine .inr (.inr ⟨c, rest, hl, rfl, ?_⟩)
      cases hd : decode c with
      | error e => exact .inl ⟨e, rfl, by simp [step, fetch, hl, hc, hd]⟩
      | ok i => exact .inr ⟨i, rfl, by simp [step, fetch, hl, hc, hd]⟩
  · exact .inl ⟨by simpa using hl, by simp [step, hl]⟩

/-- An illegal word ends in a next state (R109). -/
theorem illegalWord_eq (s : State) : illegalWord s = .next ((s.raise .illegal).respond 0) := rfl

@[simp] theorem withFetchWord_cmds (s : State) (nbits w : Nat) :
    (s.withFetchWord nbits w).cmds = BitVec.ofNat 64 (w % 2 ^ nbits) :: s.cmds := rfl

@[simp] theorem withFetchWord_cfg (s : State) (nbits w : Nat) : (s.withFetchWord nbits w).cfg = s.cfg := rfl

/-- What a completed command leaves: its response at the end of the list. -/
theorem done_eq_next {v : Word} {s t : State} : done v s = .next t ↔ t = s.respond v := by
  constructor
  · intro h; cases h; rfl
  · intro h; rw [h]; rfl

end Sys2Proof.Machine
end

