-- ==== Sys2Proof/Tests/Slice0.lean ====
section
/-! SUPPORT. Tests. Words and values are written out from the spec: 30_encoding.md R101 to R115, 95_test_vectors.md
(the section stands beside each test). The witness theorems show, for each statement that has hypotheses, a state and
operands that meet them. -/

namespace Sys2Proof.Tests

open Sys2Proof Sys2Proof.Machine

/-! ## Builds and small states -/

/-- TC-S1 (95 section 0.1), with four cells a memory. -/
def cfgS : Config := { Config.chosen with pSelReset := .sinc, pFbPixels := 4 }

/-- TC-C(FI, FO) (95 section 0.1). -/
def cfgC (fi fo : Nat) : Config := { Config.chosen with pFi := fi, pFo := fo, pQ := 100 }

/-- TC-B (95 section 0.1). -/
def cfgB : Config := { Config.chosen with pFbPixels := 16 }

/-- A build without the sinc backend, with one history memory. -/
def cfgLean : Config := { Config.chosen with pSincOk := false, pHistAvail := 1 }

/-- A state in the middle of a run, with `k` as its blend kind: two sinc pushes and a third (95 section 2.4), a run
verdict outstanding, every FB cell of a 2 x 2 frame written, cells 0 and 2 of H1 not 0. -/
def mid (k : BlendKind) : State :=
  { State.powerOn cfgS with
    rs :=
      { sel := .sinc, outq := [0x04E2FB1E], cap := 8, blkcnt := 3, dropcnt := 0,
        saccL := [36864000, 12288000], saccR := [BitVec.ofInt 64 (-36864000), BitVec.ofInt 64 (-12288000)],
        ph := 1, caL := 0, caR := 0, cr := 48000 }
    pc := { samples := 70224, frames := 1, spf := 35112, mult := 1, lastDupe := false, run := true }
    bl := { mode := k, w1 := 0x80, w2 := 0x40, w3 := 0x20, w4 := 0x10, width := 2, height := 2, pitch := 2 }
    mem :=
      { fb := [(0, 0xFFFF), (1, 0xF800), (2, 0x07E0), (3, 0x0000)], h1 := [(0, 0xFFFF), (2, 0x0841)], h2 := [],
        h3 := [], h4 := [] } }

/-- The same state on a build whose only usable backend is cosine: one push made, CR = P_FI (95 section 2.5). -/
def midCosine : State :=
  { State.powerOn { cfgC 1 2 with pFbPixels := 4 } with
    rs :=
      { (State.powerOn (cfgC 1 2)).rs with
        outq := [0x03E8FC18], blkcnt := 1, caL := 1000, caR := BitVec.ofInt 16 (-1000), cr := 1 } }

/-- The state after, if there is one. -/
def after (r : Result) : Option State :=
  match r with
  | .next t => some t
  | .fault _ | .refused _ => none

/-- The state after, or the state before. -/
def nextOf (i : Instr) (s : State) : State := (after (exec i s)).getD s

/-- The response of a command, if it completes. -/
def answer (i : Instr) (s : State) : Option Word := (after (exec i s)).bind fun t => t.resps.getLast?

/-- The command of a word, if it is legal. -/
def decoded (c : Command) : Option Instr :=
  match decode c with
  | .ok i => some i
  | .error _ => none

/-- Why a word is illegal. -/
def rejected (c : Command) : Option Reject :=
  match decode c with
  | .ok _ => none
  | .error e => some e

/-! ## Well-formedness -/

theorem test_chosen_build_is_legal : Config.chosen.legal = true := by decide
theorem test_test_builds_are_legal :
    cfgS.legal && (cfgC 1 2).legal && (cfgC 3 2).legal && cfgB.legal && cfgLean.legal = true := by decide

theorem test_fi_zero_refused : { cfgS with pFi := 0 }.legalFi = false := by decide
theorem test_fi_too_large_refused : { cfgS with pFi := 2 ^ 31 }.legal = false := by decide
theorem test_d_zero_refused : { cfgS with pD := 0, pHp := [] }.legalD = false := by decide
theorem test_t_zero_refused : { cfgS with pT := 0, pHp := [] }.legalT = false := by decide
theorem test_too_many_taps_refused : { cfgS with pD := 2 ^ 16, pT := 2 ^ 16 + 1 }.legalTaps = false := by decide
theorem test_short_kernel_refused : { cfgS with pHp := [16384, 8192, 4096] }.legalHp = false := by decide
theorem test_fo_zero_refused : { cfgS with pFo := 0 }.legalFo = false := by decide
theorem test_rates_too_large_refused :
    { cfgS with pFi := 2 ^ 31 - 1, pFo := 2 ^ 31 + 1 }.legalRates = false := by decide
theorem test_q_zero_refused : { cfgS with pQ := 0 }.legalQ = false := by decide
theorem test_five_histories_refused : { cfgS with pHistAvail := 5 }.legalHist = false := by decide
theorem test_no_cells_refused : { cfgS with pFbPixels := 0 }.legalCells = false := by decide
theorem test_too_many_cells_refused : { cfgS with pFbPixels := 65537 }.legal = false := by decide
theorem test_wf_above_one_refused : { cfgS with pWf := 0x0101 }.legalWf = false := by decide
theorem test_hist_zero_ill_formed : (Instr.histRd 0 0).wellFormed = false := by decide
theorem test_hist_five_ill_formed : (Instr.histRd 5 0).wellFormed = false := by decide
theorem test_hist_four_well_formed : (Instr.histRd 4 0xFFFF).wellFormed = true := by decide

/-! ## Decoding: each word from its fields OP, A, B, D (R101, R102, R104, R106; 95 section 2.1) -/

theorem test_decode_nop : decoded 0x0000000000000000 = some .nop := by decide
theorem test_decode_rdreg : decoded 0x0105000000000000 = some (.rdreg 0x05) := by decide
theorem test_decode_wrreg : decoded 0x0214000000008928 = some (.wrreg 0x14 35112) := by decide
theorem test_decode_reset : decoded 0x0300000000000000 = some .reset := by decide
theorem test_decode_rsPush : decoded 0x1000000003E8FFFF = some (.rsPush 1000 (BitVec.ofInt 16 (-1))) := by decide
theorem test_decode_rsPop : decoded 0x1100000000000000 = some .rsPop := by decide
theorem test_decode_rsMark : decoded 0x1200000000000000 = some .rsMark := by decide
theorem test_decode_pcCheck : decoded 0x2000000000000000 = some .pcCheck := by decide
theorem test_decode_pcAdd : decoded 0x2100000000011250 = some (.pcAdd 70224) := by decide
theorem test_decode_pcCommit : decoded 0x2200000000000000 = some .pcCommit := by decide
theorem test_decode_pcClear : decoded 0x2300000000000000 = some .pcClear := by decide
theorem test_decode_blFrame : decoded 0x3000000000000000 = some .blFrame := by decide
theorem test_decode_fbWr : decoded 0x310000030000F800 = some (.fbWr 3 0xF800) := by decide
theorem test_decode_fbRd : decoded 0x3200000300000000 = some (.fbRd 3) := by decide
theorem test_decode_histRd : decoded 0x3302000700000000 = some (.histRd 2 7) := by decide

/-- The fields of FB_WR's word, bit by bit: OP 00110001, A 0, B 3, D 0xF800 (R101, R102 format X). -/
theorem test_decode_fbWr_bits :
    decoded (0b00110001#8 ++ 0b00000000#8 ++ 0b0000000000000011#16 ++ 0b00000000000000001111100000000000#32) =
      some (.fbWr 3 0xF800) := by decide

theorem test_unassigned_opcodes_refused :
    [0x04, 0x0F, 0x13, 0x24, 0x34, 0xFF].all
      (fun op => rejected (BitVec.ofNat 64 (op * 2 ^ 56)) == some .unassignedOpcode) := by decide

/-- 95 section 2.1: one word for each reserved field of each format. -/
theorem test_reserved_fields_refused :
    ([0x0000000000000001, 0x0000000100000000, 0x0001000000000000, 0x0101000000000001, 0x0101000100000000] ++
      [0x0102FFFF00000000, 0x0300000000000001, 0x1001000000000000, 0x10000001FFFFFFFF, 0x1100000000000001] ++
      [0x1200000100000000, 0x2001000000000000, 0x210000FFFFFFFFFF, 0x2200000000000001, 0x2300010000000000] ++
      [0x3000000000000001, 0x3105000000000000, 0x32000003000000FF, 0x3201000300000000, 0x3301000000000001]).all
      (fun c => rejected c == some Reject.reservedField) := by decide

theorem test_table_word_is_the_command : decodeTableWord 64 0x2100000000011250 = some (.pcAdd 70224) := by decide

/-- R114's pseudo-instructions, with the words of 95 section 2.1. -/
theorem test_assembler_pseudo :
    assembleWords "CLRSTAT" = some [0x02010000000003FF] ∧ assembleWords "SELBE 1" = some [0x0202000000000001] ∧
      assembleWords "SETW 1, 0x80" = some [0x0222000000000080] ∧
      assembleWords "SETGEOM 2, 2, 3" = some [0x0227000000000002, 0x0228000000000002, 0x0229000000000003] ∧
      assembleWords "RDFRAMES" = some [0x0112000000000000, 0x0113000000000000] := by decide

/-- R113: the ends of a sample's range, and a line outside the syntax. -/
theorem test_assembler_ranges :
    assembleWords "RS_PUSH -32768, 32767 ; ends" = some [0x1000000080007FFF] ∧
      assembleWords "RS_PUSH 32768, 0" = none ∧ assembleWords "HIST_RD H5, 0" = none := by decide

/-! ## Arithmetic (95 sections 2.4, 2.5, 2.8) -/

theorem test_mix_rgb565 : mixPixel .rgb565 0x1234 0x0000 = 0x092A := by decide
theorem test_mix_drops_x : mixPixel .xrgb8888 0xAB123456 0xAB123456 = 0x00123456 := by decide
theorem test_lerp_half_rounds_up : lerp 0 1 128 = 1 ∧ lerp 0 1 127 = 0 ∧ lerp 63 0 1 = 63 := by decide
theorem test_cosInterp_negative : cosInterp (-32768) 32767 1 = -32766 ∧ cosInterp 0 (-1) 128 = 0 := by decide
theorem test_sincOut_saturates : sincOut (2 ^ 30) = 32767 := by decide
theorem test_cosw_listed : cosw 1 = 1 ∧ cosw 64 = 4799 ∧ cosw 85 = 8134 ∧ cosw 255 = 32767 := by decide

/-! ## One command at a time -/

/-- 95 section 2.3 W22. -/
theorem test_nop_answers_zero : answer .nop (mid .mix) = some 0 := by decide

/-- 95 section 2.3 W24. -/
theorem test_rdreg_caps :
    answer (.rdreg 0x00) (State.powerOn { Config.chosen with pSincOk := false, pHistAvail := 2, pPixFmt := .xrgb8888 })
      = some 0x14 := by decide

/-- R42, R47: the sinc rate and phase. -/
theorem test_rdreg_rate_and_phase :
    answer (.rdreg 0x04) (mid .off) = some 0xBB80 ∧ answer (.rdreg 0x09) (mid .off) = some 1 := by decide

/-- 95 section 2.3 W9, W11. -/
theorem test_wrreg_ignores_reserved_bits :
    (nextOf (.wrreg 0x22 0x00010100) (State.powerOn cfgB)).bl.w1 = 0x100 ∧
      (nextOf (.wrreg 0x20 7) (State.powerOn cfgB)).bl.mode = .ghostFast := by decide

/-- 95 section 2.6, step 5: the backend switch initialises both backends and keeps OUTQ. -/
theorem test_wrreg_selects_cosine :
    let t := nextOf (.wrreg 0x02 1) (mid .off)
    t.rs.cr = 0xBB80 ∧ t.rs.saccL = [0, 0] ∧ t.rs.outq = [0x04E2FB1E] ∧ t.rs.blkcnt = 3 := by decide

/-- 95 section 2.3 W23, and section 2.10: RESET keeps FB only. -/
theorem test_reset_keeps_fb :
    let t := nextOf .reset (mid .mix)
    t.mem.fb = (mid .mix).mem.fb ∧ t.mem.h1 = [] ∧ t.pc.samples = 0 ∧ t.pc.spf = 0x8928 ∧ t.rs.outq = [] := by decide

/-- 95 section 2.4, push 4 of TC-S1: (4000, -4000) makes (3125, -3125). -/
theorem test_rsPush_sinc :
    let t := nextOf (.rsPush 4000 (BitVec.ofInt 16 (-4000))) (mid .off)
    t.rs.outq = [0x04E2FB1E, 0x0C35F3CB] ∧ t.rs.saccL = [28672000, 0] ∧ t.rs.ph = 0 := by decide

/-- 95 section 2.5, TC-C(1, 2): (2000, -2000) makes (1500, -1500) and (2000, -2000). -/
theorem test_rsPush_cosine :
    let t := nextOf (.rsPush 2000 (BitVec.ofInt 16 (-2000))) midCosine
    t.rs.outq = [0x03E8FC18, 0x05DCFA24, 0x07D0F830] ∧ t.rs.cr = 1 := by decide

theorem test_rsPop_takes_oldest :
    answer .rsPop (mid .off) = some 0x04E2FB1E ∧ (nextOf .rsPop (mid .off)).rs.outq = [] := by decide

/-- R154: an empty OUTQ. -/
theorem test_rsPop_empty_raises_under :
    answer .rsPop (State.powerOn cfgB) = some 0 ∧ (nextOf .rsPop (State.powerOn cfgB)).status = 0x008 := by decide

theorem test_rsMark_zeroes_blkcnt : (nextOf .rsMark (mid .off)).rs.blkcnt = 0 := by decide

/-- 95 section 2.7 PA: FRAMES 1 is below 70224 div 35112 = 2. -/
theorem test_pcCheck_dupe : answer .pcCheck (mid .off) = some 1 ∧ (nextOf .pcCheck (mid .off)).pc.frames = 2 := by
  decide

/-- 95 section 2.7 PM: landing on the multiple is no dupe. -/
theorem test_pcCheck_equal_runs :
    answer .pcCheck { mid .off with pc := { (mid .off).pc with samples := 35112 } } = some 0 := by decide

/-- 95 section 2.7, wrap-around. -/
theorem test_pcAdd_wraps :
    (nextOf (.pcAdd 2) { mid .off with pc := { (mid .off).pc with samples := 0xFFFFFFFFFFFFFFFF } }).pc.samples = 1 := by
  decide

/-- 95 section 2.7 PD: MULT 3. -/
theorem test_pcCommit_adds_mult :
    (nextOf .pcCommit { mid .off with pc := { (mid .off).pc with mult := 3, frames := 0 } }).pc.frames = 3 := by decide

/-- 95 section 2.7 PH. -/
theorem test_pcCommit_without_verdict :
    let t := nextOf .pcCommit (State.powerOn cfgB)
    t.status = 0x020 ∧ t.pc.frames = 0 := by decide

/-- R204: PC_SPF is kept. -/
theorem test_pcClear_keeps_spf :
    let t := nextOf .pcClear { mid .off with pc := { (mid .off).pc with spf := 5 } }
    t.pc.samples = 0 ∧ t.pc.frames = 0 ∧ t.pc.run = false ∧ t.pc.spf = 5 := by decide

/-- 95 section 2.9 B6: weights 256, H1 .. H4 = 0xFFFF, 0, 0, 0x0841, input 0x1234. -/
theorem test_blFrame_ghost_accurate_shifts :
    let s : State :=
      { State.powerOn { cfgB with pFbPixels := 1 } with
        bl := { mode := .ghostAccurate, w1 := 256, w2 := 256, w3 := 256, w4 := 256, width := 1, height := 1, pitch := 1 }
        mem := { fb := [(0, 0x1234)], h1 := [(0, 0xFFFF)], h2 := [], h3 := [], h4 := [(0, 0x0841)] } }
    (nextOf .blFrame s).mem = { fb := [(0, 0x0841)], h1 := [(0, 0x1234)], h2 := [(0, 0xFFFF)], h3 := [], h4 := [] } := by
  decide

/-- 95 section 2.9 B7, second frame: H1 = 0x8410 and white make 0xC618 in FB and H1. -/
theorem test_blFrame_ghost_fast_stores_output :
    let s : State :=
      { State.powerOn { cfgB with pFbPixels := 1 } with
        bl := { (State.powerOn cfgB).bl with mode := .ghostFast, width := 1, height := 1, pitch := 1 }
        mem := { fb := [(0, 0xFFFF)], h1 := [(0, 0x8410)], h2 := [], h3 := [], h4 := [] } }
    (nextOf .blFrame s).mem.fb = [(0, 0xC618)] ∧ (nextOf .blFrame s).mem.h1 = [(0, 0xC618)] := by decide

/-- 95 section 2.10: RGB565 keeps the low 16 bits; cell 16 is outside. -/
theorem test_fbWr_cuts_pixel :
    (nextOf (.fbWr 15 0x12345678) (State.powerOn cfgB)).mem.fb = [(15, 0x5678)] := by decide
theorem test_fbWr_out_of_range : (nextOf (.fbWr 16 1) (State.powerOn cfgB)).status = 0x200 := by decide

/-- 95 section 2.10: XRGB8888 keeps X. -/
theorem test_fbRd_keeps_x :
    answer (.fbRd 0) (nextOf (.fbWr 0 0xAB123456) (State.powerOn { cfgB with pPixFmt := .xrgb8888 })) =
      some 0xAB123456 := by decide

/-- 95 section 2.11. -/
theorem test_fbRd_unwritten_faults : exec (.fbRd 0) (State.powerOn cfgB) = .fault (.fbCellUnwritten 0) := rfl

/-- 95 section 2.10: a present cell that nothing has changed reads 0 and raises nothing; H5 does not exist. -/
theorem test_histRd_fresh_cell :
    answer (.histRd 4 15) (State.powerOn cfgB) = some 0 ∧ (nextOf (.histRd 4 15) (State.powerOn cfgB)).status = 0 := by
  decide
theorem test_histRd_absent_memory : (nextOf (.histRd 5 0) (State.powerOn cfgB)).status = 0x200 := by decide

/-- A word delivered at reset is the next command run (R31; log entry 4). -/
theorem test_step_runs_delivered_word :
    ((after (step (State.reset.withFetchWord 64 0x2100000000011250))).map fun t => (t.pc.samples, t.cmds, t.resps)) =
      some (70224, [], [0]) := by decide

/-! ## Witnesses: states and operands that meet the hypotheses of each statement -/

theorem mid_inv (k : BlendKind) : (mid k).Inv where
  build := by cases k <;> decide
  outq := by cases k <;> decide
  lenL := by cases k <;> decide
  lenR := by cases k <;> decide
  phase := by cases k <;> decide
  accL := by cases k <;> (unfold accsBounded; decide)
  accR := by cases k <;> (unfold accsBounded; decide)
  cosPhase := by cases k <;> decide
  spf := by cases k <;> decide
  mult := by cases k <;> decide
  verdict := by cases k <;> decide
  weights := by cases k <;> decide
  memories := by intro sp; cases sp <;> cases k <;> decide
  cells := by intro sp; cases sp <;> cases k <;> decide
  absent := by
    intro j h1 h4 h
    have : 4 < j := h
    omega

theorem midCosine_inv : midCosine.Inv where
  build := by decide
  outq := by decide
  lenL := by decide
  lenR := by decide
  phase := by decide
  accL := by unfold accsBounded; decide
  accR := by unfold accsBounded; decide
  cosPhase := by decide
  spf := by decide
  mult := by decide
  verdict := by decide
  weights := by decide
  memories := by intro sp; cases sp <;> decide
  cells := by intro sp; cases sp <;> decide
  absent := by
    intro j h1 h4 h
    have : 4 < j := h
    omega

/-- `mid` at the last phase with OUTQ full. -/
def midFull : State :=
  { mid .off with
    rs := { (mid .off).rs with outq := [1, 2, 3, 4] } }

theorem midFull_inv : midFull.Inv where
  build := by decide
  outq := by decide
  lenL := by decide
  lenR := by decide
  phase := by decide
  accL := by unfold accsBounded; decide
  accR := by unfold accsBounded; decide
  cosPhase := by decide
  spf := by decide
  mult := by decide
  verdict := by decide
  weights := by decide
  memories := by intro sp; cases sp <;> decide
  cells := by intro sp; cases sp <;> decide
  absent := by
    intro j h1 h4 h
    have : 4 < j := h
    omega

/-- Any state of a legal build is one after power-on of that build: the invariant's witness with nothing done yet. -/
theorem powerOn_inv : (State.powerOn cfgS).Inv where
  build := by decide
  outq := by decide
  lenL := by decide
  lenR := by decide
  phase := by decide
  accL := by unfold accsBounded; decide
  accR := by unfold accsBounded; decide
  cosPhase := by decide
  spf := by decide
  mult := by decide
  verdict := by decide
  weights := by decide
  memories := by intro sp; cases sp <;> decide
  cells := by intro sp; cases sp <;> decide
  absent := by
    intro j h1 h4 h
    have : 4 < j := h
    omega

/-- OperandsStandWhereSaid: operands at the ends of their ranges, in words written out. -/
theorem witness_operands_at_ends :
    decoded 0x01FF000000000000 = some (.rdreg 0xFF) ∧ decoded 0x02FF0000FFFFFFFF = some (.wrreg 0xFF 0xFFFFFFFF) ∧
      decoded 0x1000000080007FFF = some (.rsPush (BitVec.ofInt 16 (-32768)) 32767) ∧
      decoded 0x21000000FFFFFFFF = some (.pcAdd 0xFFFFFFFF) ∧
      decoded 0x3100FFFFFFFFFFFF = some (.fbWr 0xFFFF 0xFFFFFFFF) ∧
      decoded 0x3200FFFF00000000 = some (.fbRd 0xFFFF) ∧
      decoded 0x33FFFFFF00000000 = some (.histRd 0xFF 0xFFFF) := by decide

/-- StepRunsDecodedCommand. -/
theorem witness_step_runs : ∃ (s : State) (c : Command) (rest : List Command) (i : Instr),
      s.cfg.legal = true ∧ s.cmds = c :: rest ∧ decode c = .ok i :=
  ⟨{ mid .off with cmds := [0x1100000000000000, 0x1200000000000000] }, 0x1100000000000000, [0x1200000000000000], .rsPop,
    by decide, rfl, rfl⟩

/-- IllegalWordRaisesIllegalOnly: an unassigned opcode and a reserved field. -/
theorem witness_illegal_words :
    (∃ (s : State) (c : Command) (rest : List Command),
        s.cfg.legal = true ∧ s.cmds = c :: rest ∧ decode c = .error .unassignedOpcode) ∧
      ∃ (s : State) (c : Command) (rest : List Command),
        s.cfg.legal = true ∧ s.cmds = c :: rest ∧ decode c = .error .reservedField :=
  ⟨⟨{ mid .off with cmds := [0x0400000000000000] }, 0x0400000000000000, [], by decide, rfl, rfl⟩,
    ⟨{ mid .off with cmds := [0x0300000000000001] }, 0x0300000000000001, [], by decide, rfl, rfl⟩⟩

/-- WaitsUnchangedWithoutCommand. -/
theorem witness_waits :
    (mid .off).cfg.legal = true ∧ (mid .off).cmds = [] ∧
      (State.powerOn { cfgS with pQ := 0 }).cfg.legal = false := by decide

/-- OnlyUnwrittenCellsStopACommand, its BL_FRAME clause: the last active cell never written, under a geometry that fills
the memory exactly. -/
theorem witness_unwritten_frame (k : BlendKind) (hk : k ≠ .off) :
    let s : State := { mid k with mem := { (mid k).mem with fb := [(0, 0xFFFF), (1, 0xF800), (2, 0x07E0)] } }
    effMode s ≠ .off ∧ geomValid s = true ∧ 3 ∈ activeCells s.bl ∧ memRead .fb 3 s = none := by
  revert hk
  cases k <;> decide

/-- PowerOnMeetsInvariant: a clean start state whose FB holds values (R303), with words to be delivered. -/
theorem witness_clean : ∃ s : State, s.cfg.legal = true ∧ s.clean ∧ s.mem.fb ≠ [] ∧ s.cmds ≠ [] :=
  ⟨{ State.powerOn cfgS with
      mem := { (State.powerOn cfgS).mem with fb := [(0, 0xFFFF), (3, 0x0000)] }
      cmds := [0x3200000300000000] },
    by decide, ⟨rfl, by decide, by decide, by decide⟩, by decide, by decide⟩

/-- OneResponsePerCommand: a command with a response of its own, and one that answers 0. -/
theorem witness_responses :
    (∃ t, exec .rsPop (mid .off) = .next t ∧ t.resps = [0x04E2FB1E]) ∧
      (∃ t, exec .rsMark (mid .off) = .next t ∧ t.resps = [0]) ∧ respondsValue .rsMark = false :=
  ⟨⟨_, rfl, rfl⟩, ⟨_, rfl, rfl⟩, rfl⟩

/-- The invariant says nothing of the command port. -/
theorem inv_of_pending {s : State} (h : s.Inv) (cs : List Command) : ({ s with cmds := cs } : State).Inv :=
  ⟨h.build, h.outq, h.lenL, h.lenR, h.phase, h.accL, h.accR, h.cosPhase, h.spf, h.mult, h.verdict, h.weights,
    h.memories, h.cells, h.absent⟩

/-- StepKeepsInvariant: a step that runs RS_MARK. -/
theorem witness_inv_step : ∃ s t : State, s.Inv ∧ step s = .next t ∧ t.rs.blkcnt ≠ s.rs.blkcnt :=
  ⟨{ mid .mix with cmds := [0x1200000000000000] }, nextOf .rsMark (mid .mix), inv_of_pending (mid_inv .mix) _, rfl,
    by decide⟩

/-- AtMostOneOwnErrorPerCommand: OVF newly set by a push. -/
theorem witness_new_error :
    midFull.flag .ovf = false ∧ (nextOf (.rsPush 0 0) midFull).flag .ovf = true ∧
      (after (exec (.rsPush 0 0) midFull)).isSome = true := by decide

/-- StatusBitsAreSticky: a set bit kept by a command, cleared by a STATUS write. -/
theorem witness_sticky :
    let s : State := { mid .off with status := 0x208 }
    s.flag .under = true ∧ (nextOf .rsPop s).flag .under = true ∧ (nextOf (.wrreg 0x01 0x008) s).flag .under = false ∧
      (nextOf (.wrreg 0x01 0x008) s).flag .range = true := by decide

/-- NopChangesNothing: a NOP word with a field not 0. -/
theorem witness_nop_words : (0x00FFFFFFFFFFFFFF : Command).toNat / 2 ^ 56 = 0 ∧ (0x00FFFFFFFFFFFFFF : Command) ≠ 0 := by
  decide

/-- RegistersReadTheirValues: a legal build, with the sinc backend in effect and with the cosine one. -/
theorem witness_legal_states :
    (mid .ghostAccurate).cfg.legal = true ∧ effBackend (mid .ghostAccurate) = .sinc ∧ midCosine.cfg.legal = true ∧
      effBackend midCosine = .cosine := by decide

/-- UnassignedRegistersRaiseIllegal: the ends of the three ranges. -/
theorem witness_unassigned_registers :
    ([0x0A, 0x0F, 0x17, 0x1F, 0x2A, 0xFF] : List (BitVec 8)).all
      (fun n =>
        decide ((0x0A ≤ n.toNat ∧ n.toNat ≤ 0x0F) ∨ (0x17 ≤ n.toNat ∧ n.toNat ≤ 0x1F) ∨ 0x2A ≤ n.toNat)) := by decide

/-- ReadOnlyRegistersRefuseWrites: the first and the last number of the list. -/
theorem witness_read_only_registers :
    (0x00 : BitVec 8) ∈ ([0x00, 0x03, 0x04, 0x05, 0x07, 0x09, 0x10, 0x11, 0x12, 0x13, 0x16, 0x21, 0x26] : List (BitVec 8)) ∧
      (0x26 : BitVec 8) ∈ ([0x00, 0x03, 0x04, 0x05, 0x07, 0x09, 0x10, 0x11, 0x12, 0x13, 0x16, 0x21, 0x26] : List (BitVec 8)) := by
  decide

/-- BackendSelectionWrite has no hypotheses; its three cases: a fallback notice, no change, and a change. -/
theorem witness_backend_selection :
    (nextOf (.wrreg 0x02 0) (State.powerOn cfgLean)).status = 0x010 ∧
      (nextOf (.wrreg 0x02 0) (mid .off)).rs = (mid .off).rs ∧
      (nextOf (.wrreg 0x02 1) (mid .off)).rs.saccL ≠ (mid .off).rs.saccL := by decide

/-- PlainRegisterWrites: values at the ends of each clause's range. -/
theorem witness_plain_values :
    (0xFFFFFFFF : Word) ≠ 0 ∧ (8 : Word).toNat % 8 ∈ [0, 6, 7] ∧ (6 : Word).toNat % 8 ∈ [0, 6, 7] ∧
      (7 : Word).toNat % 8 ∈ [0, 6, 7] ∧ (1 : Word).toNat % 8 ∈ [1, 2, 3, 4, 5] ∧
      (13 : Word).toNat % 8 ∈ [1, 2, 3, 4, 5] ∧ 0x0100 < (0x0101 : Word).toNat % 2 ^ 16 ∧
      0x0100 < (0xFFFF : Word).toNat % 2 ^ 16 ∧ (0x00010100 : Word).toNat % 2 ^ 16 ≤ 0x0100 := by decide

/-- BlendModeWrite: the mode kept, the mode changed with enough history, and with too little. -/
theorem witness_blend_modes :
    (mid .mix).bl.mode = .mix ∧ (BlendKind.ghostAccurate ≠ (mid .mix).bl.mode ∧ ¬4 > (mid .mix).cfg.pHistAvail) ∧
      (BlendKind.ghostAccurate ≠ (State.powerOn cfgLean).bl.mode ∧ 4 > (State.powerOn cfgLean).cfg.pHistAvail) := by
  decide

/-- GeometryWrites: a value kept (its upper half is ignored), and one changed. -/
theorem witness_geometry_values :
    BitVec.ofNat 16 ((0x00050002 : Word).toNat % 2 ^ 16) = (mid .mix).bl.width ∧
      BitVec.ofNat 16 ((3 : Word).toNat % 2 ^ 16) ≠ (mid .mix).bl.pitch := by decide

/-- EqualValueWriteHasNoEffect. -/
theorem witness_equal_value : ∃ s : State, s.Inv ∧ readReg .blWidth s = 2 ∧ readReg .rsCtrl s = 0 :=
  ⟨mid .mix, mid_inv .mix, by decide⟩

/-- 95 section 2.2 (b) and (c): CAPS after power-on. -/
theorem test_reset_caps :
    answer (.rdreg 0x00) (State.powerOn cfgS) = some 0x9 ∧
      answer (.rdreg 0x00) (State.powerOn { cfgS with pSincOk := false }) = some 0x8 := by decide

/-- ResetTableReadsBack: power-on, and RESET in the middle of a run. -/
theorem witness_reset_states :
    (∃ s₀ s : State, s₀.cfg.legal = true ∧ s = State.powerOn s₀.cfg) ∧
      ∃ s₀ s : State, s₀.cfg.legal = true ∧ exec .reset s₀ = .next s ∧ s.mem.fb ≠ [] :=
  ⟨⟨mid .mix, _, by decide, rfl⟩, ⟨mid .mix, _, by decide, rfl, by decide⟩⟩

/-- PushAtCapDropsPair: at the cap (with the drop counter at its end), and one below it. -/
theorem witness_cap :
    let s : State := { mid .off with rs := { (mid .off).rs with blkcnt := 8, dropcnt := 0xFFFFFFFF } }
    let t : State := { mid .off with rs := { (mid .off).rs with blkcnt := 7 } }
    s.rs.cap.toNat ≤ s.rs.blkcnt.toNat ∧ t.rs.blkcnt.toNat < t.rs.cap.toNat ∧
      (nextOf (.rsPush 1 1) s).rs.dropcnt = 0xFFFFFFFF := by decide

/-- AcceptedPushFrame: with each backend in effect. -/
theorem witness_accepted_push :
    ((mid .off).rs.blkcnt.toNat < (mid .off).rs.cap.toNat ∧
        ((mid .off).rs.sel = .sinc ∧ (mid .off).cfg.pSincOk = true)) ∧
      (midCosine.rs.blkcnt.toNat < midCosine.rs.cap.toNat ∧
        ¬(midCosine.rs.sel = .sinc ∧ midCosine.cfg.pSincOk = true)) := by decide

/-- SincPushStep: a middle phase; the last phase with room in OUTQ; the last phase with OUTQ full. -/
theorem witness_sinc_push :
    (∃ s : State, s.Inv ∧ s.rs.blkcnt.toNat < s.rs.cap.toNat ∧ s.rs.sel = .sinc ∧ s.cfg.pSincOk = true ∧
        s.rs.ph + 1 < s.cfg.pD) ∧
      (∃ s : State, s.Inv ∧ s.rs.blkcnt.toNat < s.rs.cap.toNat ∧ s.rs.sel = .sinc ∧ s.cfg.pSincOk = true ∧
        s.rs.ph + 1 = s.cfg.pD ∧ s.rs.outq.length < s.cfg.pQ) ∧
      ∃ s : State, s.Inv ∧ s.rs.blkcnt.toNat < s.rs.cap.toNat ∧ s.rs.sel = .sinc ∧ s.cfg.pSincOk = true ∧
        s.rs.ph + 1 = s.cfg.pD ∧ s.rs.outq.length = s.cfg.pQ :=
  ⟨⟨State.powerOn cfgS, powerOn_inv, by decide⟩, ⟨mid .off, mid_inv .off, by decide⟩, ⟨midFull, midFull_inv, by decide⟩⟩

/-- SincRoundsToNearestAndSaturates: sums on both sides of each clamp. -/
theorem witness_sinc_rounding :
    sincOut (32767 * 32768 - 16385) < 32767 ∧ -32768 < sincOut (-32768 * 32768 + 16384) ∧
      sincOut (32767 * 32768 + 16384) = 32767 ∧ sincOut (-32768 * 32768 - 16385) = -32768 := by decide

/-- SincStreamIsFirDecimation: three pushes from a fresh TC-S1, which make one pair; OUTQ holds exactly that much more. -/
theorem witness_sinc_stream :
    ∃ (s : State) (xs : List (Sample × Sample)),
      s.cfg.legal = true ∧ s.rs.sel = .sinc ∧ s.cfg.pSincOk = true ∧ backendsFresh s ∧
        s.rs.blkcnt.toNat + xs.length ≤ s.rs.cap.toNat ∧ s.rs.outq.length + xs.length / s.cfg.pD ≤ s.cfg.pQ ∧
        xs.length = 3 :=
  let s := State.powerOn cfgS
  ⟨{ s with rs := { s.rs with outq := [1, 2, 3], cap := 3 } }, [(1000, 1), (2000, 2), (3000, 3)], by decide, rfl, rfl, rfl,
    by decide, by decide, rfl⟩

/-- SincUnityDcGain: the kernel of 95 section 2.4's DC gain, and its first output. -/
theorem witness_dc_gain :
    let c : Config := { cfgS with pD := 3, pT := 1, pHp := [10923, 10923, 10922], pFi := 48000, pFo := 16000 }
    c.legal = true ∧ (c.pHp.map BitVec.toInt).sum = 32768 ∧ c.pT - 1 ≤ 0 ∧ (0 + 1) * c.pD ≤ 3 ∧
      sincY c (List.replicate 3 (BitVec.ofInt 16 (-32768))) 0 = -32768 := by decide

/-- CosineInterpolatesBetween: the ends of the index range. -/
theorem witness_cosine_index :
    cosInterp (-32768) 32767 0 = -32768 ∧ cosInterp (-32768) 32767 256 = 32767 ∧ cosw 255 < cosw 256 := by decide

/-- CosinePushStep: a push that makes pairs, and one that makes none (CR past P_FO). -/
theorem witness_cosine_push :
    (∃ s : State, s.Inv ∧ s.rs.blkcnt.toNat < s.rs.cap.toNat ∧ ¬(s.rs.sel = .sinc ∧ s.cfg.pSincOk = true) ∧
        s.rs.cr.toNat ≤ s.cfg.pFo ∧ s.rs.outq.length + 2 ≤ s.cfg.pQ) ∧
      ∃ s : State, s.cfg.pFo < s.rs.cr.toNat ∧ s.rs.cr.toNat ≤ s.cfg.pFi ∧ effBackend s = .cosine :=
  ⟨⟨midCosine, midCosine_inv, by decide⟩,
    ⟨nextOf (.rsPush 300 0) (State.powerOn (cfgC 3 2)), by decide⟩⟩

/-- CosineStreamIsOnTime: two pushes at ratio 1 : 2, which make three pairs. -/
theorem witness_cosine_stream :
    ∃ (s : State) (xs : List (Sample × Sample)),
      s.cfg.legal = true ∧ ¬(s.rs.sel = .sinc ∧ s.cfg.pSincOk = true) ∧ backendsFresh s ∧
        s.rs.blkcnt.toNat + xs.length ≤ s.rs.cap.toNat ∧ s.rs.outq.length + cosCount s.cfg xs.length ≤ s.cfg.pQ ∧
        cosCount s.cfg xs.length = 3 :=
  ⟨State.powerOn { cfgC 1 2 with pQ := 3 }, [(1000, 1), (2000, 2)], by decide, by decide, rfl, by decide, by decide,
    by decide⟩

/-- BlocksDoNotShiftTheStream: two blocks that together reach the cap. -/
theorem witness_blocks :
    (mid .off).rs.blkcnt.toNat + [((1 : Sample), (1 : Sample)), (2, 2), (3, 3)].length +
      [((4 : Sample), (4 : Sample)), (5, 5)].length ≤ (mid .off).rs.cap.toNat := by decide

/-- PopAndMark: an empty OUTQ, and one with a pair. -/
theorem witness_pop : (State.powerOn cfgS).rs.outq = [] ∧ (mid .off).rs.outq = 0x04E2FB1E :: [] := by decide

/-- CheckGivesVerdict: one frame short, and exactly caught up. -/
theorem witness_check :
    let s : State := { mid .off with pc := { (mid .off).pc with frames := 2 } }
    (mid .off).pc.frames.toNat < (mid .off).pc.samples.toNat / (mid .off).pc.spf.toNat ∧
      s.pc.samples.toNat / s.pc.spf.toNat ≤ s.pc.frames.toNat := by decide

/-- CommitAddsMultiplier: with a run verdict outstanding, and without. -/
theorem witness_commit : (mid .off).pc.run = true ∧ (State.powerOn cfgS).pc.run = false := by decide

/-- DupesUntilCaughtUp: one frame short, and with nothing due. -/
theorem witness_dupes :
    (∃ s : State, s.Inv ∧ s.pc.samples.toNat / s.pc.spf.toNat + s.pc.mult.toNat ≤ 2 ^ 64 ∧
        s.pc.frames.toNat + 1 = s.pc.samples.toNat / s.pc.spf.toNat) ∧
      ∃ s : State, s.Inv ∧ s.pc.samples.toNat / s.pc.spf.toNat + s.pc.mult.toNat ≤ 2 ^ 64 ∧ s.pc.samples = 0 :=
  ⟨⟨mid .off, mid_inv .off, by decide⟩, ⟨State.powerOn cfgS, powerOn_inv, by decide⟩⟩

/-- VerdictBoundsFrames, and both clauses of EveryTickAddsMultiplier: a run verdict and a dupe verdict. -/
theorem witness_verdicts :
    (∃ s t, exec .pcCheck s = .next t ∧ t.resps = s.resps ++ [0]) ∧
      ∃ s t, exec .pcCheck s = .next t ∧ t.resps = s.resps ++ [1] :=
  ⟨⟨State.powerOn cfgS, nextOf .pcCheck (State.powerOn cfgS), rfl, rfl⟩,
    ⟨mid .off, nextOf .pcCheck (mid .off), rfl, rfl⟩⟩

/-- EveryTickAddsMultiplier: a tick with a body. -/
theorem witness_run_tick :
    ∃ (s t u : State) (body : List Instr), exec .pcCheck s = .next t ∧ t.resps = s.resps ++ [0] ∧
      (∀ i ∈ body, i ≠ .pcCheck ∧ i ≠ .pcCommit ∧ i ≠ .pcClear ∧ i ≠ .reset ∧ ∀ v, i ≠ .wrreg 0x15 v) ∧
      execAll body t = .next u ∧ u.pc.samples = 70224 :=
  ⟨State.powerOn cfgS, nextOf .pcCheck (State.powerOn cfgS),
    nextOf (.pcAdd 70224) (nextOf .rsMark (nextOf .pcCheck (State.powerOn cfgS))), [.rsMark, .pcAdd 70224], rfl, by decide,
    by simp, rfl, by decide⟩

/-- PacerStateChangesOnlyByItsCommands: each piece of the pacer's state is changed by some command. -/
theorem witness_pacer_changes :
    (nextOf (.pcAdd 1) (mid .off)).pc.samples ≠ (mid .off).pc.samples ∧
      (nextOf .pcCommit (mid .off)).pc.frames ≠ (mid .off).pc.frames ∧
      (nextOf .pcCheck (mid .off)).pc.lastDupe ≠ (mid .off).pc.lastDupe ∧
      (nextOf .pcCommit (mid .off)).pc.run ≠ (mid .off).pc.run ∧
      (nextOf (.wrreg 0x14 1) (mid .off)).pc.spf ≠ (mid .off).pc.spf ∧
      (nextOf (.wrreg 0x15 5) (mid .off)).pc.mult ≠ (mid .off).pc.mult := by decide

/-- MixAgreesWithPackedForm: the largest RGB565 pixels. -/
theorem witness_mix : (0xFFFF : Pixel).toNat < 2 ^ 16 ∧ mixPixel .rgb565 0xFFFF 0xFFFF = 0xFFFF := by decide

/-- LerpStaysBetween: weights at both ends. -/
theorem witness_lerp :
    lerp 5 9 0 = 5 ∧ lerp 5 9 256 = 9 ∧ lerp 0 255 129 = 128 ∧ clamp (lerp 0 255 129) 0 255 = 128 := by decide

/-- GhostFiltersChainLerp: weights at the end of their range, and a legal build of each pixel format. -/
theorem witness_ghost_filters :
    (∃ b : Blender, b.w1.toNat ≤ 0x100 ∧ b.w2.toNat ≤ 0x100 ∧ b.w3.toNat ≤ 0x100 ∧ b.w4.toNat ≤ 0x100 ∧
        b.w1.toNat = 0x100) ∧
      ∃ c : Config, c.legal = true ∧ c.pPixFmt = .xrgb8888 :=
  ⟨⟨{ (mid .off).bl with w1 := 0x100 }, by decide⟩, ⟨{ cfgB with pPixFmt := .xrgb8888 }, by decide⟩⟩

/-- FramePassesThroughOrRefusesGeometry: mode none; a mode without its memories; and one geometry for each way of
being invalid, each one step from valid (95 section 2.10). -/
theorem witness_frame_refused :
    let memories : BlendKind → Nat := fun m => match m with | .off => 0 | .mix => 1 | .ghostAccurate => 4 | .ghostFast => 1
    let invalid (w h pitch : Nat) : Bool := !decide (1 ≤ w ∧ 1 ≤ h ∧ w ≤ pitch ∧ (h - 1) * pitch + w ≤ 16)
    (mid .off).bl.mode = .off ∧
      ({ State.powerOn cfgLean with bl := (mid .ghostAccurate).bl }).cfg.pHistAvail < memories .ghostAccurate ∧
      ((mid .mix).bl.mode ≠ .off ∧ memories .mix ≤ (mid .mix).cfg.pHistAvail) ∧
      invalid 0 4 4 ∧ invalid 4 0 4 ∧ invalid 3 1 2 ∧ invalid 3 3 7 ∧ !invalid 4 4 4 := by decide

/-- ValidGeometryKeepsCellsInside: a frame that fills the memory exactly (the invalid side is in
witness_frame_refused). -/
theorem witness_geometry : geomValid (mid .mix) = true ∧ activeCells (mid .mix).bl = [0, 1, 2, 3] := by decide

/-- FrameInModeMix, FrameInModeGhostAccurate, FrameInModeGhostFast: the premises, with a cell read for every one of the
inner premises. -/
theorem witness_frames (k : BlendKind) (hk : k ≠ .off) :
    (mid k).Inv ∧ effMode (mid k) = k ∧ geomValid (mid k) = true ∧ frameWritten (mid k) ∧
      2 ∈ activeCells (mid k).bl ∧ memRead .fb 2 (mid k) = some 0x07E0 ∧ memRead .h1 2 (mid k) = some 0x0841 ∧
      memRead .h2 2 (mid k) = some 0 ∧ memRead .h3 2 (mid k) = some 0 ∧ memRead .h4 2 (mid k) = some 0 := by
  refine ⟨mid_inv k, ?_⟩
  revert hk
  unfold frameWritten
  cases k <;> decide

/-- GhostResidueAndZeroWeights: each clause at the ends of its ranges. -/
theorem witness_residue :
    (lerp 0 (0 + 1) 128 = 0 + 1 ∧ (1 : Int) * (256 - 128) ≤ 128) ∧ lerp 0 (0 + 2) 128 ≠ 0 + 2 ∧
      ((0 : Int) < 1 ∧ (128 : Int) ≤ 1 * (256 - 128)) ∧ (0xFFFF : Pixel).toNat < 2 ^ cellWidth .rgb565 ∧
      ({ cfgB with pWf := 0 } : Config).pWf = 0 := by decide

/-- The frame after one BL_FRAME of `mid .mix`, with the frame written again. -/
def mixedAgain : State :=
  { nextOf .blFrame (mid .mix) with
    mem := { (nextOf .blFrame (mid .mix)).mem with fb := (mid .mix).mem.fb } }

theorem mixedAgain_inv : mixedAgain.Inv where
  build := by decide
  outq := by decide
  lenL := by decide
  lenR := by decide
  phase := by decide
  accL := by unfold accsBounded; decide
  accR := by unfold accsBounded; decide
  cosPhase := by decide
  spf := by decide
  mult := by decide
  verdict := by decide
  weights := by decide
  memories := by intro sp; cases sp <;> decide
  cells := by intro sp; cases sp <;> decide
  absent := by
    intro j h1 h4 h
    have : 4 < j := h
    omega

/-- MixOfRepeatedFrameIsTheFrame. -/
theorem witness_repeated_frame :
    ∃ s t u v : State, s.Inv ∧ effMode s = .mix ∧ geomValid s = true ∧ exec .blFrame s = .next t ∧ u.Inv ∧
      u.cfg = t.cfg ∧ u.bl = t.bl ∧ u.mem.h1 = t.mem.h1 ∧
      (∀ i ∈ activeCells s.bl, memRead .fb i u = memRead .fb i s) ∧ exec .blFrame u = .next v ∧
      3 ∈ activeCells s.bl ∧ memRead .fb 3 s = some 0 :=
  ⟨mid .mix, nextOf .blFrame (mid .mix), mixedAgain, nextOf .blFrame mixedAgain, mid_inv .mix, by decide, by decide, rfl,
    mixedAgain_inv, rfl, rfl, rfl, by decide, rfl, by decide, by decide⟩

/-- FrameCellWrite and FrameCellRead: the last cell and the first index outside, a written and an unwritten cell. -/
theorem witness_cells :
    (mid .off).cfg.pFbPixels ≤ (4 : BitVec 16).toNat ∧ (3 : BitVec 16).toNat < (mid .off).cfg.pFbPixels ∧
      memRead .fb (3 : BitVec 16).toNat (mid .off) = some 0 ∧
      memRead .fb (3 : BitVec 16).toNat (State.powerOn cfgS) = none := by decide

/-- HistoryCellRead: the memory numbers and the index at the ends of their ranges. -/
theorem witness_history_cells :
    let c := (mid .off).cfg
    c.legal = true ∧ (0 : BitVec 8).toNat < 1 ∧ c.pHistAvail < (5 : BitVec 8).toNat ∧
      c.pFbPixels ≤ (4 : BitVec 16).toNat ∧ 1 ≤ (1 : BitVec 8).toNat ∧ (4 : BitVec 8).toNat ≤ c.pHistAvail ∧
      (3 : BitVec 16).toNat < c.pFbPixels := by decide

/-- CellsChangeOnlyByTheirCommands: an FB cell changed by FB_WR, a history cell by BL_FRAME and by a write of
BL_CTRL. -/
theorem witness_cells_change :
    memRead .fb 0 (nextOf (.fbWr 0 1) (mid .mix)) ≠ memRead .fb 0 (mid .mix) ∧
      memRead .h1 1 (nextOf .blFrame (mid .mix)) ≠ memRead .h1 1 (mid .mix) ∧
      memRead .h1 0 (nextOf (.wrreg 0x20 3) (mid .mix)) ≠ memRead .h1 0 (mid .mix) := by decide

/-- DutifulCommandsRaiseNothing: every command but WRREG and RESET can be sent in keeping with the duties. -/
theorem witness_dutiful :
    (mid .mix).Inv ∧
      ∀ i ∈
        ([.nop, .rdreg 0x29, .rsPush 0x7FFF 0, .rsPop, .rsMark, .pcCheck, .pcAdd 0xFFFFFFFF] ++
          [.pcCommit, .pcClear, .blFrame, .fbWr 3 0, .fbRd 3, .histRd 4 3] : List Instr),
        (mid .mix).dutiful i := by
  refine ⟨mid_inv .mix, ?_⟩
  simp only [List.cons_append, List.nil_append, List.forall_mem_cons, State.dutiful, frameWritten]
  and_intros <;> first | decide | simp

end Sys2Proof.Tests
end

/-! SUPPORT and PROOF (O11). The invariant of the block's state, part by part: the resampler, the pacer, the weights
and the memories each have an invariant of their own, every operation keeps the parts it touches, and so every step
keeps the whole. -/

namespace Sys2Proof.Machine

/-! ## The parts of the invariant -/

/-- What the invariant says of one channel's accumulators at sinc phase `p` (R48, R163). -/
structure ChannelInv (c : Config) (p : Nat) (accs : List Acc) : Prop where
  length : accs.length = c.pT
  bounded : accsBounded c p accs

/-- What the invariant says of the resampler of a build (R48, R85, R163, R175). -/
structure Resampler.Inv (c : Config) (r : Resampler) : Prop where
  outq : r.outq.length ≤ c.pQ
  phase : r.ph < c.pD
  left : ChannelInv c r.ph r.saccL
  right : ChannelInv c r.ph r.saccR
  cosPhase : r.cr.toNat = c.pFo ∨ (1 ≤ r.cr.toNat ∧ r.cr.toNat ≤ c.pFi)

/-- What the invariant says of the pacer (R56, R57, R201). -/
structure Pacer.Inv (p : Pacer) : Prop where
  spf : 1 ≤ p.spf.toNat
  mult : 1 ≤ p.mult.toNat ∧ p.mult.toNat ≤ 5
  verdict : ¬(p.lastDupe = true ∧ p.run = true)

/-- What the invariant says of the blender's registers (R60). -/
def Blender.Inv (b : Blender) : Prop :=
  b.w1.toNat ≤ 0x100 ∧ b.w2.toNat ≤ 0x100 ∧ b.w3.toNat ≤ 0x100 ∧ b.w4.toNat ≤ 0x100

/-- The number of a history memory (R83), and 0 for FB, which every build has. -/
def Space.number : Space → Nat
  | .fb => 0
  | .h1 => 1
  | .h2 => 2
  | .h3 => 3
  | .h4 => 4

/-- What the invariant says of one memory of a build (R80, R83). -/
structure MemoryInv (c : Config) (sp : Space) (m : Memory) : Prop where
  canonical : Memory.wf sp.unlisted m = true
  cells : cellsFit c m = true
  absent : c.pHistAvail < sp.number → m = []

/-- No clause bears on SEL, RS_CAP or the two counters. -/
theorem Resampler.Inv.with_settings {c : Config} {r : Resampler} (h : r.Inv c) (sel : Backend)
    (cap blkcnt dropcnt : Word) :
    Resampler.Inv c { r with sel := sel, cap := cap, blkcnt := blkcnt, dropcnt := dropcnt } :=
  ⟨h.outq, h.phase, h.left, h.right, h.cosPhase⟩

/-- No clause bears on SAMPLES or FRAMES, and the two verdicts take any values that are not both 1. -/
theorem Pacer.Inv.with_tick {p : Pacer} (h : p.Inv) (samples frames : BitVec 64) (dupe run : Bool)
    (hv : ¬(dupe = true ∧ run = true)) :
    Pacer.Inv { p with samples := samples, frames := frames, lastDupe := dupe, run := run } :=
  ⟨h.spf, h.mult, hv⟩

theorem histSpace_number (sp : Space) (h : 1 ≤ sp.number) : histSpace sp.number = sp := by
  cases sp <;> first | rfl | exact absurd h (by decide)

theorem number_histSpace {j : Nat} (h₁ : 1 ≤ j) (h₄ : j ≤ 4) : (histSpace j).number = j := by
  obtain rfl | rfl | rfl | rfl : j = 1 ∨ j = 2 ∨ j = 3 ∨ j = 4 := by omega
  all_goals rfl

theorem number_le_four (sp : Space) : sp.number ≤ 4 := by cases sp <;> decide

/-- The memory of a space depends on the cell memories alone. -/
theorem memory_congr {s t : State} (h : t.mem = s.mem) (sp : Space) : t.memory sp = s.memory sp := by
  cases sp <;> simp only [State.memory, h]

/-- The invariant is the legality of the build and the invariants of the parts. -/
theorem inv_iff {s : State} :
    s.Inv ↔ s.cfg.legal = true ∧ s.rs.Inv s.cfg ∧ s.pc.Inv ∧ s.bl.Inv ∧ ∀ sp, MemoryInv s.cfg sp (s.memory sp) := by
  constructor
  · intro h
    refine ⟨h.build, ⟨h.outq, h.phase, ⟨h.lenL, h.accL⟩, ⟨h.lenR, h.accR⟩, h.cosPhase⟩,
      ⟨h.spf, h.mult, h.verdict⟩, h.weights, fun sp => ⟨h.memories sp, h.cells sp, fun ha => ?_⟩⟩
    have hj : 1 ≤ sp.number := by omega
    rw [← histSpace_number sp hj]
    exact h.absent _ hj (number_le_four sp) ha
  · rintro ⟨hb, hrs, hpc, hbl, hm⟩
    exact
      { build := hb, outq := hrs.outq, phase := hrs.phase, cosPhase := hrs.cosPhase
        lenL := hrs.left.length, lenR := hrs.right.length, accL := hrs.left.bounded, accR := hrs.right.bounded
        spf := hpc.spf, mult := hpc.mult, verdict := hpc.verdict, weights := hbl
        memories := fun sp => (hm sp).canonical, cells := fun sp => (hm sp).cells
        absent := fun j h₁ h₄ ha => (hm _).absent (by rwa [number_histSpace h₁ h₄]) }

theorem State.Inv.resampler {s : State} (h : s.Inv) : s.rs.Inv s.cfg := (inv_iff.1 h).2.1

theorem State.Inv.pacer {s : State} (h : s.Inv) : s.pc.Inv := (inv_iff.1 h).2.2.1

theorem State.Inv.blender {s : State} (h : s.Inv) : s.bl.Inv := (inv_iff.1 h).2.2.2.1

theorem State.Inv.memoryInv {s : State} (h : s.Inv) (sp : Space) : MemoryInv s.cfg sp (s.memory sp) :=
  (inv_iff.1 h).2.2.2.2 sp

/-- A state of the same build meets the invariant when its parts do. -/
theorem State.Inv.of_parts {s t : State} (h : s.Inv) (hcfg : t.cfg = s.cfg) (hrs : t.rs.Inv s.cfg) (hpc : t.pc.Inv)
    (hbl : t.bl.Inv) (hm : ∀ sp, MemoryInv s.cfg sp (t.memory sp)) : t.Inv :=
  inv_iff.2 ⟨hcfg ▸ h.build, hcfg ▸ hrs, hpc, hbl, hcfg ▸ hm⟩

/-- The invariant says nothing of STATUS or of the command port. -/
theorem State.Inv.with_port {s : State} (h : s.Inv) (st : BitVec 10) (cs : List Command) (rsp : List Word) :
    ({ s with status := st, cmds := cs, resps := rsp } : State).Inv :=
  h.of_parts rfl h.resampler h.pacer h.blender h.memoryInv

theorem State.Inv.after_raise {s : State} (h : s.Inv) (e : Err) : (s.raise e).Inv := h.with_port _ _ _

theorem State.Inv.with_rs {s : State} (h : s.Inv) {r : Resampler} (hr : r.Inv s.cfg) :
    ({ s with rs := r } : State).Inv :=
  h.of_parts rfl hr h.pacer h.blender h.memoryInv

theorem State.Inv.with_pc {s : State} (h : s.Inv) {p : Pacer} (hp : p.Inv) :
    ({ s with pc := p } : State).Inv :=
  h.of_parts rfl h.resampler hp h.blender h.memoryInv

/-! ## What a legal build gives -/

/-- The legal ranges the sinc backend rests on (R6). -/
theorem legal_sinc {c : Config} (h : c.legal = true) : 1 ≤ c.pD ∧ 1 ≤ c.pT ∧ c.pD * c.pT ≤ 2 ^ 32 := by
  simp only [Config.legal, Config.legalD, Config.legalT, Config.legalTaps, Bool.and_eq_true, decide_eq_true_eq] at h
  omega

/-- The legal ranges the cosine backend rests on (R6). -/
theorem legal_cosine {c : Config} (h : c.legal = true) : 1 ≤ c.pFi ∧ 1 ≤ c.pFo ∧ c.pFo + c.pFi < 2 ^ 32 := by
  simp only [Config.legal, Config.legalFi, Config.legalFo, Config.legalRates, Bool.and_eq_true, decide_eq_true_eq] at h
  omega

/-! ## The sinc backend -/

/-- A product of two 16-bit samples is at most 2^30 in magnitude (R163). -/
theorem natAbs_mul_toInt_le (x y : Sample) : (x.toInt * y.toInt).natAbs ≤ 2 ^ 30 := by
  have hx : x.toInt.natAbs ≤ 2 ^ 15 := by have := x.le_toInt; have := x.toInt_lt; omega
  have hy : y.toInt.natAbs ≤ 2 ^ 15 := by have := y.le_toInt; have := y.toInt_lt; omega
  calc (x.toInt * y.toInt).natAbs = x.toInt.natAbs * y.toInt.natAbs := Int.natAbs_mul _ _
    _ ≤ 2 ^ 15 * 2 ^ 15 := Nat.mul_le_mul hx hy

/-- An accumulator stores a value of less than 2^63 in magnitude as it is. -/
theorem toInt_ofInt_acc {v : Int} (h : v.natAbs < 2 ^ 63) : (BitVec.ofInt 64 v : Acc).toInt = v := by
  rw [BitVec.toInt_ofInt]
  exact Int.bmod_eq_of_le (by omega) (by omega)

theorem accsBounded_replicate (c : Config) (p n : Nat) : accsBounded c p (List.replicate n 0) := by
  intro k hk
  simp

theorem channelInv_replicate (c : Config) (p : Nat) : ChannelInv c p (List.replicate c.pT 0) :=
  ⟨List.length_replicate, accsBounded_replicate c p _⟩

/-- The most products any accumulator can have received is P_D * P_T (R163). -/
theorem products_le {c : Config} {p k : Nat} (hp : p < c.pD) (hk : k < c.pT) :
    (c.pT - 1 - k) * c.pD + (p + 1) ≤ c.pD * c.pT := by
  calc (c.pT - 1 - k) * c.pD + (p + 1) ≤ (c.pT - 1) * c.pD + c.pD :=
        Nat.add_le_add (Nat.mul_le_mul_right _ (Nat.sub_le _ _)) hp
    _ = c.pD * c.pT := by rw [← Nat.succ_mul, Nat.mul_comm]; congr 1; omega

/-- A scatter adds one product to each accumulator, and none wraps (R161, R163). -/
theorem ChannelInv.scatter {c : Config} (hc : c.legal = true) {p : Nat} {accs : List Acc} (hp : p < c.pD)
    (h : ChannelInv c p accs) (x : Sample) : ChannelInv c (p + 1) (sincScatter c p x.toInt 0 accs) := by
  refine ⟨by rw [sincScatter_length, h.length], fun k hk => ?_⟩
  rw [sincScatter_length] at hk
  have hold := h.bounded k hk
  have hprod : (x.toInt * sincCoef c p (0 + k)).natAbs ≤ 2 ^ 30 := natAbs_mul_toInt_le x _
  have hsum : (accs[k].toInt + x.toInt * sincCoef c p (0 + k)).natAbs ≤
      ((c.pT - 1 - k) * c.pD + (p + 1)) * 2 ^ 30 := by
    have := Int.natAbs_add_le accs[k].toInt (x.toInt * sincCoef c p (0 + k))
    omega
  have hmany := products_le hp (h.length ▸ hk)
  have htaps := (legal_sinc hc).2.2
  rwa [sincScatter_getElem c p x.toInt 0 k accs hk, toInt_ofInt_acc (by omega)]

/-- Accumulator `k` of a shift is the next one of the channel, and 0 past the last (R161). -/
theorem sincShift_getElem (accs : List Acc) {k : Nat} (hk : k < (sincShift accs).length) :
    (sincShift accs)[k] = if h : k + 1 < accs.length then accs[k + 1] else 0 := by
  by_cases h : k + 1 < accs.length
  · simp [sincShift, h, show k < accs.length - 1 by omega]
  · simp [sincShift, List.getElem_append, h, show ¬k < accs.length - 1 by omega]

/-- After an output each accumulator takes the place before it, where P_D products more are due (R161). -/
theorem ChannelInv.shift {c : Config} {accs : List Acc} (hT : 1 ≤ c.pT) (h : ChannelInv c c.pD accs) :
    ChannelInv c 0 (sincShift accs) := by
  have hne : accs ≠ [] := List.ne_nil_of_length_pos (by have := h.length; omega)
  refine ⟨by rw [sincShift_length accs hne, h.length], fun k hk => ?_⟩
  rw [sincShift_getElem]
  split
  · next hnext =>
    have hplace : (c.pT - 1 - (k + 1)) * c.pD + c.pD = (c.pT - 1 - k) * c.pD + 0 := by
      have := h.length
      rw [← Nat.succ_mul]; congr 1; omega
    rw [← hplace]
    exact h.bounded (k + 1) hnext
  · simp

/-- EMIT keeps the resampler's invariant (R156). -/
theorem emit_resampler (yl yr : Int) {s : State} (h : s.rs.Inv s.cfg) : (emit yl yr s).rs.Inv s.cfg := by
  refine ⟨by simpa using emit_outq_bound yl yr s h.outq, ?_, ?_, ?_, ?_⟩
  · simpa using h.phase
  · simpa using h.left
  · simpa using h.right
  · simpa using h.cosPhase

/-- SINC_STEP keeps the resampler's invariant (R161). -/
theorem sincStep_resampler (l r : Sample) {s : State} (hc : s.cfg.legal = true) (h : s.rs.Inv s.cfg) :
    (sincStep l r s).rs.Inv s.cfg := by
  have hL := h.left.scatter hc h.phase l
  have hR := h.right.scatter hc h.phase r
  obtain ⟨hD, hT, -⟩ := legal_sinc hc
  unfold sincStep
  dsimp only
  split
  · next hp =>
    rw [show s.rs.ph + 1 = s.cfg.pD by omega] at hL hR
    exact emit_resampler _ _ (s := { s with rs := { s.rs with saccL := _, saccR := _, ph := 0 } })
      ⟨h.outq, hD, hL.shift hT, hR.shift hT, h.cosPhase⟩
  · next hp =>
    have hph := h.phase
    exact ⟨h.outq, by show s.rs.ph + 1 < s.cfg.pD; omega, hL, hR, h.cosPhase⟩

/-! ## The cosine backend -/

/-- After COS_STEP, CR is in 1 .. P_FI (R175). -/
theorem cosStep_cr (l r : Sample) {s : State} (hc : s.cfg.legal = true) (h : s.rs.Inv s.cfg) :
    1 ≤ (cosStep l r s).rs.cr.toNat ∧ (cosStep l r s).rs.cr.toNat ≤ s.cfg.pFi := by
  obtain ⟨hfi, -, hrates⟩ := legal_cosine hc
  have hcr : s.rs.cr.toNat ≤ s.cfg.pFo + s.cfg.pFi := by have := h.cosPhase; omega
  obtain ⟨hlo, hhi⟩ := cosLoop_cr l r (cosTurns s.cfg) s hrates (cosTurns_enough s.cfg _ hfi) hcr
  have hsub : (cosStep l r s).rs.cr.toNat = (cosLoop l r (cosTurns s.cfg) s).rs.cr.toNat - s.cfg.pFo := by
    have hfo : (BitVec.ofNat 32 s.cfg.pFo).toNat = s.cfg.pFo := by
      rw [BitVec.toNat_ofNat, Nat.mod_eq_of_lt (by omega)]
    have hle : BitVec.ofNat 32 s.cfg.pFo ≤ (cosLoop l r (cosTurns s.cfg) s).rs.cr := by
      rw [BitVec.le_def, hfo]; omega
    simp only [cosStep, cosLoop_cfg, BitVec.toNat_sub_of_le hle, hfo]
  omega

/-- COS_STEP keeps the resampler's invariant (R170, R175). -/
theorem cosStep_resampler (l r : Sample) {s : State} (hc : s.cfg.legal = true) (h : s.rs.Inv s.cfg) :
    (cosStep l r s).rs.Inv s.cfg := by
  refine ⟨cosLoop_outq_bound l r _ s h.outq, ?_, ?_, ?_, .inr (cosStep_cr l r hc h)⟩
  · simpa using h.phase
  · simpa using h.left
  · simpa using h.right

/-- The step of either backend keeps the resampler's invariant. -/
theorem backendStep_resampler (l r : Sample) {s : State} (hc : s.cfg.legal = true) (h : s.rs.Inv s.cfg) :
    (backendStep l r s).rs.Inv s.cfg := by
  unfold backendStep
  split
  · exact sincStep_resampler l r hc h
  · exact cosStep_resampler l r hc h

theorem State.Inv.after_backendStep {s : State} (h : s.Inv) (l r : Sample) : (backendStep l r s).Inv :=
  h.of_parts (by simp) (backendStep_resampler l r h.build h.resampler) (by simpa using h.pacer)
    (by simpa using h.blender) fun sp => memory_congr (backendStep_mem l r s) sp ▸ h.memoryInv sp

/-- With OUTQ within its depth and both backends as RS_INIT leaves them, the resampler meets its invariant (R157). -/
theorem resampler_inv_of_fresh {c : Config} (hc : c.legal = true) {r : Resampler} (hq : r.outq.length ≤ c.pQ) :
    Resampler.Inv c { r with
      saccL := List.replicate c.pT 0, saccR := List.replicate c.pT 0, ph := 0, caL := 0, caR := 0
      cr := BitVec.ofNat 32 c.pFo } := by
  obtain ⟨-, -, hrates⟩ := legal_cosine hc
  refine ⟨hq, (legal_sinc hc).1, channelInv_replicate c 0, channelInv_replicate c 0, .inl ?_⟩
  rw [BitVec.toNat_ofNat, Nat.mod_eq_of_lt (by omega)]

/-! ## The memories -/

theorem memoryInv_nil (c : Config) (sp : Space) : MemoryInv c sp [] := ⟨rfl, rfl, fun _ => rfl⟩

theorem cellsFit_iff {c : Config} {m : Memory} :
    cellsFit c m = true ↔ ∀ cell ∈ m, cell.1 < c.pFbPixels ∧ cell.2.toNat < 2 ^ cellWidth c.pPixFmt := by
  simp [cellsFit, List.all_eq_true]

/-- A write of a cell of the build, to a memory the build has, keeps that memory's invariant (R80, R82). -/
theorem MemoryInv.put {c : Config} {sp : Space} {m : Memory} (h : MemoryInv c sp m) {i : Nat} (p : Word)
    (hi : i < c.pFbPixels) (hsp : sp.number ≤ c.pHistAvail) :
    MemoryInv c sp (memPut sp.unlisted m i (storedPixel c.pPixFmt p)) := by
  refine ⟨memPut_wf _ m i _ h.canonical, cellsFit_iff.2 fun cell hcell => ?_, fun ha => by omega⟩
  rcases mem_memPut hcell with rfl | hold
  · exact ⟨hi, storedPixel_lt _ p⟩
  · exact cellsFit_iff.1 h.cells cell hold

theorem State.Inv.after_memWrite {s : State} (h : s.Inv) {sp : Space} {i : Nat} (p : Word) (hi : i < s.cfg.pFbPixels)
    (hsp : sp.number ≤ s.cfg.pHistAvail) : (memWrite sp i p s).Inv := by
  refine h.of_parts (by simp) (by simpa using h.resampler) (by simpa using h.pacer) (by simpa using h.blender)
    fun sp' => ?_
  unfold memWrite
  by_cases he : sp' = sp
  · subst he
    rw [setMemory_memory_same]
    exact (h.memoryInv sp').put p hi hsp
  · rw [setMemory_memory_ne s _ he]
    exact h.memoryInv sp'

/-- HIST_CLEAR leaves each memory as it was, or empty (R66). -/
theorem histClear_memory (s : State) (sp : Space) :
    (histClear s).memory sp = s.memory sp ∨ (histClear s).memory sp = [] := by
  cases sp <;> simp only [histClear, State.memory, true_or] <;> split <;> simp

theorem histClear_memoryInv {s : State} (h : s.Inv) (sp : Space) : MemoryInv s.cfg sp ((histClear s).memory sp) := by
  rcases histClear_memory s sp with he | he <;> rw [he]
  · exact h.memoryInv sp
  · exact memoryInv_nil _ _

/-! ## BL_FRAME -/

/-- The history writes of a filter keep the invariant when the build has the memories the filter needs (R58, R233). -/
theorem filterCell_inv {m : BlendKind} {i : Nat} {s : State} (cur : Pixel) (h : s.Inv) (hi : i < s.cfg.pFbPixels)
    (hm : need m ≤ s.cfg.pHistAvail) : (filterCell m i cur s).2.Inv := by
  cases m with
  | off => exact h
  | mix => exact h.after_memWrite (sp := .h1) _ hi hm
  | ghostFast => exact h.after_memWrite (sp := .h1) _ hi hm
  | ghostAccurate =>
    have hpresent (sp : Space) : sp.number ≤ s.cfg.pHistAvail := Nat.le_trans (number_le_four sp) hm
    have h₄ := h.after_memWrite (sp := .h4) (histRead .h3 i s) hi hm
    have h₃ := h₄.after_memWrite (sp := .h3) (i := i) (histRead .h2 i s) (by simpa using hi)
      (by simpa using hpresent .h3)
    have h₂ := h₃.after_memWrite (sp := .h2) (i := i) (histRead .h1 i s) (by simpa using hi)
      (by simpa using hpresent .h2)
    exact h₂.after_memWrite (sp := .h1) (i := i) cur (by simpa using hi)
      (by simpa using hpresent .h1)

/-- The loop of BL_FRAME over cells of the build keeps the invariant (R233). -/
theorem blendCells_inv {m : BlendKind} {is : List Nat} {s t : State} (h : s.Inv)
    (his : ∀ i ∈ is, i < s.cfg.pFbPixels) (hm : need m ≤ s.cfg.pHistAvail)
    (he : blendCells m is s = .ok t) : t.Inv := by
  induction is generalizing s with
  | nil => cases he; exact h
  | cons i is ih =>
    obtain ⟨hi, his⟩ := List.forall_mem_cons.1 his
    rcases blendCell_cases m i s with ⟨-, hb⟩ | ⟨cur, -, hb⟩ <;> simp only [blendCells, hb] at he
    · cases he
    · have hf := filterCell_inv cur h hi hm
      refine ih (hf.after_memWrite _ (by simpa using hi) (Nat.zero_le _)) ?_ ?_ he
      · simpa using his
      · simpa using hm

/-- Under a valid geometry every active cell is a cell of the build (R65). -/
theorem activeCells_lt {s : State} (hg : geomValid s = true) : ∀ i ∈ activeCells s.bl, i < s.cfg.pFbPixels := by
  intro i hi
  simp only [activeCells, List.mem_flatMap, List.mem_map, List.mem_range] at hi
  obtain ⟨y, hy, x, hx, rfl⟩ := hi
  simp only [geomValid, Bool.and_eq_true, decide_eq_true_eq] at hg
  have hrow : y * s.bl.pitch.toNat ≤ (s.bl.height.toNat - 1) * s.bl.pitch.toNat := Nat.mul_le_mul_right _ (by omega)
  unfold cellIndex
  omega

/-- The mode in effect needs only memories the build has (R59). -/
theorem need_effMode_le (s : State) : need (effMode s) ≤ s.cfg.pHistAvail := by
  unfold effMode
  split
  · assumption
  · exact Nat.zero_le _

/-! ## Register writes -/

/-- The resampler after a write of RS_CTRL: SEL alone has changed, or RS_INIT has run as well (R39). -/
theorem writeRsCtrl_rs (v : Word) (s : State) :
    (writeRsCtrl v s).rs = { s.rs with sel := backendOf v } ∨
      (writeRsCtrl v s).rs = (rsInit { s with rs := { s.rs with sel := backendOf v } }).rs := by
  unfold writeRsCtrl
  dsimp only
  split <;> split <;> first | exact .inl rfl | exact .inr rfl

theorem writeReg_resampler {s : State} (h : s.Inv) (r : Reg) (v : Word) : (writeReg r v s).rs.Inv s.cfg := by
  have hold := h.resampler
  obtain ⟨-, -, hrs | rfl | ⟨-, hrs⟩ | ⟨-, hrs⟩⟩ := writeReg_rs r v s
  · rw [hrs]; exact hold
  · show (writeRsCtrl v s).rs.Inv s.cfg
    rcases writeRsCtrl_rs v s with hrs | hrs <;> rw [hrs]
    · exact hold.with_settings _ _ _ _
    · exact resampler_inv_of_fresh h.build hold.outq
  all_goals rw [hrs]; exact hold.with_settings _ _ _ _

theorem writeReg_pacer {s : State} (h : s.Inv) (r : Reg) (v : Word) : (writeReg r v s).pc.Inv := by
  have hold := h.pacer
  rcases writeReg_pc r v s with hpc | ⟨-, hv, hpc⟩ | ⟨-, m, h₁, h₅, hpc⟩ <;> rw [hpc]
  · exact hold
  · have hpos : v.toNat ≠ 0 := fun h0 => hv (BitVec.eq_of_toNat_eq h0)
    exact ⟨Nat.one_le_iff_ne_zero.2 hpos, hold.mult, hold.verdict⟩
  · exact ⟨hold.spf, ⟨h₁, h₅⟩, hold.verdict⟩

/-- A weight write stores a weight of at most 0x0100, or leaves the blender as it was (R60). -/
theorem writeWeight_bl (v : Word) (set : BitVec 16 → Blender → Blender) (s : State) :
    (writeWeight v set s).bl = s.bl ∨
      ((low16 v).toNat ≤ 0x100 ∧ (writeWeight v set s).bl = set (low16 v) s.bl) := by
  unfold writeWeight
  split
  · exact .inl rfl
  · exact .inr ⟨by omega, rfl⟩

theorem writeWeight_blender {s : State} (hs : s.bl.Inv) (v : Word) {set : BitVec 16 → Blender → Blender}
    (hset : (low16 v).toNat ≤ 0x100 → (set (low16 v) s.bl).Inv) : (writeWeight v set s).bl.Inv := by
  rcases writeWeight_bl v set s with hbl | ⟨hw, hbl⟩ <;> rw [hbl]
  · exact hs
  · exact hset hw

/-- A geometry write sets its own field of the blender (R133). -/
theorem writeGeometry_bl (v : Word) (old : BitVec 16) (set : BitVec 16 → Blender → Blender) (s : State) :
    (writeGeometry v old set s).bl = set (low16 v) s.bl := by
  unfold writeGeometry
  dsimp only
  split <;> rfl

/-- A write of BL_CTRL sets the mode and no other field of the blender (R58). -/
theorem writeBlCtrl_bl (v : Word) (s : State) : (writeBlCtrl v s).bl = { s.bl with mode := kindOf v } := by
  unfold writeBlCtrl
  dsimp only
  (repeat' split) <;> rfl

theorem writeReg_blender {s : State} (h : s.Inv) (r : Reg) (v : Word) : (writeReg r v s).bl.Inv := by
  have hold := h.blender
  obtain ⟨h₁, h₂, h₃, h₄⟩ := h.blender
  cases r
  case blCtrl => exact (writeBlCtrl_bl v s).symm ▸ hold
  case blW1 => exact writeWeight_blender hold v fun hw => ⟨hw, h₂, h₃, h₄⟩
  case blW2 => exact writeWeight_blender hold v fun hw => ⟨h₁, hw, h₃, h₄⟩
  case blW3 => exact writeWeight_blender hold v fun hw => ⟨h₁, h₂, hw, h₄⟩
  case blW4 => exact writeWeight_blender hold v fun hw => ⟨h₁, h₂, h₃, hw⟩
  case blWidth => exact (writeGeometry_bl v _ _ s).symm ▸ hold
  case blHeight => exact (writeGeometry_bl v _ _ s).symm ▸ hold
  case blPitch => exact (writeGeometry_bl v _ _ s).symm ▸ hold
  case rsCtrl =>
    simp only [writeReg, writeRsCtrl]
    (repeat' split) <;> exact hold
  case pcSpf =>
    simp only [writeReg, writePcSpf]
    split <;> exact hold
  case pcMult =>
    simp only [writeReg, writePcMult]
    split <;> exact hold
  all_goals exact hold

/-- A register write keeps the invariant (R132). -/
theorem State.Inv.after_writeReg {s : State} (h : s.Inv) (r : Reg) (v : Word) : (writeReg r v s).Inv := by
  refine h.of_parts (writeReg_cfg r v s) (writeReg_resampler h r v) (writeReg_pacer h r v) (writeReg_blender h r v)
    fun sp => ?_
  rcases writeReg_mem r v s with hm | ⟨-, hm⟩
  · exact memory_congr hm sp ▸ h.memoryInv sp
  · exact memory_congr hm sp ▸ histClear_memoryInv h sp

/-! ## Commands -/

theorem powerOn_pacer (c : Config) : (State.powerOn c).pc.Inv where
  spf := show 1 ≤ (35112 : Word).toNat by decide
  mult := show 1 ≤ (1 : BitVec 3).toNat ∧ (1 : BitVec 3).toNat ≤ 5 by decide
  verdict := show ¬(false = true ∧ false = true) by decide

theorem powerOn_blender (c : Config) : (State.powerOn c).bl.Inv := by
  simp [Blender.Inv, State.powerOn]

/-- RESET keeps the invariant: FB stays, the rest is as after power-on (R134). -/
theorem State.Inv.after_resetBlock {s : State} (h : s.Inv) : (resetBlock s).Inv := by
  refine h.of_parts rfl ?_ (powerOn_pacer s.cfg) (powerOn_blender s.cfg) fun sp => ?_
  · exact resampler_inv_of_fresh h.build (r := (State.powerOn s.cfg).rs) (Nat.zero_le _)
  · cases sp with
    | fb => exact h.memoryInv .fb
    | h1 | h2 | h3 | h4 => exact memoryInv_nil _ _

/-- Every next state the result can be meets the invariant. -/
def EndsInInv (r : Result) : Prop := ∀ t, r = .next t → t.Inv

theorem endsInInv_done {s : State} (h : s.Inv) (v : Word) : EndsInInv (done v s) := by
  intro t ht
  cases ht
  exact h.with_port _ _ _

theorem endsInInv_fault (f : Fault) : EndsInInv (.fault f) := fun _ ht => nomatch ht

theorem execRdreg_inv {s : State} (h : s.Inv) (n : BitVec 8) : EndsInInv (execRdreg n s) := by
  unfold execRdreg
  split
  · exact endsInInv_done (h.after_raise _) _
  · exact endsInInv_done h _

theorem execWrreg_inv {s : State} (h : s.Inv) (n : BitVec 8) (v : Word) : EndsInInv (execWrreg n v s) := by
  unfold execWrreg
  split
  · exact endsInInv_done (h.after_raise _) _
  · exact endsInInv_done (h.after_writeReg _ v) _

theorem execRsPush_inv {s : State} (h : s.Inv) (l r : Sample) : EndsInInv (execRsPush l r s) := by
  rcases execRsPush_cases l r s with ⟨-, he⟩ | ⟨-, he⟩ <;> rw [he]
  · exact endsInInv_done ((h.with_rs (h.resampler.with_settings _ _ _ _)).after_raise .drop) _
  · exact endsInInv_done ((h.with_rs (h.resampler.with_settings _ _ _ _)).after_backendStep l r) _

theorem execRsPop_inv {s : State} (h : s.Inv) : EndsInInv (execRsPop s) := by
  have hrs := h.resampler
  unfold execRsPop
  split
  · exact endsInInv_done (h.after_raise _) _
  · next y ys hq =>
    have hlen : ys.length ≤ s.cfg.pQ := by
      have := hrs.outq
      rw [hq, List.length_cons] at this
      omega
    have hpop : Resampler.Inv s.cfg { s.rs with outq := ys } :=
      ⟨hlen, hrs.phase, hrs.left, hrs.right, hrs.cosPhase⟩
    exact endsInInv_done (h.with_rs hpop) _

theorem execRsMark_inv {s : State} (h : s.Inv) : EndsInInv (execRsMark s) :=
  endsInInv_done (h.with_rs (h.resampler.with_settings _ _ _ _)) _

/-- PC_CHECK gives one verdict and withdraws the other (R201). -/
theorem execPcCheck_inv {s : State} (h : s.Inv) : EndsInInv (execPcCheck s) := by
  rcases execPcCheck_cases s with ⟨-, he⟩ | ⟨-, he⟩ <;> rw [he]
  · exact endsInInv_done (h.with_pc (h.pacer.with_tick _ _ true false (by decide))) _
  · exact endsInInv_done (h.with_pc (h.pacer.with_tick _ _ false true (by decide))) _

theorem execPcAdd_inv {s : State} (h : s.Inv) (n : Word) : EndsInInv (execPcAdd n s) :=
  endsInInv_done (h.with_pc (h.pacer.with_tick _ _ _ _ h.pacer.verdict)) _

theorem execPcCommit_inv {s : State} (h : s.Inv) : EndsInInv (execPcCommit s) := by
  unfold execPcCommit
  split
  · exact endsInInv_done (h.with_pc (h.pacer.with_tick _ _ s.pc.lastDupe false (by simp))) _
  · exact endsInInv_done (h.after_raise _) _

theorem execPcClear_inv {s : State} (h : s.Inv) : EndsInInv (execPcClear s) :=
  endsInInv_done (h.with_pc (h.pacer.with_tick _ _ false false (by decide))) _

theorem execBlFrame_inv {s : State} (h : s.Inv) : EndsInInv (execBlFrame s) := by
  unfold execBlFrame
  split
  · exact endsInInv_done h _
  · split
    · next hg =>
      split
      · exact endsInInv_fault _
      · next t ht => exact endsInInv_done (blendCells_inv h (activeCells_lt hg) (need_effMode_le s) ht) _
    · exact endsInInv_done (h.after_raise _) _

theorem execFbWr_inv {s : State} (h : s.Inv) (x : BitVec 16) (p : Word) : EndsInInv (execFbWr x p s) := by
  unfold execFbWr
  split
  · exact endsInInv_done (h.after_raise _) _
  · next hx => exact endsInInv_done (h.after_memWrite p (Nat.lt_of_not_le hx) (Nat.zero_le _)) _

theorem execFbRd_inv {s : State} (h : s.Inv) (x : BitVec 16) : EndsInInv (execFbRd x s) := by
  unfold execFbRd
  split
  · exact endsInInv_done (h.after_raise _) _
  · split
    · exact endsInInv_fault _
    · exact endsInInv_done h _

theorem execHistRd_inv {s : State} (h : s.Inv) (j : BitVec 8) (x : BitVec 16) : EndsInInv (execHistRd j x s) := by
  unfold execHistRd
  split
  · exact endsInInv_done (h.after_raise _) _
  · exact endsInInv_done h _

/-- Every command keeps the invariant. -/
theorem exec_inv {s : State} (h : s.Inv) (i : Instr) : EndsInInv (exec i s) := by
  cases i with
  | nop => exact endsInInv_done h _
  | rdreg n => exact execRdreg_inv h n
  | wrreg n v => exact execWrreg_inv h n v
  | reset => exact endsInInv_done h.after_resetBlock _
  | rsPush l r => exact execRsPush_inv h l r
  | rsPop => exact execRsPop_inv h
  | rsMark => exact execRsMark_inv h
  | pcCheck => exact execPcCheck_inv h
  | pcAdd n => exact execPcAdd_inv h n
  | pcCommit => exact execPcCommit_inv h
  | pcClear => exact execPcClear_inv h
  | blFrame => exact execBlFrame_inv h
  | fbWr x p => exact execFbWr_inv h x p
  | fbRd x => exact execFbRd_inv h x
  | histRd j x => exact execHistRd_inv h j x

/-- Every step keeps the invariant: it waits, runs an illegal word, runs a command, or refuses the build. -/
theorem step_inv {s : State} (h : s.Inv) : EndsInInv (step s) := by
  rcases step_cases s with ⟨hl, -⟩ | ⟨-, -, he⟩ | ⟨c, rest, -, -, ⟨e, -, he⟩ | ⟨i, -, he⟩⟩
  · exact absurd h.build (by simp [hl])
  · rw [he]
    intro t ht
    cases ht
    exact h
  · rw [he]
    exact endsInInv_done ((h.with_port s.status rest s.resps).after_raise .illegal) 0
  · rw [he]
    exact exec_inv (h.with_port s.status rest s.resps) i

/-- Settles O11: the invariant splits into the invariants of the block's parts, and each command keeps every part. -/
theorem stepKeepsInvariant : Obligations.StepKeepsInvariant := by
  unfold Obligations.StepKeepsInvariant
  intro s t h he
  exact step_inv h t he

end Sys2Proof.Machine

/-! SUPPORT and PROOF (O14, O44, O50). The commands by cases; what every completed command can have done to STATUS and
to the pacer; where the active cells of a valid geometry lie. -/

namespace Sys2Proof.Machine

/-! ## The commands by cases -/

/-- RDREG refuses an unassigned number, or answers the register's value (R69, R131). -/
theorem execRdreg_cases (n : BitVec 8) (s : State) :
    (regOf n = none ∧ execRdreg n s = done 0 (s.raise .illegal)) ∨
      ∃ r, n = r.number ∧ execRdreg n s = done (readReg r s) s := by
  unfold execRdreg
  cases hr : regOf n with
  | none => exact .inl ⟨rfl, rfl⟩
  | some r => exact .inr ⟨r, (regOf_eq_some_iff n r).1 hr, rfl⟩

/-- WRREG refuses an unassigned number, or does the register's write (R69, R132). -/
theorem execWrreg_cases (n : BitVec 8) (v : Word) (s : State) :
    (regOf n = none ∧ execWrreg n v s = done 0 (s.raise .illegal)) ∨
      ∃ r, n = r.number ∧ execWrreg n v s = done 0 (writeReg r v s) := by
  unfold execWrreg
  cases hr : regOf n with
  | none => exact .inl ⟨rfl, rfl⟩
  | some r => exact .inr ⟨r, (regOf_eq_some_iff n r).1 hr, rfl⟩

/-- RS_POP raises UNDER on an empty OUTQ, or takes its oldest pair (R154). -/
theorem execRsPop_cases (s : State) :
    (s.rs.outq = [] ∧ execRsPop s = done 0 (s.raise .under)) ∨
      ∃ y ys, s.rs.outq = y :: ys ∧ execRsPop s = done y { s with rs := { s.rs with outq := ys } } := by
  unfold execRsPop
  split
  · next hq => exact .inl ⟨hq, rfl⟩
  · next y ys hq => exact .inr ⟨y, ys, hq, rfl⟩

/-- PC_COMMIT ends the run phase, or raises PROTO when none is outstanding (R203). -/
theorem execPcCommit_cases (s : State) :
    (s.pc.run = true ∧
      execPcCommit s = done 0 { s with pc := { s.pc with frames := framesPlusMult s.pc, run := false } }) ∨
      (s.pc.run = false ∧ execPcCommit s = done 0 (s.raise .proto)) := by
  unfold execPcCommit
  split
  · next hrun => exact .inl ⟨hrun, rfl⟩
  · next hrun => exact .inr ⟨by simpa using hrun, rfl⟩

/-- BL_FRAME passes through, refuses the geometry, or runs its loop to the end or to a fault (R233, R234). -/
theorem execBlFrame_cases (s : State) :
    (effMode s = .off ∧ execBlFrame s = done 0 s) ∨
      (effMode s ≠ .off ∧ geomValid s = false ∧ execBlFrame s = done 0 (s.raise .geom)) ∨
      (effMode s ≠ .off ∧ geomValid s = true ∧
        ((∃ f, blendCells (effMode s) (activeCells s.bl) s = .error f ∧ execBlFrame s = .fault f) ∨
          ∃ t, blendCells (effMode s) (activeCells s.bl) s = .ok t ∧ execBlFrame s = done 0 t)) := by
  unfold execBlFrame
  split
  · next hm => exact .inl ⟨hm, rfl⟩
  · next hm =>
    split
    · next hg =>
      refine .inr (.inr ⟨hm, hg, ?_⟩)
      cases hb : blendCells (effMode s) (activeCells s.bl) s with
      | error f => exact .inl ⟨f, rfl, rfl⟩
      | ok t => exact .inr ⟨t, rfl, rfl⟩
    · next hg => exact .inr (.inl ⟨hm, by simpa using hg, rfl⟩)

/-- FB_WR raises RANGE outside FB, or writes its cell (R241). -/
theorem execFbWr_cases (i : BitVec 16) (p : Word) (s : State) :
    (s.cfg.pFbPixels ≤ i.toNat ∧ execFbWr i p s = done 0 (s.raise .range)) ∨
      (i.toNat < s.cfg.pFbPixels ∧ execFbWr i p s = done 0 (memWrite .fb i.toNat p s)) := by
  unfold execFbWr
  split
  · next hi => exact .inl ⟨hi, rfl⟩
  · next hi => exact .inr ⟨Nat.lt_of_not_le hi, rfl⟩

/-- FB_RD raises RANGE outside FB, faults on a cell never written, or answers the cell (R242, R302). -/
theorem execFbRd_cases (i : BitVec 16) (s : State) :
    (s.cfg.pFbPixels ≤ i.toNat ∧ execFbRd i s = done 0 (s.raise .range)) ∨
      (i.toNat < s.cfg.pFbPixels ∧
        ((memRead .fb i.toNat s = none ∧ execFbRd i s = .fault (.fbCellUnwritten i.toNat)) ∨
          ∃ p, memRead .fb i.toNat s = some p ∧ execFbRd i s = done p s)) := by
  unfold execFbRd
  split
  · next hi => exact .inl ⟨hi, rfl⟩
  · next hi =>
    refine .inr ⟨Nat.lt_of_not_le hi, ?_⟩
    cases hr : memRead .fb i.toNat s with
    | none => exact .inl ⟨rfl, rfl⟩
    | some p => exact .inr ⟨p, rfl, rfl⟩

/-- HIST_RD raises RANGE for a memory or a cell that does not exist, or answers the cell (R243). -/
theorem execHistRd_cases (j : BitVec 8) (i : BitVec 16) (s : State) :
    ((j.toNat < 1 ∨ s.cfg.pHistAvail < j.toNat ∨ s.cfg.pFbPixels ≤ i.toNat) ∧
      execHistRd j i s = done 0 (s.raise .range)) ∨
      (1 ≤ j.toNat ∧ j.toNat ≤ s.cfg.pHistAvail ∧ i.toNat < s.cfg.pFbPixels ∧
        execHistRd j i s = done (histRead (histSpace j.toNat) i.toNat s) s) := by
  unfold execHistRd
  split
  · next hr => exact .inl ⟨hr, rfl⟩
  · next hr =>
    simp only [not_or, Nat.not_lt, Nat.not_le] at hr
    exact .inr ⟨hr.1, hr.2.1, hr.2.2, rfl⟩

/-! ## What holds of a command's next state -/

/-- Whatever next state the result is, it meets `P`. -/
def Ends (P : State → Prop) (r : Result) : Prop := ∀ t, r = .next t → P t

@[simp] theorem ends_done (P : State → Prop) (v : Word) (s : State) : Ends P (done v s) ↔ P (s.respond v) :=
  ⟨fun h => h _ rfl, fun h _ ht => done_eq_next.1 ht ▸ h⟩

@[simp] theorem ends_fault (P : State → Prop) (f : Fault) : Ends P (.fault f) := fun _ ht => nomatch ht

theorem Ends.imp {P Q : State → Prop} {r : Result} (h : Ends P r) (himp : ∀ t, P t → Q t) : Ends Q r :=
  fun t ht => himp t (h t ht)

/-! ## STATUS -/

/-- From `s` to `t` STATUS stays as it was, or one of the errors is raised. -/
def RaisesAtMost (errs : List Err) (s t : State) : Prop :=
  t.status = s.status ∨ ∃ e ∈ errs, t.status = (s.raise e).status

theorem RaisesAtMost.refl (errs : List Err) (s : State) : RaisesAtMost errs s s := .inl rfl

/-- Raising an error keeps every bit that is set. -/
theorem RaisesAtMost.flag {errs : List Err} {s t : State} (h : RaisesAtMost errs s t) {e : Err}
    (hs : s.flag e = true) : t.flag e = true := by
  rcases h with h | ⟨e', -, h⟩ <;> rw [flag_congr h]
  · exact hs
  · rw [raise_flag, hs, Bool.true_or]

theorem raisesAtMost_raise {errs : List Err} {s t : State} {e : Err} (he : e ∈ errs) (ht : t.status = s.status) :
    RaisesAtMost errs s (t.raise e) := .inr ⟨e, he, by simp [State.raise, ht]⟩

/-- Raising the same one error again changes nothing. -/
theorem RaisesAtMost.trans_single {e : Err} {s t u : State} (h₁ : RaisesAtMost [e] s t) (h₂ : RaisesAtMost [e] t u) :
    RaisesAtMost [e] s u := by
  simp only [RaisesAtMost, List.mem_singleton, exists_eq_left, State.raise] at *
  rcases h₁ with h₁ | h₁ <;> rcases h₂ with h₂ | h₂ <;> simp [h₁, h₂, BitVec.or_assoc]

theorem emit_raises (yl yr : Int) (s : State) : RaisesAtMost [.ovf] s (emit yl yr s) := by
  rcases emit_cases yl yr s with ⟨-, he⟩ | ⟨-, he⟩ <;> rw [he]
  · exact raisesAtMost_raise (by simp) rfl
  · exact .refl _ _

theorem cosLoop_raises (l r : Sample) (n : Nat) (s : State) : RaisesAtMost [.ovf] s (cosLoop l r n s) := by
  induction n generalizing s with
  | zero => exact .refl _ _
  | succ n ih =>
    by_cases h : s.rs.cr.toNat ≤ s.cfg.pFo
    · obtain ⟨yl, yr, he⟩ := cosLoop_turn l r n s h
      rw [he]
      exact (emit_raises yl yr s).trans_single (ih _)
    · rw [cosLoop_stop l r _ s (by omega)]
      exact .refl _ _

theorem sincStep_raises (l r : Sample) (s : State) : RaisesAtMost [.ovf] s (sincStep l r s) := by
  unfold sincStep
  dsimp only
  split
  · exact emit_raises _ _ { s with rs := { s.rs with saccL := _, saccR := _, ph := 0 } }
  · exact .refl _ _

theorem backendStep_raises (l r : Sample) (s : State) : RaisesAtMost [.ovf] s (backendStep l r s) := by
  unfold backendStep
  split
  · exact sincStep_raises l r s
  · exact cosLoop_raises l r _ s

/-- What a command's end does to STATUS: at most one of the command's own errors is raised, but for RESET and for a
write of STATUS (R280, R282). -/
def StatusEffect (i : Instr) (s t : State) : Prop :=
  RaisesAtMost (mayRaise i) s t ∨ (i = .reset ∧ t.status = statusAtReset s.cfg) ∨
    ∃ v, i = .wrreg Reg.status.number v ∧ t.status = (s.clearStatus v).status

theorem execRdreg_raises (n : BitVec 8) (s : State) : Ends (RaisesAtMost [.illegal] s) (execRdreg n s) := by
  rcases execRdreg_cases n s with ⟨-, he⟩ | ⟨r, -, he⟩ <;> rw [he, ends_done]
  · exact raisesAtMost_raise (by simp) rfl
  · exact .refl _ _

/-- A register write raises at most one error of WRREG's own, or clears bits of STATUS. -/
theorem execWrreg_statusEffect (n : BitVec 8) (v : Word) (s : State) :
    Ends (StatusEffect (.wrreg n v) s) (execWrreg n v s) := by
  rcases execWrreg_cases n v s with ⟨-, he⟩ | ⟨r, rfl, he⟩ <;> rw [he, ends_done]
  · exact .inl (raisesAtMost_raise (by simp [mayRaise]) rfl)
  · rcases writeReg_status r v s with hs | ⟨rfl, hs⟩ | ⟨e, he, hs⟩
    · exact .inl (.inl hs)
    · exact .inr (.inr ⟨v, rfl, hs⟩)
    · exact .inl (.inr ⟨e, List.mem_cons_of_mem _ he, hs⟩)

theorem execRsPush_raises (l r : Sample) (s : State) : Ends (RaisesAtMost [.drop, .ovf] s) (execRsPush l r s) := by
  rcases execRsPush_cases l r s with ⟨-, he⟩ | ⟨-, he⟩ <;> rw [he, ends_done]
  · exact raisesAtMost_raise (by simp) rfl
  · exact (backendStep_raises l r _).imp id fun ⟨e, he, hs⟩ => ⟨e, List.mem_cons_of_mem _ he, hs⟩

theorem execRsPop_raises (s : State) : Ends (RaisesAtMost [.under] s) (execRsPop s) := by
  rcases execRsPop_cases s with ⟨-, he⟩ | ⟨y, ys, -, he⟩ <;> rw [he, ends_done]
  · exact raisesAtMost_raise (by simp) rfl
  · exact .refl _ _

theorem execPcCheck_raises (s : State) : Ends (RaisesAtMost [] s) (execPcCheck s) := by
  rcases execPcCheck_cases s with ⟨-, he⟩ | ⟨-, he⟩ <;> rw [he, ends_done] <;> exact .refl _ _

theorem execPcCommit_raises (s : State) : Ends (RaisesAtMost [.proto] s) (execPcCommit s) := by
  rcases execPcCommit_cases s with ⟨-, he⟩ | ⟨-, he⟩ <;> rw [he, ends_done]
  · exact .refl _ _
  · exact raisesAtMost_raise (by simp) rfl

theorem execBlFrame_raises (s : State) : Ends (RaisesAtMost [.geom] s) (execBlFrame s) := by
  rcases execBlFrame_cases s with ⟨-, he⟩ | ⟨-, -, he⟩ | ⟨-, -, ⟨f, -, he⟩ | ⟨t, ht, he⟩⟩ <;> rw [he]
  · exact (ends_done ..).2 (.refl _ _)
  · exact (ends_done ..).2 (raisesAtMost_raise (by simp) rfl)
  · exact ends_fault _ f
  · exact (ends_done ..).2 (.inl (blendCells_frame _ _ s t ht).2.1)

theorem execFbWr_raises (x : BitVec 16) (p : Word) (s : State) : Ends (RaisesAtMost [.range] s) (execFbWr x p s) := by
  rcases execFbWr_cases x p s with ⟨-, he⟩ | ⟨-, he⟩ <;> rw [he, ends_done]
  · exact raisesAtMost_raise (by simp) rfl
  · exact .inl (by simp)

theorem execFbRd_raises (x : BitVec 16) (s : State) : Ends (RaisesAtMost [.range] s) (execFbRd x s) := by
  rcases execFbRd_cases x s with ⟨-, he⟩ | ⟨-, ⟨-, he⟩ | ⟨p, -, he⟩⟩ <;> rw [he]
  · exact (ends_done ..).2 (raisesAtMost_raise (by simp) rfl)
  · exact ends_fault _ _
  · exact (ends_done ..).2 (.refl _ _)

theorem execHistRd_raises (j : BitVec 8) (x : BitVec 16) (s : State) :
    Ends (RaisesAtMost [.range] s) (execHistRd j x s) := by
  rcases execHistRd_cases j x s with ⟨-, he⟩ | ⟨-, -, -, he⟩ <;> rw [he, ends_done]
  · exact raisesAtMost_raise (by simp) rfl
  · exact .refl _ _

/-- What every command can do to STATUS, said once. -/
theorem exec_statusEffect (i : Instr) (s : State) : Ends (StatusEffect i s) (exec i s) := by
  have own {r : Result} (h : Ends (RaisesAtMost (mayRaise i) s) r) : Ends (StatusEffect i s) r := h.imp fun _ => .inl
  have kept {v : Word} {t : State} (h : t.status = s.status) : Ends (StatusEffect i s) (done v t) :=
    own ((ends_done ..).2 (.inl h))
  cases i with
  | wrreg n v => exact execWrreg_statusEffect n v s
  | reset => exact (ends_done ..).2 (.inr (.inl ⟨rfl, rfl⟩))
  | nop => exact kept (v := 0) (t := s) rfl
  | rsMark | pcAdd | pcClear => exact kept (v := 0) rfl
  | rdreg n => exact own (execRdreg_raises n s)
  | rsPush l r => exact own (execRsPush_raises l r s)
  | rsPop => exact own (execRsPop_raises s)
  | pcCheck => exact own (execPcCheck_raises s)
  | pcCommit => exact own (execPcCommit_raises s)
  | blFrame => exact own (execBlFrame_raises s)
  | fbWr x p => exact own (execFbWr_raises x p s)
  | fbRd x => exact own (execFbRd_raises x s)
  | histRd j x => exact own (execHistRd_raises j x s)

/-- Settles O14: a command that completes raises errors of its own, which keeps every set bit; only RESET and a write
of STATUS do otherwise, and the write clears just the bits written 1. -/
theorem statusBitsAreSticky : Obligations.StatusBitsAreSticky := by
  unfold Obligations.StatusBitsAreSticky
  intro i s t e ht hs
  rcases exec_statusEffect i s t ht with hr | ⟨rfl, -⟩ | ⟨v, rfl, hc⟩
  · exact .inl (hr.flag hs)
  · exact .inr (.inl rfl)
  · by_cases hv : v.getLsbD e.code = true
    · exact .inr (.inr ⟨v, rfl, hv⟩)
    · exact .inl (by rw [flag_congr hc, clearStatus_flag, hs]; simpa using hv)

/-! ## The pacer -/

/-- What a command's end does to the pacer (R50 to R57, R201 to R204): the pacer before, then after. -/
def PacerEffect (i : Instr) (p q : Pacer) : Prop :=
  match i with
  | .pcAdd n => q = { p with samples := p.samples + n.zeroExtend 64 }
  | .pcCheck =>
    q = { p with frames := framesPlusMult p, lastDupe := true, run := false } ∨
      q = { p with lastDupe := false, run := true }
  | .pcCommit => q = p ∨ q = { p with frames := framesPlusMult p, run := false }
  | .pcClear => q = { p with samples := 0, frames := 0, lastDupe := false, run := false }
  | .wrreg n v =>
    q = p ∨ (n = Reg.pcSpf.number ∧ q = { p with spf := v }) ∨
      (n = Reg.pcMult.number ∧ ∃ m : BitVec 3, q = { p with mult := m })
  | .reset => ∃ c, q = (State.powerOn c).pc
  | .nop | .rdreg _ | .rsPush _ _ | .rsPop | .rsMark | .blFrame | .fbWr _ _ | .fbRd _ | .histRd _ _ => q = p

theorem execRdreg_pc (n : BitVec 8) (s : State) : Ends (fun t => t.pc = s.pc) (execRdreg n s) := by
  rcases execRdreg_cases n s with ⟨-, he⟩ | ⟨r, -, he⟩ <;> simp [he]

theorem execWrreg_pacerEffect (n : BitVec 8) (v : Word) (s : State) :
    Ends (fun t => PacerEffect (.wrreg n v) s.pc t.pc) (execWrreg n v s) := by
  rcases execWrreg_cases n v s with ⟨-, he⟩ | ⟨r, rfl, he⟩ <;> rw [he, ends_done]
  · exact .inl rfl
  · rcases writeReg_pc r v s with hp | ⟨rfl, -, hp⟩ | ⟨rfl, m, -, -, hp⟩
    · exact .inl hp
    · exact .inr (.inl ⟨rfl, hp⟩)
    · exact .inr (.inr ⟨rfl, m, hp⟩)

theorem execRsPush_pc (l r : Sample) (s : State) : Ends (fun t => t.pc = s.pc) (execRsPush l r s) := by
  rcases execRsPush_cases l r s with ⟨-, he⟩ | ⟨-, he⟩ <;> simp [he]

theorem execRsPop_pc (s : State) : Ends (fun t => t.pc = s.pc) (execRsPop s) := by
  rcases execRsPop_cases s with ⟨-, he⟩ | ⟨y, ys, -, he⟩ <;> simp [he]

theorem execPcCheck_pacerEffect (s : State) :
    Ends (fun t => PacerEffect .pcCheck s.pc t.pc) (execPcCheck s) := by
  rcases execPcCheck_cases s with ⟨-, he⟩ | ⟨-, he⟩ <;> rw [he, ends_done]
  · exact .inl rfl
  · exact .inr rfl

theorem execPcCommit_pacerEffect (s : State) :
    Ends (fun t => PacerEffect .pcCommit s.pc t.pc) (execPcCommit s) := by
  rcases execPcCommit_cases s with ⟨-, he⟩ | ⟨-, he⟩ <;> rw [he, ends_done]
  · exact .inr rfl
  · exact .inl rfl

theorem execBlFrame_pc (s : State) : Ends (fun t => t.pc = s.pc) (execBlFrame s) := by
  rcases execBlFrame_cases s with ⟨-, he⟩ | ⟨-, -, he⟩ | ⟨-, -, ⟨f, -, he⟩ | ⟨t, ht, he⟩⟩ <;> rw [he]
  · simp
  · simp
  · simp
  · obtain ⟨-, -, -, hpc, -⟩ := blendCells_frame _ _ s t ht
    simpa using hpc

theorem execFbWr_pc (x : BitVec 16) (p : Word) (s : State) : Ends (fun t => t.pc = s.pc) (execFbWr x p s) := by
  rcases execFbWr_cases x p s with ⟨-, he⟩ | ⟨-, he⟩ <;> simp [he]

theorem execFbRd_pc (x : BitVec 16) (s : State) : Ends (fun t => t.pc = s.pc) (execFbRd x s) := by
  rcases execFbRd_cases x s with ⟨-, he⟩ | ⟨-, ⟨-, he⟩ | ⟨p, -, he⟩⟩ <;> simp [he]

theorem execHistRd_pc (j : BitVec 8) (x : BitVec 16) (s : State) :
    Ends (fun t => t.pc = s.pc) (execHistRd j x s) := by
  rcases execHistRd_cases j x s with ⟨-, he⟩ | ⟨-, -, -, he⟩ <;> simp [he]

/-- What every command can do to the pacer, said once. -/
theorem exec_pacerEffect (i : Instr) (s : State) : Ends (fun t => PacerEffect i s.pc t.pc) (exec i s) := by
  cases i with
  | nop | rsMark | pcAdd n | pcClear => exact (ends_done ..).2 rfl
  | reset => exact (ends_done ..).2 ⟨s.cfg, rfl⟩
  | wrreg n v => exact execWrreg_pacerEffect n v s
  | pcCheck => exact execPcCheck_pacerEffect s
  | pcCommit => exact execPcCommit_pacerEffect s
  | rdreg n => exact execRdreg_pc n s
  | rsPush l r => exact execRsPush_pc l r s
  | rsPop => exact execRsPop_pc s
  | blFrame => exact execBlFrame_pc s
  | fbWr x p => exact execFbWr_pc x p s
  | fbRd x => exact execFbRd_pc x s
  | histRd j x => exact execHistRd_pc j x s

/-- Settles O44: a command's effect on the pacer names the fields it changes, and no other field can differ. -/
theorem pacerStateChangesOnlyByItsCommands : Obligations.PacerStateChangesOnlyByItsCommands := by
  unfold Obligations.PacerStateChangesOnlyByItsCommands
  intro i s t ht
  have heff := exec_pacerEffect i s t ht
  cases i with
  | pcAdd n | pcClear => simp [show t.pc = _ from heff]
  | pcCheck | pcCommit => rcases heff with hp | hp <;> simp [hp]
  | reset => simp
  | wrreg n v =>
    rcases heff with hp | ⟨rfl, hp⟩ | ⟨rfl, m, hp⟩
    · simp [hp]
    · simp [hp, Reg.number]
    · simp [hp, Reg.number]
  | nop | rdreg | rsPush | rsPop | rsMark | blFrame | fbWr | fbRd | histRd => simp [show t.pc = s.pc from heff]

/-! ## Geometry -/

theorem mem_activeCells {b : Blender} {i : Nat} :
    i ∈ activeCells b ↔ ∃ x y, x < b.width.toNat ∧ y < b.height.toNat ∧ i = y * b.pitch.toNat + x := by
  simp only [activeCells, cellIndex, List.mem_flatMap, List.mem_map, List.mem_range]
  constructor
  · rintro ⟨y, hy, x, hx, rfl⟩
    exact ⟨x, y, hx, hy, rfl⟩
  · rintro ⟨x, y, hx, hy, rfl⟩
    exact ⟨y, hy, x, hx, rfl⟩

/-- A valid geometry, on numbers (R65). -/
theorem geomValid_iff (s : State) :
    geomValid s = true ↔ 1 ≤ s.bl.width.toNat ∧ 1 ≤ s.bl.height.toNat ∧ s.bl.width.toNat ≤ s.bl.pitch.toNat ∧
      (s.bl.height.toNat - 1) * s.bl.pitch.toNat + s.bl.width.toNat ≤ s.cfg.pFbPixels := by
  simp [geomValid, and_assoc]

/-- When a row is no wider than the pitch, a cell's row is its index divided by the pitch (R84). -/
theorem cellIndex_div_pitch {b : Blender} (hw : b.width.toNat ≤ b.pitch.toNat) {x : Nat} (y : Nat)
    (hx : x < b.width.toNat) : cellIndex b x y / b.pitch.toNat = y := by
  have hp : 0 < b.pitch.toNat := by omega
  rw [cellIndex, Nat.mul_comm, Nat.mul_add_div hp, Nat.div_eq_of_lt (by omega), Nat.add_zero]

/-- Rows no wider than the pitch do not overlap, so no active cell is listed twice. -/
theorem activeCells_nodup {b : Blender} (hw : b.width.toNat ≤ b.pitch.toNat) : (activeCells b).Nodup := by
  refine List.pairwise_flatMap.2 ⟨fun y _ => ?_, ?_⟩
  · exact List.pairwise_map.2 (List.nodup_range.imp fun hne he => hne (Nat.add_left_cancel he))
  · refine List.nodup_range.imp fun {y y'} hne i hi i' hi' he => ?_
    obtain ⟨x, hx, rfl⟩ := List.mem_map.1 hi
    obtain ⟨x', hx', rfl⟩ := List.mem_map.1 hi'
    have hrow : y = y' := by
      rw [← cellIndex_div_pitch hw y (List.mem_range.1 hx), he, cellIndex_div_pitch hw y' (List.mem_range.1 hx')]
    exact hne hrow

/-- Settles O50: the rows of a valid geometry lie apart, and the last of them ends inside the memory. -/
theorem validGeometryKeepsCellsInside : Obligations.ValidGeometryKeepsCellsInside := by
  unfold Obligations.ValidGeometryKeepsCellsInside
  intro s
  refine ⟨geomValid_iff s, fun hg => ⟨fun i => mem_activeCells, activeCells_lt hg, ?_⟩⟩
  obtain ⟨-, -, hw, -⟩ := (geomValid_iff s).1 hg
  exact activeCells_nodup hw

end Sys2Proof.Machine

/-! SUPPORT and PROOF (O6, O12, O15, O18 to O22, O26). The step and the start states; the registers written and read by
their numbers; what HIST_CLEAR does seen through reads; the reset state seen through RDREG. -/

namespace Sys2Proof.Machine

/-! ## The step and the start states -/

/-- Settles O6: of the step's four cases, only running the decoded command fits the premises. -/
theorem stepRunsDecodedCommand : Obligations.StepRunsDecodedCommand := by
  unfold Obligations.StepRunsDecodedCommand
  intro s c rest i hl hc hd
  rcases step_cases s with ⟨hl', -⟩ | ⟨-, hc', -⟩ | ⟨c', rest', -, hc', hrun⟩
  · simp [hl] at hl'
  · simp [hc] at hc'
  · obtain ⟨rfl, rfl⟩ := List.cons.inj (hc.symm.trans hc')
    rcases hrun with ⟨e, hd', -⟩ | ⟨i', hd', he⟩
    · simp [hd] at hd'
    · obtain rfl : i = i' := by simpa [hd] using hd'
      exact he

/-- Power-on of a legal build meets the invariant (R68). -/
theorem powerOn_inv {c : Config} (hc : c.legal = true) : (State.powerOn c).Inv :=
  inv_iff.2 ⟨hc, resampler_inv_of_fresh hc (r := (State.powerOn c).rs) (Nat.zero_le _), powerOn_pacer c,
    powerOn_blender c, fun sp => by cases sp <;> exact memoryInv_nil c _⟩

theorem State.clean_bl {s : State} (h : s.clean) : s.bl = (State.powerOn s.cfg).bl := by
  have hbl := congrArg State.bl h.1
  exact hbl

theorem State.clean_mem {s : State} (h : s.clean) :
    s.mem = { fb := s.mem.fb, h1 := [], h2 := [], h3 := [], h4 := [] } := by
  have hmem := congrArg State.mem h.1
  exact hmem

/-- The memories of a clean start state: FB holds what FB can hold, and history is empty (R303). -/
theorem State.clean_memoryInv {s : State} (h : s.clean) (sp : Space) : MemoryInv s.cfg sp (s.memory sp) := by
  obtain ⟨hwf, hcells⟩ := h.2.2
  cases sp with
  | fb => exact ⟨hwf, hcells, fun ha => absurd ha (Nat.not_lt_zero _)⟩
  | h1 | h2 | h3 | h4 => rw [State.memory, State.clean_mem h]; exact memoryInv_nil _ _

theorem State.clean_inv {s : State} (hl : s.cfg.legal = true) (h : s.clean) : s.Inv := by
  have hon := powerOn_inv hl
  refine hon.of_parts rfl ?_ ?_ ?_ (State.clean_memoryInv h)
  · rw [State.clean_rs h]; exact hon.resampler
  · rw [State.clean_pc h]; exact hon.pacer
  · rw [State.clean_bl h]; exact hon.blender

/-- Settles O12: the power-on state of a legal build meets the invariant part by part, and a clean start state differs
from it in FB and the words to be delivered only. -/
theorem powerOnMeetsInvariant : Obligations.PowerOnMeetsInvariant := by
  unfold Obligations.PowerOnMeetsInvariant
  exact ⟨fun c hc => powerOn_inv hc, fun s hl hs => State.clean_inv hl hs, powerOn_inv (by decide)⟩

/-! ## Register access by number -/

/-- RDREG of a register's number answers its value (R131). -/
theorem exec_rdreg_number (r : Reg) (s : State) : exec (.rdreg r.number) s = done (readReg r s) s := by
  simp [exec, execRdreg]

/-- WRREG of a register's number does the register's write (R132). -/
theorem exec_wrreg_number (r : Reg) (v : Word) (s : State) :
    exec (.wrreg r.number v) s = done 0 (writeReg r v s) := by
  simp [exec, execWrreg]

/-- The numbers of R33's three unassigned ranges name no register (R69). -/
theorem regOf_eq_none {n : BitVec 8}
    (h : (0x0A ≤ n.toNat ∧ n.toNat ≤ 0x0F) ∨ (0x17 ≤ n.toNat ∧ n.toNat ≤ 0x1F) ∨ 0x2A ≤ n.toNat) :
    regOf n = none := by
  cases hr : regOf n with
  | none => rfl
  | some r =>
    obtain rfl := (regOf_eq_some_iff n r).1 hr
    cases r <;> simp [Reg.number] at h

/-- The read-only registers (R35). -/
def readOnlyRegs : List Reg :=
  [.caps, .rsStat, .rsRate, .rsAvail, .rsBlkcnt, .rsPhase, .pcSamplesLo, .pcSamplesHi, .pcFramesLo, .pcFramesHi,
    .pcStat, .blStat, .blWf]

theorem writeReg_readOnly (v : Word) (s : State) : ∀ r ∈ readOnlyRegs, writeReg r v s = s.raise .badval := by
  simp [readOnlyRegs, writeReg]

/-- A register write completes with response 0 in the state it gives. -/
theorem exec_wrreg_of_eq {r : Reg} {v : Word} {s t : State} (h : writeReg r v s = t) :
    exec (.wrreg r.number v) s = done 0 t := by
  rw [exec_wrreg_number, h]

/-- Settles O15: the write clears by a mask, bit by bit. -/
theorem statusWriteOneClears : Obligations.StatusWriteOneClears := by
  unfold Obligations.StatusWriteOneClears
  intro s v
  refine ⟨(s.clearStatus v).status, exec_wrreg_number .status v s, fun b hb => ?_⟩
  simp [State.clearStatus, hb]

/-- Settles O18: such a number names no register, so both commands end by raising ILLEGAL. -/
theorem unassignedRegistersRaiseIllegal : Obligations.UnassignedRegistersRaiseIllegal := by
  unfold Obligations.UnassignedRegistersRaiseIllegal
  intro s n v hn
  have hnone := regOf_eq_none hn
  constructor
  · simp only [exec, execRdreg, hnone]; rfl
  · simp only [exec, execWrreg, hnone]; rfl

/-- Settles O19: the numbers listed are those of the read-only registers. -/
theorem readOnlyRegistersRefuseWrites : Obligations.ReadOnlyRegistersRefuseWrites := by
  unfold Obligations.ReadOnlyRegistersRefuseWrites
  intro s n v hn
  obtain ⟨r, hr, rfl⟩ := List.mem_map.1 (show n ∈ readOnlyRegs.map Reg.number from hn)
  exact exec_wrreg_of_eq (writeReg_readOnly v s r hr)

/-! ## RS_CTRL -/

theorem backendOf_eq_sinc_iff (v : Word) : backendOf v = .sinc ↔ v.getLsbD 0 = false := by
  simp [backendOf]

/-- The effective backend is sinc exactly when it is selected and the build has it (R41). -/
theorem effBackend_eq_sinc_iff (s : State) : effBackend s = .sinc ↔ s.rs.sel = .sinc ∧ s.cfg.pSincOk = true := by
  simp [effBackend]

/-- Two states have the same effective backend when both or neither run sinc. -/
theorem effBackend_eq_iff (s t : State) :
    effBackend s = effBackend t ↔ (effBackend s = .sinc ↔ effBackend t = .sinc) := by
  cases effBackend s <;> cases effBackend t <;> simp

/-- The whole state after a write of RS_CTRL: the FALLBACK notice bears on STATUS alone, and not on the effective
backend (R39). -/
theorem writeRsCtrl_eq (v : Word) (s : State) :
    writeRsCtrl v s =
      { s with
        status :=
          if backendOf v = .sinc ∧ s.cfg.pSincOk = false ∧ s.rs.sel = .cosine then (s.raise .fallback).status
          else s.status
        rs :=
          if effBackend { s with rs := { s.rs with sel := backendOf v } } = effBackend s then
            { s.rs with sel := backendOf v }
          else (rsInit { s with rs := { s.rs with sel := backendOf v } }).rs } := by
  have heff (e : Err) (t : State) : effBackend (t.raise e) = effBackend t := rfl
  unfold writeRsCtrl
  dsimp only
  split
  · rw [heff]; split <;> rfl
  · split <;> rfl

/-- Settles O20: the statement's conditions on bit 0 and on the two effective backends are those of the write. -/
theorem backendSelectionWrite : Obligations.BackendSelectionWrite := by
  unfold Obligations.BackendSelectionWrite
  intro s v
  dsimp only
  have hsel : (if v.getLsbD 0 then Backend.cosine else .sinc) = backendOf v := rfl
  have heff (p q : Prop) [Decidable p] [Decidable q] : ((if p then 0 else 1) = if q then 0 else 1) ↔ (p ↔ q) := by
    by_cases p <;> by_cases q <;> simp [*]
  refine (exec_wrreg_number .rsCtrl v s).trans ?_
  rw [writeReg, writeRsCtrl_eq, hsel]
  simp only [heff, effBackend_eq_iff, effBackend_eq_sinc_iff, backendOf_eq_sinc_iff]
  rfl

/-! ## Plain registers -/

theorem low16_eq (v : Word) : low16 v = BitVec.ofNat 16 (v.toNat % 2 ^ 16) := by
  apply BitVec.eq_of_toNat_eq
  simp [low16]

theorem low16_toNat (v : Word) : (low16 v).toNat = v.toNat % 2 ^ 16 := by simp [low16]

/-- A legal weight is stored (R60). -/
theorem writeWeight_of_le {v : Word} (h : v.toNat % 2 ^ 16 ≤ 0x0100) (set : BitVec 16 → Blender → Blender)
    (s : State) : writeWeight v set s = { s with bl := set (BitVec.ofNat 16 (v.toNat % 2 ^ 16)) s.bl } := by
  rw [writeWeight, low16_toNat, if_neg (by omega), low16_eq]

/-- A weight above 0x0100 is refused (R60). -/
theorem writeWeight_of_gt {v : Word} (h : 0x0100 < v.toNat % 2 ^ 16) (set : BitVec 16 → Blender → Blender)
    (s : State) : writeWeight v set s = s.raise .badval := by
  rw [writeWeight, low16_toNat, if_pos h]

/-- A legal multiplier is stored (R57). -/
theorem writePcMult_of_legal {v : Word} (h : 1 ≤ v.toNat % 8 ∧ v.toNat % 8 ≤ 5) (s : State) :
    writePcMult v s = { s with pc := { s.pc with mult := BitVec.ofNat 3 (v.toNat % 8) } } := by
  have hm : v.extractLsb' 0 3 = BitVec.ofNat 3 (v.toNat % 8) := BitVec.eq_of_toNat_eq (by simp)
  simp [writePcMult, hm, h]

/-- Another multiplier is refused (R57). -/
theorem writePcMult_of_illegal {v : Word} (h : ¬(1 ≤ v.toNat % 8 ∧ v.toNat % 8 ≤ 5)) (s : State) :
    writePcMult v s = s.raise .badval := by
  have hm : (v.extractLsb' 0 3).toNat = v.toNat % 8 := by simp
  simp only [writePcMult, hm, if_neg h]

/-- The weight registers (R60). -/
def weightRegs : List Reg := [.blW1, .blW2, .blW3, .blW4]

theorem writeReg_weight_of_gt {v : Word} (h : 0x0100 < v.toNat % 2 ^ 16) (s : State) :
    ∀ r ∈ weightRegs, writeReg r v s = s.raise .badval := by
  simp [weightRegs, writeReg, writeWeight_of_gt h]

/-- Settles O21: each clause is the register's write of a legal value or of an illegal one. -/
theorem plainRegisterWrites : Obligations.PlainRegisterWrites := by
  unfold Obligations.PlainRegisterWrites
  intro s v
  refine ⟨exec_wrreg_of_eq (r := .rsCap) rfl, exec_wrreg_of_eq (r := .rsDropcnt) rfl, fun h => ?_, fun h => ?_,
    fun h => ?_, fun h => ?_, fun h n hn => ?_, fun h => ⟨?_, ?_, ?_, ?_⟩⟩
  · exact exec_wrreg_of_eq (r := .pcSpf) (if_pos h)
  · exact exec_wrreg_of_eq (r := .pcSpf) (if_neg h)
  · refine exec_wrreg_of_eq (r := .pcMult) (writePcMult_of_illegal ?_ s)
    simp only [List.mem_cons, List.not_mem_nil, or_false] at h
    omega
  · refine exec_wrreg_of_eq (r := .pcMult) (writePcMult_of_legal ?_ s)
    simp only [List.mem_cons, List.not_mem_nil, or_false] at h
    omega
  · obtain ⟨r, hr, rfl⟩ := List.mem_map.1 (show n ∈ weightRegs.map Reg.number from hn)
    exact exec_wrreg_of_eq (writeReg_weight_of_gt h s r hr)
  · exact exec_wrreg_of_eq (r := .blW1) (writeWeight_of_le h (fun w b => { b with w1 := w }) s)
  · exact exec_wrreg_of_eq (r := .blW2) (writeWeight_of_le h (fun w b => { b with w2 := w }) s)
  · exact exec_wrreg_of_eq (r := .blW3) (writeWeight_of_le h (fun w b => { b with w3 := w }) s)
  · exact exec_wrreg_of_eq (r := .blW4) (writeWeight_of_le h (fun w b => { b with w4 := w }) s)

/-! ## BL_CTRL -/

/-- The mode that bits 1:0 select, and its Need, from the tables of R58. -/
theorem kindOf_eq_getD (v : Word) :
    kindOf v = [BlendKind.off, .mix, .ghostAccurate, .ghostFast].getD (v.toNat % 4) .off ∧
      need (kindOf v) = [0, 1, 4, 1].getD (v.toNat % 4) 0 := by
  have hk : (v.extractLsb' 0 2).toNat = v.toNat % 4 := by simp
  rw [kindOf, hk]
  have hlt : v.toNat % 4 < 4 := Nat.mod_lt _ (by decide)
  generalize v.toNat % 4 = k at hlt
  obtain rfl | rfl | rfl | rfl : k = 0 ∨ k = 1 ∨ k = 2 ∨ k = 3 := by omega
  all_goals exact ⟨rfl, rfl⟩

/-- A read depends on its own memory alone. -/
theorem memRead_congr {sp : Space} {s t : State} (h : t.memory sp = s.memory sp) (i : Nat) :
    memRead sp i t = memRead sp i s := by rw [memRead, memRead, h]

/-- An empty memory reads as an unlisted cell. -/
theorem memRead_of_nil {sp : Space} {s : State} (h : s.memory sp = []) (i : Nat) : memRead sp i s = sp.unlisted := by
  rw [memRead, h]; rfl

/-- HIST_CLEAR empties a history memory that is present (R66). -/
theorem histClear_memory_present {s : State} {j : Nat} (h₁ : 1 ≤ j) (h₄ : j ≤ 4) (hp : j ≤ s.cfg.pHistAvail) :
    (histClear s).memory (histSpace j) = [] := by
  obtain rfl | rfl | rfl | rfl : j = 1 ∨ j = 2 ∨ j = 3 ∨ j = 4 := by omega
  all_goals exact if_pos hp

/-- HIST_CLEAR leaves FB, and every history memory that is not present (R66). -/
theorem histClear_memory_other {s : State} {sp : Space}
    (h : ¬∃ j, 1 ≤ j ∧ j ≤ 4 ∧ j ≤ s.cfg.pHistAvail ∧ sp = histSpace j) : (histClear s).memory sp = s.memory sp := by
  have absent (hn : 1 ≤ sp.number) : ¬sp.number ≤ s.cfg.pHistAvail := fun hp =>
    h ⟨sp.number, hn, number_le_four sp, hp, (histSpace_number sp hn).symm⟩
  cases sp with
  | fb => rfl
  | h1 | h2 | h3 | h4 => exact if_neg (absent (by decide))

theorem unlisted_histSpace {j : Nat} (h₁ : 1 ≤ j) (h₄ : j ≤ 4) : (histSpace j).unlisted = some 0 := by
  obtain rfl | rfl | rfl | rfl : j = 1 ∨ j = 2 ∨ j = 3 ∨ j = 4 := by omega
  all_goals rfl

/-- A state with the memories HIST_CLEAR leaves has its history cleared, seen through reads (R66). -/
theorem historyCleared_of_mem {s t : State} (h : t.mem = (histClear s).mem) : historyCleared s t := by
  refine ⟨fun j i h₁ h₄ hp => ?_, fun sp i hn => memRead_congr ?_ i⟩
  · rw [memRead_of_nil ((memory_congr h _).trans (histClear_memory_present h₁ h₄ hp)), unlisted_histSpace h₁ h₄]
  · exact (memory_congr h sp).trans (histClear_memory_other hn)

/-- A write of the mode as it was changes nothing (R58). -/
theorem writeBlCtrl_same {v : Word} {s : State} (h : kindOf v = s.bl.mode) : writeBlCtrl v s = s := by
  rw [writeBlCtrl, if_pos h, h]

/-- A write of another mode clears history, and raises ALLOC when its memories are missing (R58). -/
theorem writeBlCtrl_changed {v : Word} {s : State} (h : kindOf v ≠ s.bl.mode) :
    writeBlCtrl v s =
      { s with
        status := if need (kindOf v) > s.cfg.pHistAvail then (s.raise .alloc).status else s.status
        bl := { s.bl with mode := kindOf v }
        mem := (histClear s).mem } := by
  rw [writeBlCtrl, if_neg h]
  dsimp only
  split <;> rfl

/-- Settles O22: the statement's two tables are MODE and Need, and a changed mode leaves the memories as HIST_CLEAR
does. -/
theorem blendModeWrite : Obligations.BlendModeWrite := by
  unfold Obligations.BlendModeWrite
  intro s v
  dsimp only
  obtain ⟨hkind, hneed⟩ := kindOf_eq_getD v
  rw [← hkind, ← hneed]
  refine ⟨fun hm => exec_wrreg_of_eq (r := .blCtrl) (writeBlCtrl_same hm), fun hm =>
    ⟨_, exec_wrreg_of_eq (r := .blCtrl) (writeBlCtrl_changed hm), historyCleared_of_mem rfl, rfl⟩⟩

/-! ## The reset table -/

/-- The block of a build is in its reset state, but for FB, the words to be delivered and the responses (R68). -/
structure State.AtReset (c : Config) (s : State) : Prop where
  cfg : s.cfg = c
  status : s.status = statusAtReset c
  rs : s.rs = (State.powerOn c).rs
  pc : s.pc = (State.powerOn c).pc
  bl : s.bl = (State.powerOn c).bl
  history : ∀ sp, sp ≠ .fb → s.memory sp = []

theorem powerOn_atReset (c : Config) : (State.powerOn c).AtReset c :=
  ⟨rfl, rfl, rfl, rfl, rfl, fun sp _ => by cases sp <;> rfl⟩

theorem resetBlock_memory_hist (s : State) {sp : Space} (h : sp ≠ .fb) : (resetBlock s).memory sp = [] := by
  cases sp with
  | fb => exact absurd rfl h
  | h1 | h2 | h3 | h4 => rfl

/-- What RESET answers is in the reset state, with FB as it was (R134). -/
theorem atReset_of_reset {s t : State} (h : exec .reset s = .next t) :
    t.AtReset s.cfg ∧ t.memory .fb = s.memory .fb := by
  obtain rfl : t = (resetBlock s).respond 0 := done_eq_next.1 h
  refine ⟨⟨rfl, rfl, rfl, rfl, rfl, fun sp hsp => ?_⟩, rfl⟩
  rw [respond_memory, resetBlock_memory_hist s hsp]

/-- A register reads the same in two states that differ in the memories and the port only. -/
theorem readReg_congr {s t : State} (hcfg : t.cfg = s.cfg) (hst : t.status = s.status) (hrs : t.rs = s.rs)
    (hpc : t.pc = s.pc) (hbl : t.bl = s.bl) (r : Reg) : readReg r t = readReg r s := by
  cases s; cases t
  subst hcfg hst hrs hpc hbl
  rfl

/-- In the reset state RDREG answers the register's value after power-on (R68, R131). -/
theorem State.AtReset.exec_rdreg {c : Config} {s : State} (h : s.AtReset c) (r : Reg) :
    exec (.rdreg r.number) s = done (readReg r (State.powerOn c)) s := by
  rw [exec_rdreg_number, readReg_congr (s := State.powerOn c) h.cfg h.status h.rs h.pc h.bl]

/-- CAPS as a number (R34). -/
theorem readReg_caps {s : State} (h : s.cfg.legal = true) :
    readReg .caps s = BitVec.ofNat 32
      ((if s.cfg.pSincOk then 1 else 0) + 2 * s.cfg.pHistAvail + (if s.cfg.pPixFmt = .xrgb8888 then 16 else 0)) := by
  have hhist : s.cfg.pHistAvail ≤ 4 := by
    simp only [Config.legal, Config.legalHist, Bool.and_eq_true, decide_eq_true_eq] at h
    omega
  rw [readReg]
  generalize s.cfg.pHistAvail = k at hhist
  obtain rfl | rfl | rfl | rfl | rfl : k = 0 ∨ k = 1 ∨ k = 2 ∨ k = 3 ∨ k = 4 := by omega
  all_goals cases s.cfg.pSincOk <;> cases s.cfg.pPixFmt <;> rfl

theorem backendBit_eq (b : Backend) : backendBit b = BitVec.ofNat 32 (if b = .cosine then 1 else 0) := by
  cases b <;> rfl

/-- The counters and flags that R68 resets to 0. -/
def zeroCounterRegs : List Reg :=
  [.rsAvail, .rsBlkcnt, .rsDropcnt, .pcSamplesLo, .pcSamplesHi, .pcFramesLo, .pcFramesHi, .pcStat]

/-- The blender registers that R68 resets to 0. -/
def zeroBlendRegs : List Reg := [.blCtrl, .blStat, .blW1, .blW2, .blW3, .blW4]

theorem readReg_powerOn_counter (c : Config) :
    ∀ r ∈ zeroCounterRegs, readReg r (State.powerOn c) = BitVec.ofNat 32 0 := by
  simp [zeroCounterRegs, readReg, State.powerOn, bit0]

theorem powerOn_bl (c : Config) :
    (State.powerOn c).bl =
      { mode := .off, w1 := 0, w2 := 0, w3 := 0, w4 := 0, width := c.pWReset, height := c.pHReset,
        pitch := c.pPitchReset } := rfl

/-- The mode in effect after power-on is none, which needs no memory (R58, R68). -/
theorem effMode_powerOn (c : Config) : effMode (State.powerOn c) = .off := by
  unfold effMode
  split <;> rfl

theorem readReg_powerOn_blend (c : Config) :
    ∀ r ∈ zeroBlendRegs, readReg r (State.powerOn c) = BitVec.ofNat 32 0 := by
  simp [zeroBlendRegs, readReg, effMode_powerOn, powerOn_bl, kindBits]

theorem readReg_powerOn_status (c : Config) :
    readReg .status (State.powerOn c) =
      BitVec.ofNat 32 (if c.pSelReset = .sinc ∧ c.pSincOk = false then 0x10 else 0) := by
  simp only [readReg, State.powerOn, statusAtReset]
  split <;> rfl

/-- The registers that read by the backend in effect: RS_STAT, RS_RATE and RS_PHASE (R40, R42, R47). -/
theorem readReg_powerOn_effective (c : Config) :
    let eff : Nat := if c.pSelReset = .sinc ∧ c.pSincOk = true then 0 else 1
    readReg .rsStat (State.powerOn c) = BitVec.ofNat 32 eff ∧
      readReg .rsRate (State.powerOn c) = BitVec.ofNat 32 (if eff = 0 then c.pFi / c.pD else c.pFo) ∧
      readReg .rsPhase (State.powerOn c) = BitVec.ofNat 32 (if eff = 0 then 0 else c.pFo) := by
  have heff : effBackend (State.powerOn c) = if c.pSelReset = .sinc ∧ c.pSincOk = true then .sinc else .cosine := rfl
  dsimp only [readReg]
  split at heff
  · next hsinc => rw [heff, if_pos hsinc]; exact ⟨rfl, rfl, rfl⟩
  · next hcos => rw [heff, if_neg hcos]; exact ⟨rfl, rfl, rfl⟩

/-- Settles O26: both starts are the reset state, whose registers read as after power-on and whose history is empty. -/
theorem resetTableReadsBack : Obligations.ResetTableReadsBack := by
  unfold Obligations.ResetTableReadsBack
  intro s₀ s hl hs
  have hat : s.AtReset s₀.cfg := by
    rcases hs with rfl | hs
    · exact powerOn_atReset s₀.cfg
    · exact (atReset_of_reset hs).1
  have hread {r : Reg} {v : Nat} (h : readReg r (State.powerOn s₀.cfg) = BitVec.ofNat 32 v) :
      exec (.rdreg r.number) s = .next { s with resps := s.resps ++ [BitVec.ofNat 32 v] } := by
    rw [hat.exec_rdreg, h]; rfl
  obtain ⟨hstat, hrate, hphase⟩ := readReg_powerOn_effective s₀.cfg
  refine ⟨hread (r := .caps) (readReg_caps hl), hread (r := .status) (readReg_powerOn_status _),
    hread (r := .rsCtrl) (backendBit_eq _), hread (r := .rsStat) hstat, hread (r := .rsRate) hrate, fun n hn => ?_,
    hread (r := .rsCap) ((BitVec.ofNat_toNat 32 _).trans (BitVec.setWidth_eq _)).symm,
    hread (r := .rsPhase) hphase, hread (r := .pcSpf) rfl, hread (r := .pcMult) rfl,
    fun n hn => ?_, hread (r := .blWf) (BitVec.ofNat_toNat 32 _).symm,
    hread (r := .blWidth) (BitVec.ofNat_toNat 32 _).symm, hread (r := .blHeight) (BitVec.ofNat_toNat 32 _).symm,
    hread (r := .blPitch) (BitVec.ofNat_toNat 32 _).symm, fun j x h₁ h₄ => ?_, fun hr x => ?_⟩
  · obtain ⟨r, hr, rfl⟩ := List.mem_map.1 (show n ∈ zeroCounterRegs.map Reg.number from hn)
    exact hread (readReg_powerOn_counter _ r hr)
  · obtain ⟨r, hr, rfl⟩ := List.mem_map.1 (show n ∈ zeroBlendRegs.map Reg.number from hn)
    exact hread (readReg_powerOn_blend _ r hr)
  · have hne : histSpace j ≠ .fb := fun h => by simpa [h, Space.unlisted] using unlisted_histSpace h₁ h₄
    rw [memRead_of_nil (hat.history _ hne), unlisted_histSpace h₁ h₄]
  · exact memRead_congr (atReset_of_reset hr).2 x

end Sys2Proof.Machine

/-! SUPPORT and PROOF (O59). Which cells each command may change, and that no completed command changes another. -/

namespace Sys2Proof.Machine

/-! ## The cells a command may change -/

/-- The registers whose write can clear history (R58, R133). -/
def historyClearingRegs : List Reg := [.blCtrl, .blWidth, .blHeight, .blPitch]

/-- A command may change this cell (R66, R82, R83, R134): BL_FRAME an active cell of any memory, FB_WR its own FB cell,
RESET and a write of a register that clears history any history cell, and every other command none. -/
def mayChange (i : Instr) (s : State) (sp : Space) (x : Nat) : Prop :=
  match i with
  | .blFrame => effMode s ≠ .off ∧ geomValid s = true ∧ x ∈ activeCells s.bl
  | .fbWr a _ => sp = .fb ∧ x = a.toNat
  | .reset => sp ≠ .fb
  | .wrreg n _ => sp ≠ .fb ∧ n ∈ historyClearingRegs.map Reg.number
  | .nop | .rdreg _ | .rsPush _ _ | .rsPop | .rsMark | .pcCheck | .pcAdd _ | .pcCommit | .pcClear | .fbRd _
  | .histRd _ _ => False

/-- From `s` to `t` only cells of `cells` read differently. -/
def ChangesAtMost (cells : Space → Nat → Prop) (s t : State) : Prop :=
  ∀ sp x, memRead sp x t ≠ memRead sp x s → cells sp x

/-- The response at a command's end is in no cell. -/
@[simp] theorem memRead_respond (sp : Space) (x : Nat) (s : State) (v : Word) :
    memRead sp x (s.respond v) = memRead sp x s := memRead_congr (respond_memory s v sp) x

theorem changesAtMost_of_mem {cells : Space → Nat → Prop} {s t : State} (h : t.mem = s.mem) :
    ChangesAtMost cells s t :=
  fun sp x hx => absurd (memRead_congr (memory_congr h sp) x) hx

/-- Where FB is kept, every cell that differs is a history cell. -/
theorem changesAtMost_of_fb {s t : State} (h : t.memory .fb = s.memory .fb) :
    ChangesAtMost (fun sp _ => sp ≠ .fb) s t := by
  rintro sp x hx rfl
  exact hx (memRead_congr h x)

/-! ## Commands that change no cell -/

theorem execRdreg_mem (n : BitVec 8) (s : State) : Ends (fun t => t.mem = s.mem) (execRdreg n s) := by
  rcases execRdreg_cases n s with ⟨-, he⟩ | ⟨r, -, he⟩ <;> simp [he]

theorem execRsPush_mem (l r : Sample) (s : State) : Ends (fun t => t.mem = s.mem) (execRsPush l r s) := by
  rcases execRsPush_cases l r s with ⟨-, he⟩ | ⟨-, he⟩ <;> simp [he]

theorem execRsPop_mem (s : State) : Ends (fun t => t.mem = s.mem) (execRsPop s) := by
  rcases execRsPop_cases s with ⟨-, he⟩ | ⟨y, ys, -, he⟩ <;> simp [he]

theorem execPcCheck_mem (s : State) : Ends (fun t => t.mem = s.mem) (execPcCheck s) := by
  rcases execPcCheck_cases s with ⟨-, he⟩ | ⟨-, he⟩ <;> simp [he]

theorem execPcCommit_mem (s : State) : Ends (fun t => t.mem = s.mem) (execPcCommit s) := by
  rcases execPcCommit_cases s with ⟨-, he⟩ | ⟨-, he⟩ <;> simp [he]

theorem execFbRd_mem (a : BitVec 16) (s : State) : Ends (fun t => t.mem = s.mem) (execFbRd a s) := by
  rcases execFbRd_cases a s with ⟨-, he⟩ | ⟨-, ⟨-, he⟩ | ⟨p, -, he⟩⟩ <;> simp [he]

theorem execHistRd_mem (j : BitVec 8) (a : BitVec 16) (s : State) :
    Ends (fun t => t.mem = s.mem) (execHistRd j a s) := by
  rcases execHistRd_cases j a s with ⟨-, he⟩ | ⟨-, -, -, he⟩ <;> simp [he]

/-! ## Commands that change cells -/

/-- A register write keeps FB, and clears history through the registers of `historyClearingRegs` only. -/
theorem execWrreg_changes (n : BitVec 8) (v : Word) (s : State) :
    Ends (ChangesAtMost (mayChange (.wrreg n v) s) s) (execWrreg n v s) := by
  rcases execWrreg_cases n v s with ⟨-, he⟩ | ⟨r, rfl, he⟩ <;> rw [he, ends_done]
  · exact changesAtMost_of_mem rfl
  · rcases writeReg_mem r v s with hm | ⟨hr, -⟩
    · exact changesAtMost_of_mem hm
    · have hfb : ((writeReg r v s).respond 0).memory .fb = s.memory .fb := writeReg_fb r v s
      exact fun sp x hx => ⟨changesAtMost_of_fb hfb sp x hx, List.mem_map_of_mem hr⟩

theorem execReset_changes (s : State) : Ends (ChangesAtMost (mayChange .reset s) s) (execReset s) :=
  (ends_done ..).2 (changesAtMost_of_fb rfl)

theorem execFbWr_changes (a : BitVec 16) (p : Word) (s : State) :
    Ends (ChangesAtMost (mayChange (.fbWr a p) s) s) (execFbWr a p s) := by
  rcases execFbWr_cases a p s with ⟨-, he⟩ | ⟨-, he⟩ <;> rw [he, ends_done]
  · exact changesAtMost_of_mem rfl
  · exact fun sp x hx => Classical.byContradiction fun hne =>
      hx ((memRead_respond ..).trans (memRead_memWrite_ne _ _ _ _ _ _ hne))

theorem execBlFrame_changes (s : State) : Ends (ChangesAtMost (mayChange .blFrame s) s) (execBlFrame s) := by
  rcases execBlFrame_cases s with ⟨-, he⟩ | ⟨-, -, he⟩ | ⟨hm, hg, ⟨f, -, he⟩ | ⟨t, ht, he⟩⟩ <;> rw [he]
  · exact (ends_done ..).2 (changesAtMost_of_mem rfl)
  · exact (ends_done ..).2 (changesAtMost_of_mem rfl)
  · exact ends_fault _ f
  · obtain ⟨-, -, -, -, -, -, -, hkept⟩ := blendCells_frame _ _ s t ht
    exact (ends_done ..).2 fun sp x hx => ⟨hm, hg, Classical.byContradiction fun hne =>
      hx ((memRead_respond ..).trans (hkept sp x hne))⟩

/-- Which cells a completed command can have changed, said once for every command. -/
theorem exec_changes (i : Instr) (s : State) : Ends (ChangesAtMost (mayChange i s) s) (exec i s) := by
  have kept {r : Result} (h : Ends (fun t => t.mem = s.mem) r) : Ends (ChangesAtMost (mayChange i s) s) r :=
    h.imp fun _ => changesAtMost_of_mem
  cases i with
  | nop | rsMark | pcAdd | pcClear => exact kept ((ends_done ..).2 rfl)
  | rdreg n => exact kept (execRdreg_mem n s)
  | rsPush l r => exact kept (execRsPush_mem l r s)
  | rsPop => exact kept (execRsPop_mem s)
  | pcCheck => exact kept (execPcCheck_mem s)
  | pcCommit => exact kept (execPcCommit_mem s)
  | fbRd a => exact kept (execFbRd_mem a s)
  | histRd j a => exact kept (execHistRd_mem j a s)
  | wrreg n v => exact execWrreg_changes n v s
  | reset => exact execReset_changes s
  | blFrame => exact execBlFrame_changes s
  | fbWr a p => exact execFbWr_changes a p s

/-! ## The commands that may change a cell of FB, and of history -/

theorem mayChange_fb {i : Instr} {s : State} {x : Nat} (h : mayChange i s .fb x) :
    (∃ a p, i = .fbWr a p) ∨ i = .blFrame := by
  cases i with
  | fbWr a p => exact .inl ⟨a, p, rfl⟩
  | blFrame => exact .inr rfl
  | reset => exact absurd rfl h
  | wrreg n v => exact absurd rfl h.1
  | nop | rdreg | rsPush | rsPop | rsMark | pcCheck | pcAdd | pcCommit | pcClear | fbRd | histRd => exact h.elim

theorem mayChange_history {i : Instr} {s : State} {sp : Space} {x : Nat} (hsp : sp ≠ .fb) (h : mayChange i s sp x) :
    i = .blFrame ∨ i = .reset ∨ ∃ n v, i = .wrreg n v ∧ n ∈ historyClearingRegs.map Reg.number := by
  cases i with
  | fbWr a p => exact absurd h.1 hsp
  | blFrame => exact .inl rfl
  | reset => exact .inr (.inl rfl)
  | wrreg n v => exact .inr (.inr ⟨n, v, rfl, h.2⟩)
  | nop | rdreg | rsPush | rsPop | rsMark | pcCheck | pcAdd | pcCommit | pcClear | fbRd | histRd => exact h.elim

/-- Settles O59: a cell that differs is one the command may change, and that names the command. -/
theorem cellsChangeOnlyByTheirCommands : Obligations.CellsChangeOnlyByTheirCommands := by
  unfold Obligations.CellsChangeOnlyByTheirCommands
  intro i s t ht
  have hchanges := exec_changes i s t ht
  exact ⟨fun x hx => mayChange_fb (hchanges .fb x hx), fun sp x hsp hx => mayChange_history hsp (hchanges sp x hx)⟩

end Sys2Proof.Machine

/-! SUPPORT and PROOF (O1 to O5, O7, O10). The fields of a command word, the formats' masks as conditions on those
fields, and from them the decoder as the inverse of the encoder; the one response of a completed command; the step on
an illegal word. -/

namespace Sys2Proof

open Sys2Proof.Laws Sys2Proof.Machine

/-! ## The fields of a command word -/

/-- Field OP on numbers: the word's quotient by 2^56 (R101). -/
theorem fieldOp_toNat (c : Command) : (fieldOp c).toNat = c.toNat / 2 ^ 56 := by
  rw [fieldOp, BitVec.extractLsb'_toNat, Nat.shiftRight_eq_div_pow]
  omega

theorem fieldA_toNat (c : Command) : (fieldA c).toNat = c.toNat / 2 ^ 48 % 2 ^ 8 := by
  rw [fieldA, BitVec.extractLsb'_toNat, Nat.shiftRight_eq_div_pow]

theorem fieldB_toNat (c : Command) : (fieldB c).toNat = c.toNat / 2 ^ 32 % 2 ^ 16 := by
  rw [fieldB, BitVec.extractLsb'_toNat, Nat.shiftRight_eq_div_pow]

theorem fieldD_toNat (c : Command) : (fieldD c).toNat = c.toNat % 2 ^ 32 := by
  rw [fieldD, BitVec.extractLsb'_toNat, Nat.shiftRight_zero]

theorem toNat_append_eq {m n : Nat} (x : BitVec m) (y : BitVec n) : (x ++ y).toNat = x.toNat * 2 ^ n + y.toNat := by
  rw [BitVec.toNat_append, ← Nat.shiftLeft_add_eq_or_of_lt y.isLt, Nat.shiftLeft_eq]

/-- A word on numbers, from its fields (R101). -/
theorem wordOf_toNat (op a : BitVec 8) (b : BitVec 16) (d : Word) :
    (wordOf op a b d).toNat = op.toNat * 2 ^ 56 + a.toNat * 2 ^ 48 + b.toNat * 2 ^ 32 + d.toNat := by
  simp only [wordOf, toNat_append_eq]
  omega

@[simp] theorem fieldOp_wordOf (op a : BitVec 8) (b : BitVec 16) (d : Word) : fieldOp (wordOf op a b d) = op :=
  BitVec.eq_of_toNat_eq (by rw [fieldOp_toNat, wordOf_toNat]; omega)

@[simp] theorem fieldA_wordOf (op a : BitVec 8) (b : BitVec 16) (d : Word) : fieldA (wordOf op a b d) = a :=
  BitVec.eq_of_toNat_eq (by rw [fieldA_toNat, wordOf_toNat]; omega)

@[simp] theorem fieldB_wordOf (op a : BitVec 8) (b : BitVec 16) (d : Word) : fieldB (wordOf op a b d) = b :=
  BitVec.eq_of_toNat_eq (by rw [fieldB_toNat, wordOf_toNat]; omega)

@[simp] theorem fieldD_wordOf (op a : BitVec 8) (b : BitVec 16) (d : Word) : fieldD (wordOf op a b d) = d :=
  BitVec.eq_of_toNat_eq (by rw [fieldD_toNat, wordOf_toNat]; omega)

/-- Every word is made up of its four fields (R101). -/
theorem wordOf_fields (c : Command) : wordOf (fieldOp c) (fieldA c) (fieldB c) (fieldD c) = c :=
  BitVec.eq_of_toNat_eq (by rw [wordOf_toNat, fieldOp_toNat, fieldA_toNat, fieldB_toNat, fieldD_toNat]; omega)

/-- Two words are equal exactly when their fields are. -/
theorem wordOf_inj {op a op' a' : BitVec 8} {b b' : BitVec 16} {d d' : Word} :
    wordOf op a b d = wordOf op' a' b' d' ↔ op = op' ∧ a = a' ∧ b = b' ∧ d = d' := by
  constructor
  · intro h
    exact ⟨by simpa using congrArg fieldOp h, by simpa using congrArg fieldA h, by simpa using congrArg fieldB h,
      by simpa using congrArg fieldD h⟩
  · rintro ⟨rfl, rfl, rfl, rfl⟩
    rfl

/-! ## The samples of a pair -/

theorem leftOf_toNat (d : Word) : (leftOf d).toNat = d.toNat / 2 ^ 16 := by
  rw [leftOf, BitVec.extractLsb'_toNat, Nat.shiftRight_eq_div_pow]
  omega

theorem rightOf_toNat (d : Word) : (rightOf d).toNat = d.toNat % 2 ^ 16 := by
  rw [rightOf, BitVec.extractLsb'_toNat, Nat.shiftRight_zero]

@[simp] theorem leftOf_append (l r : Sample) : leftOf (l ++ r) = l :=
  BitVec.eq_of_toNat_eq (by rw [leftOf_toNat, toNat_append_eq]; omega)

@[simp] theorem rightOf_append (l r : Sample) : rightOf (l ++ r) = r :=
  BitVec.eq_of_toNat_eq (by rw [rightOf_toNat, toNat_append_eq]; omega)

@[simp] theorem leftOf_append_rightOf (d : Word) : leftOf d ++ rightOf d = d :=
  BitVec.eq_of_toNat_eq (by rw [toNat_append_eq, leftOf_toNat, rightOf_toNat]; omega)

/-! ## The masks -/

/-- The fields that a format does not use are 0 (R102, R108). -/
def Format.ReservedZero (f : Format) (a : BitVec 8) (b : BitVec 16) (d : Word) : Prop :=
  match f with
  | .N => a = 0 ∧ b = 0 ∧ d = 0
  | .R => b = 0 ∧ d = 0
  | .W => b = 0
  | .D => a = 0 ∧ b = 0
  | .X => a = 0
  | .Y => a = 0 ∧ d = 0
  | .H => d = 0

/-- The match rule of R103 says that the reserved fields of R102 are 0. -/
theorem mask_eq_matchWord_iff (f : Format) (op a : BitVec 8) (b : BitVec 16) (d : Word) :
    wordOf op a b d &&& f.mask = matchWord op ↔ f.ReservedZero a b d := by
  rw [TableMatch.mask_eq, TableMatch.matchWord_eq]
  cases f <;>
    simp only [TableMatch.wordOf_and, wordOf_inj, BitVec.ofNat_eq_ofNat,
      BitVec.and_allOnes, BitVec.and_zero, true_and, and_true, Format.ReservedZero]

/-! ## The decoder -/

/-- The decoder accepts a word when its opcode is assigned and the word is in the opcode's format (R107). -/
theorem decode_eq_ok_iff {c : Command} {i : Instr} :
    decode c = .ok i ↔ ∃ f, opcodeMap c = some (f, i) ∧ c &&& f.mask = matchWord (fieldOp c) := by
  unfold decode
  split
  · next hmap => simp [hmap]
  · next f j hmap =>
    split
    · next hfmt =>
      constructor
      · intro hd
        cases hd
        exact ⟨f, hmap, hfmt⟩
      · rintro ⟨f', hmap', -⟩
        cases hmap.symm.trans hmap'
        rfl
    · next hfmt =>
      constructor
      · intro hd
        cases hd
      · rintro ⟨f', hmap', hfmt'⟩
        cases hmap.symm.trans hmap'
        exact absurd hfmt' hfmt

/-- The decoder rejects a word for its opcode exactly when the map has no row for it (R107). -/
theorem decode_eq_unassigned_iff {c : Command} : decode c = .error .unassignedOpcode ↔ opcodeMap c = none := by
  unfold decode
  split
  · next hmap => simp [hmap]
  · next f j hmap => simp only [hmap]; split <;> simp

/-- The opcode map has no row for exactly the opcodes of R110's four ranges. -/
theorem opcodeMap_eq_none_iff {c : Command} :
    opcodeMap c = none ↔
      (0x04 ≤ (fieldOp c).toNat ∧ (fieldOp c).toNat ≤ 0x0F) ∨ (0x13 ≤ (fieldOp c).toNat ∧ (fieldOp c).toNat ≤ 0x1F) ∨
        (0x24 ≤ (fieldOp c).toNat ∧ (fieldOp c).toNat ≤ 0x2F) ∨ 0x34 ≤ (fieldOp c).toNat := by
  unfold opcodeMap
  split <;> simp only [reduceCtorEq, imp_false, true_iff, false_iff] at * <;> omega

/-- The opcode map finds every command, with its operands, in the command's encoding (R104, R106). -/
theorem opcodeMap_encode (i : Instr) : opcodeMap (encode i) = some (i.format, i) := by
  cases i <;> simp [opcodeMap, encode, Instr.opcode, Instr.format]

theorem fieldOp_encode (i : Instr) : fieldOp (encode i) = i.opcode := by
  cases i <;> exact fieldOp_wordOf ..

/-- Every encoding is in the format of its opcode (R103), gathered from the commands' own lemmas. -/
theorem encode_and_mask (i : Instr) : encode i &&& i.format.mask = matchWord i.opcode := by
  cases i with
  | nop => exact TableMatch.nop
  | rdreg n => exact TableMatch.rdreg n
  | wrreg n v => exact TableMatch.wrreg n v
  | reset => exact TableMatch.reset
  | rsPush l r => exact TableMatch.rsPush l r
  | rsPop => exact TableMatch.rsPop
  | rsMark => exact TableMatch.rsMark
  | pcCheck => exact TableMatch.pcCheck
  | pcAdd n => exact TableMatch.pcAdd n
  | pcCommit => exact TableMatch.pcCommit
  | pcClear => exact TableMatch.pcClear
  | blFrame => exact TableMatch.blFrame
  | fbWr x p => exact TableMatch.fbWr x p
  | fbRd x => exact TableMatch.fbRd x
  | histRd j x => exact TableMatch.histRd j x

/-- Every command comes back from its encoding. -/
theorem decode_encode (i : Instr) : decode (encode i) = .ok i :=
  decode_eq_ok_iff.2 ⟨i.format, opcodeMap_encode i, by rw [encode_and_mask, fieldOp_encode]⟩

/-- A word whose reserved fields are 0 is the encoding of the command its opcode selects. -/
theorem encode_of_opcodeMap {op a : BitVec 8} {b : BitVec 16} {d : Word} {f : Format} {i : Instr}
    (hmap : opcodeMap (wordOf op a b d) = some (f, i)) (hres : f.ReservedZero a b d) : encode i = wordOf op a b d := by
  simp only [opcodeMap, fieldOp_wordOf, fieldA_wordOf, fieldB_wordOf, fieldD_wordOf] at hmap
  split at hmap <;> cases hmap <;> next hop =>
    simp only [Format.ReservedZero] at hres
    exact wordOf_inj.2 ⟨(BitVec.eq_of_toNat_eq hop).symm, by simp [hres]⟩

/-- Settles O2: the opcode map inverts the encoder, and the mask of a format says that the fields which the command does
not use are 0. -/
theorem decodeInvertsEncode : Obligations.DecodeInvertsEncode := by
  unfold Obligations.DecodeInvertsEncode
  intro c i
  constructor
  · intro hd
    obtain ⟨f, hmap, hfmt⟩ := decode_eq_ok_iff.1 hd
    rw [← wordOf_fields c, fieldOp_wordOf, mask_eq_matchWord_iff] at hfmt
    rw [← wordOf_fields c] at hmap ⊢
    exact (encode_of_opcodeMap hmap hfmt).symm
  · rintro rfl
    exact decode_encode i

/-- Settles O4: the opcode map has no row for exactly those opcodes; and the encoding of NOP is 0. -/
theorem unassignedOpcodesAreIllegal : Obligations.UnassignedOpcodesAreIllegal := by
  unfold Obligations.UnassignedOpcodesAreIllegal
  constructor
  · intro c
    rw [decode_eq_unassigned_iff, opcodeMap_eq_none_iff, fieldOp_toNat]
  · intro c
    exact decodeInvertsEncode c .nop

/-- The commands without operands (R102, format N). -/
def bareCommands : List Instr := [.nop, .reset, .rsPop, .rsMark, .pcCheck, .pcCommit, .pcClear, .blFrame]

theorem encode_bareCommand : ∀ i ∈ bareCommands, encode i = wordOf i.opcode 0 0 0 := by
  simp [bareCommands, encode]

/-- Settles O5: a word is accepted when it is some command's encoding, and two words are equal when their fields are. -/
theorem reservedFieldsMustBeZero : Obligations.ReservedFieldsMustBeZero := by
  unfold Obligations.ReservedFieldsMustBeZero
  intro op a b d
  simp only [decodeInvertsEncode _ _]
  constructor
  · rintro ⟨i, hi⟩
    cases i <;> obtain ⟨rfl, rfl, rfl, rfl⟩ := wordOf_inj.1 hi <;> simp [Instr.opcode]
  · rintro (⟨hop, rfl, rfl, rfl⟩ | ⟨rfl, rfl, rfl⟩ | ⟨rfl, rfl⟩ | ⟨hop, rfl, rfl⟩ | ⟨rfl, rfl⟩ | ⟨rfl, rfl, rfl⟩ |
      ⟨rfl, rfl⟩)
    · obtain ⟨i, hi, rfl⟩ := List.mem_map.1 (show op ∈ bareCommands.map Instr.opcode from hop)
      exact ⟨i, (encode_bareCommand i hi).symm⟩
    · exact ⟨.rdreg a, rfl⟩
    · exact ⟨.wrreg a d, rfl⟩
    · simp only [List.mem_cons, List.not_mem_nil, or_false] at hop
      rcases hop with rfl | rfl
      · exact ⟨.rsPush (leftOf d) (rightOf d), by simp [encode, Instr.opcode]⟩
      · exact ⟨.pcAdd d, rfl⟩
    · exact ⟨.fbWr b d, rfl⟩
    · exact ⟨.fbRd b, rfl⟩
    · exact ⟨.histRd a b, rfl⟩

/-- A number decodes to the command whose encoding it is. -/
theorem decode_ofNat {i : Instr} {w : Nat} (h : (encode i).toNat = w) : decode (BitVec.ofNat 64 w) = .ok i :=
  (decodeInvertsEncode _ i).2 (by rw [← h, BitVec.ofNat_toNat, BitVec.setWidth_eq])

/-- A sample holds an integer of its range as it is (R10). -/
theorem toInt_ofInt_sample {l : Int} (h : -32768 ≤ l) (h' : l ≤ 32767) : (BitVec.ofInt 16 l : Sample).toInt = l := by
  rw [BitVec.toInt_ofInt]
  exact Int.bmod_eq_of_le h (Int.lt_add_one_of_le h')

/-- Settles O3: each number is that of the command's encoding, field by field. -/
theorem operandsStandWhereSaid : Obligations.OperandsStandWhereSaid := by
  unfold Obligations.OperandsStandWhereSaid
  refine ⟨fun n hn => decode_ofNat ?_, fun n hn v hv => decode_ofNat ?_, fun l r hl hl' hr hr' =>
      ⟨BitVec.ofInt 16 l, BitVec.ofInt 16 r, toInt_ofInt_sample hl hl', toInt_ofInt_sample hr hr', decode_ofNat ?_⟩,
    fun v hv => decode_ofNat ?_, fun x hx p hp => decode_ofNat ?_, fun x hx => decode_ofNat ?_,
    fun j hj x hx => decode_ofNat ?_⟩
  all_goals
    simp only [encode, wordOf_toNat, toNat_append_eq, Instr.opcode, BitVec.toNat_ofNat, BitVec.toNat_ofInt,
      BitVec.ofNat_eq_ofNat]
    omega

/-! ## The worked encodings -/

/-- A line that stands for one command assembles to its word, which decodes to the command (R107, R113). -/
theorem assembled_word {line : String} {i : Instr} {c : Command} (hline : assembleLine line = some [i])
    (hword : encode i = c) : assembleWords line = some [c] ∧ decode c = .ok i ∧ encode i = c := by
  subst hword
  exact ⟨by rw [assembleWords, hline]; rfl, decode_encode i, rfl⟩

/-- Settles O1: each line stands for one command, and the encoder gives the rule's word. -/
theorem workedEncodings : Obligations.WorkedEncodings := by
  unfold Obligations.WorkedEncodings
  exact ⟨assembled_word (by decide) rfl, assembled_word (by decide) rfl, assembled_word (by decide) rfl,
    assembled_word (by decide) rfl, assembled_word (by decide) rfl, assembled_word (by decide) rfl⟩

end Sys2Proof

namespace Sys2Proof.Machine

/-! ## The response -/

/-- What a command's end does to the build and the port (R90, R112): both are kept but for one response more, which is
0 unless the command is one of those that answer a value. -/
def Answers (i : Instr) (s t : State) : Prop :=
  t.cfg = s.cfg ∧ t.cmds = s.cmds ∧ ∃ v, t.resps = s.resps ++ [v] ∧ (respondsValue i = false → v = 0)

/-- The build, the words to be delivered and the responses are as they were. -/
def PortKept (s t : State) : Prop := t.cfg = s.cfg ∧ t.cmds = s.cmds ∧ t.resps = s.resps

/-- A command that keeps the port up to its end answers once: a value where it may answer one, and else 0. -/
theorem ends_answers {i : Instr} {s t : State} {v : Word} (h : PortKept s t) (hv : respondsValue i = true ∨ v = 0) :
    Ends (Answers i s) (done v t) := by
  obtain ⟨hcfg, hcmds, hresps⟩ := h
  refine (ends_done ..).2 ⟨hcfg, hcmds, v, congrArg (· ++ [v]) hresps, fun hi => hv.resolve_left ?_⟩
  simp [hi]

theorem portKept_refl (s : State) : PortKept s s := ⟨rfl, rfl, rfl⟩

theorem portKept_raise (s : State) (e : Err) : PortKept s (s.raise e) := ⟨rfl, rfl, rfl⟩

theorem execRdreg_answers (n : BitVec 8) (s : State) : Ends (Answers (.rdreg n) s) (execRdreg n s) := by
  rcases execRdreg_cases n s with ⟨-, he⟩ | ⟨r, -, he⟩ <;> rw [he]
  · exact ends_answers (portKept_raise s _) (.inl rfl)
  · exact ends_answers (portKept_refl s) (.inl rfl)

theorem execWrreg_answers (n : BitVec 8) (v : Word) (s : State) :
    Ends (Answers (.wrreg n v) s) (execWrreg n v s) := by
  rcases execWrreg_cases n v s with ⟨-, he⟩ | ⟨r, -, he⟩ <;> rw [he]
  · exact ends_answers (portKept_raise s _) (.inr rfl)
  · exact ends_answers ⟨writeReg_cfg r v s, writeReg_cmds r v s, writeReg_resps r v s⟩ (.inr rfl)

theorem execRsPush_answers (l r : Sample) (s : State) : Ends (Answers (.rsPush l r) s) (execRsPush l r s) := by
  rcases execRsPush_cases l r s with ⟨-, he⟩ | ⟨-, he⟩ <;> rw [he]
  · exact ends_answers ⟨rfl, rfl, rfl⟩ (.inr rfl)
  · exact ends_answers ⟨backendStep_cfg .., backendStep_cmds .., backendStep_resps ..⟩ (.inr rfl)

theorem execRsPop_answers (s : State) : Ends (Answers .rsPop s) (execRsPop s) := by
  rcases execRsPop_cases s with ⟨-, he⟩ | ⟨y, ys, -, he⟩ <;> rw [he] <;>
    exact ends_answers ⟨rfl, rfl, rfl⟩ (.inl rfl)

theorem execPcCheck_answers (s : State) : Ends (Answers .pcCheck s) (execPcCheck s) := by
  rcases execPcCheck_cases s with ⟨-, he⟩ | ⟨-, he⟩ <;> rw [he] <;> exact ends_answers ⟨rfl, rfl, rfl⟩ (.inl rfl)

theorem execPcCommit_answers (s : State) : Ends (Answers .pcCommit s) (execPcCommit s) := by
  rcases execPcCommit_cases s with ⟨-, he⟩ | ⟨-, he⟩ <;> rw [he] <;> exact ends_answers ⟨rfl, rfl, rfl⟩ (.inr rfl)

theorem execBlFrame_answers (s : State) : Ends (Answers .blFrame s) (execBlFrame s) := by
  rcases execBlFrame_cases s with ⟨-, he⟩ | ⟨-, -, he⟩ | ⟨-, -, ⟨f, -, he⟩ | ⟨t, ht, he⟩⟩ <;> rw [he]
  · exact ends_answers (portKept_refl s) (.inr rfl)
  · exact ends_answers (portKept_raise s _) (.inr rfl)
  · exact ends_fault _ f
  · obtain ⟨hcfg, -, -, -, -, hcmds, hresps, -⟩ := blendCells_frame _ _ s t ht
    exact ends_answers ⟨hcfg, hcmds, hresps⟩ (.inr rfl)

theorem execFbWr_answers (x : BitVec 16) (p : Word) (s : State) : Ends (Answers (.fbWr x p) s) (execFbWr x p s) := by
  rcases execFbWr_cases x p s with ⟨-, he⟩ | ⟨-, he⟩ <;> rw [he]
  · exact ends_answers (portKept_raise s _) (.inr rfl)
  · exact ends_answers ⟨memWrite_cfg .., memWrite_cmds .., memWrite_resps ..⟩ (.inr rfl)

theorem execFbRd_answers (x : BitVec 16) (s : State) : Ends (Answers (.fbRd x) s) (execFbRd x s) := by
  rcases execFbRd_cases x s with ⟨-, he⟩ | ⟨-, ⟨-, he⟩ | ⟨p, -, he⟩⟩ <;> rw [he]
  · exact ends_answers (portKept_raise s _) (.inl rfl)
  · exact ends_fault _ _
  · exact ends_answers (portKept_refl s) (.inl rfl)

theorem execHistRd_answers (j : BitVec 8) (x : BitVec 16) (s : State) :
    Ends (Answers (.histRd j x) s) (execHistRd j x s) := by
  rcases execHistRd_cases j x s with ⟨-, he⟩ | ⟨-, -, -, he⟩ <;> rw [he]
  · exact ends_answers (portKept_raise s _) (.inl rfl)
  · exact ends_answers (portKept_refl s) (.inl rfl)

/-- What every completed command does to the port, said once. -/
theorem exec_answers (i : Instr) (s : State) : Ends (Answers i s) (exec i s) := by
  cases i with
  | nop | reset | rsMark | pcAdd | pcClear => exact ends_answers ⟨rfl, rfl, rfl⟩ (.inr rfl)
  | rdreg n => exact execRdreg_answers n s
  | wrreg n v => exact execWrreg_answers n v s
  | rsPush l r => exact execRsPush_answers l r s
  | rsPop => exact execRsPop_answers s
  | pcCheck => exact execPcCheck_answers s
  | pcCommit => exact execPcCommit_answers s
  | blFrame => exact execBlFrame_answers s
  | fbWr x p => exact execFbWr_answers x p s
  | fbRd x => exact execFbRd_answers x s
  | histRd j x => exact execHistRd_answers j x s

/-- Settles O10: every command ends by handing over one response, and up to there keeps the port. -/
theorem oneResponsePerCommand : Obligations.OneResponsePerCommand := by
  unfold Obligations.OneResponsePerCommand
  intro i s t ht
  exact exec_answers i s t ht

/-! ## Illegal words -/

/-- Settles O7: of the step's cases, only the illegal word fits the premises, and it raises ILLEGAL, bit 0 of STATUS. -/
theorem illegalWordRaisesIllegalOnly : Obligations.IllegalWordRaisesIllegalOnly := by
  unfold Obligations.IllegalWordRaisesIllegalOnly
  intro s c rest e hl hc hd
  rcases step_cases s with ⟨hl', -⟩ | ⟨-, hc', -⟩ | ⟨c', rest', -, hc', hrun⟩
  · simp [hl] at hl'
  · simp [hc] at hc'
  · obtain ⟨rfl, rfl⟩ := List.cons.inj (hc.symm.trans hc')
    rcases hrun with ⟨e', -, he⟩ | ⟨i, hd', -⟩
    · rw [he, illegalWord_eq]
      rfl
    · simp [hd] at hd'

end Sys2Proof.Machine

/-! SUPPORT and PROOF (O16, O17, O23 to O25). NOP's word; each register's value as the number its rule gives; a write of
the geometry; a write of the value a register reads as; RESET. -/

namespace Sys2Proof

/-! ## NOP -/

/-- NOP alone has opcode 0 (R106). -/
theorem opcode_eq_zero_iff {i : Instr} : i.opcode = 0 ↔ i = .nop := by
  cases i <;> simp [Instr.opcode]

/-- A nonzero word with opcode 0 is rejected for a reserved field: the opcode is assigned, and the one command that has
it is encoded as 0 (R110, R130). -/
theorem decode_of_opcode_zero {c : Command} (hop : c.toNat / 2 ^ 56 = 0) (hc : c ≠ 0) :
    decode c = .error .reservedField := by
  cases hd : decode c with
  | ok i =>
    have henc := (decodeInvertsEncode c i).1 hd
    have hi : i.opcode = 0 := by
      rw [← fieldOp_encode, ← henc]
      exact BitVec.eq_of_toNat_eq ((fieldOp_toNat c).trans hop)
    obtain rfl := opcode_eq_zero_iff.1 hi
    exact absurd henc hc
  | error e =>
    cases e with
    | reservedField => rfl
    | unassignedOpcode =>
      have hrange := (unassignedOpcodesAreIllegal.1 c).1 hd
      omega

/-- Settles O16: NOP is the one command of opcode 0, and 0 is its encoding. -/
theorem nopChangesNothing : Obligations.NopChangesNothing := by
  unfold Obligations.NopChangesNothing
  exact ⟨fun _ => rfl, decode_encode .nop, decode_of_opcode_zero (by decide) (by decide),
    fun _ => decode_of_opcode_zero⟩

end Sys2Proof

namespace Sys2Proof.Machine

/-! ## The values registers read as -/

/-- RDREG of a register that reads as a number answers it (R131). -/
theorem exec_rdreg_of_eq {r : Reg} {s : State} {v : Nat} (h : readReg r s = BitVec.ofNat 32 v) :
    exec (.rdreg r.number) s = .next { s with resps := s.resps ++ [BitVec.ofNat 32 v] } := by
  rw [exec_rdreg_number, h]
  rfl

/-- The low half of a 64-bit counter (R50, R51). -/
theorem lowHalf_eq_ofNat (x : BitVec 64) : x.extractLsb' 0 32 = BitVec.ofNat 32 (x.toNat % 2 ^ 32) :=
  BitVec.eq_of_toNat_eq (by simp)

/-- The high half of a 64-bit counter (R50, R51). -/
theorem highHalf_eq_ofNat (x : BitVec 64) : x.extractLsb' 32 32 = BitVec.ofNat 32 (x.toNat / 2 ^ 32) :=
  BitVec.eq_of_toNat_eq (by
    rw [BitVec.extractLsb'_toNat, Nat.shiftRight_eq_div_pow, BitVec.toNat_ofNat])

/-- PC_STAT as a number (R53). -/
theorem readReg_pcStat (s : State) :
    readReg .pcStat s = BitVec.ofNat 32 ((if s.pc.lastDupe then 1 else 0) + (if s.pc.run then 2 else 0)) := by
  rw [readReg]
  cases s.pc.lastDupe <;> cases s.pc.run <;> rfl

/-- The registers that read by the backend in effect: RS_STAT, RS_RATE and RS_PHASE (R40, R42, R47). -/
theorem readReg_effective (s : State) :
    let eff : Nat := if s.rs.sel = .sinc ∧ s.cfg.pSincOk = true then 0 else 1
    readReg .rsStat s = BitVec.ofNat 32 eff ∧
      readReg .rsRate s = BitVec.ofNat 32 (if eff = 0 then s.cfg.pFi / s.cfg.pD else s.cfg.pFo) ∧
      readReg .rsPhase s = BitVec.ofNat 32 (if eff = 0 then s.rs.ph else s.rs.cr.toNat) := by
  simp only [readReg, effBackend]
  split
  · exact ⟨rfl, rfl, rfl⟩
  · exact ⟨rfl, rfl, by simp⟩

/-- The mode in effect as a number: the configured one where its memories are present, and else 0 (R59). -/
theorem readReg_blStat {s : State} {m : Nat} (h : kindBits s.bl.mode = BitVec.ofNat 32 m) :
    readReg .blStat s = BitVec.ofNat 32 (if need s.bl.mode ≤ s.cfg.pHistAvail then m else 0) := by
  rw [readReg, effMode]
  split
  · exact h
  · rfl

/-- Settles O17: register by register, the value read is the number the statement names. -/
theorem registersReadTheirValues : Obligations.RegistersReadTheirValues := by
  unfold Obligations.RegistersReadTheirValues
  intro s hl eff mode memories reads
  have hread (r : Reg) {v : Nat} (h : readReg r s = BitVec.ofNat 32 v) : reads r.number v := exec_rdreg_of_eq h
  have hbits (r : Reg) {n : Nat} {x : BitVec n} (h : readReg r s = x.zeroExtend 32) : reads r.number x.toNat :=
    hread r (h.trans (BitVec.ofNat_toNat 32 x).symm)
  have hword (r : Reg) {w : Word} (h : readReg r s = w) : reads r.number w.toNat :=
    hbits r (h.trans (BitVec.setWidth_eq w).symm)
  have hmode : kindBits s.bl.mode = BitVec.ofNat 32 mode := by
    dsimp only [mode]; cases s.bl.mode <;> rfl
  have hneed : need s.bl.mode = memories := by
    dsimp only [memories]; cases s.bl.mode <;> rfl
  obtain ⟨hstat, hrate, hphase⟩ := readReg_effective s
  exact ⟨⟨hread .caps (readReg_caps hl), hbits .status rfl, hread .rsCtrl (backendBit_eq _), hread .rsStat hstat,
      hread .rsRate hrate, hread .rsAvail rfl, hword .rsCap rfl, hword .rsBlkcnt rfl, hword .rsDropcnt rfl,
      hread .rsPhase hphase⟩,
    ⟨hread .pcSamplesLo (lowHalf_eq_ofNat _), hread .pcSamplesHi (highHalf_eq_ofNat _),
      hread .pcFramesLo (lowHalf_eq_ofNat _), hread .pcFramesHi (highHalf_eq_ofNat _), hword .pcSpf rfl,
      hbits .pcMult rfl, hread .pcStat (readReg_pcStat s)⟩,
    hread .blCtrl hmode, hneed ▸ hread .blStat (readReg_blStat hmode), hbits .blW1 rfl, hbits .blW2 rfl,
    hbits .blW3 rfl, hbits .blW4 rfl, hbits .blWf rfl, hbits .blWidth rfl, hbits .blHeight rfl, hbits .blPitch rfl⟩

/-! ## The geometry -/

/-- A write of the geometry value that the register holds changes nothing (R133). -/
theorem writeGeometry_same {v : Word} {old : BitVec 16} {set : BitVec 16 → Blender → Blender} {s : State}
    (hold : set old s.bl = s.bl) (h : low16 v = old) : writeGeometry v old set s = s := by
  rw [writeGeometry, if_pos h, h, hold]

/-- A write of another geometry value stores it and clears history (R133). -/
theorem writeGeometry_changed {v : Word} {old : BitVec 16} {set : BitVec 16 → Blender → Blender} {s : State}
    (h : low16 v ≠ old) :
    writeGeometry v old set s = { s with bl := set (low16 v) s.bl, mem := (histClear s).mem } :=
  if_neg h

/-- Settles O23: each of the three numbers is that of a register with the one geometry write, on its own field. -/
theorem geometryWrites : Obligations.GeometryWrites := by
  unfold Obligations.GeometryWrites
  intro s v n old set hn
  have hwrite : exec (.wrreg n v) s = done 0 (writeGeometry v old set s) ∧ set old s.bl = s.bl := by
    rcases hn with ⟨rfl, rfl, rfl⟩ | ⟨rfl, rfl, rfl⟩ | ⟨rfl, rfl, rfl⟩
    · exact ⟨exec_wrreg_number .blWidth v s, rfl⟩
    · exact ⟨exec_wrreg_number .blHeight v s, rfl⟩
    · exact ⟨exec_wrreg_number .blPitch v s, rfl⟩
  obtain ⟨hexec, hold⟩ := hwrite
  dsimp only
  rw [hexec, ← low16_eq]
  refine ⟨fun hsame => ?_, fun hchanged => ?_⟩
  · rw [writeGeometry_same hold hsame]; rfl
  · rw [writeGeometry_changed hchanged]
    exact ⟨_, rfl, historyCleared_of_mem rfl, rfl⟩

/-! ## Writing the value a register reads as -/

@[simp] theorem backendOf_backendBit (b : Backend) : backendOf (backendBit b) = b := by cases b <;> rfl

@[simp] theorem kindOf_kindBits (k : BlendKind) : kindOf (kindBits k) = k := by cases k <;> rfl

@[simp] theorem low16_zeroExtend (w : BitVec 16) : low16 (w.zeroExtend 32) = w :=
  BitVec.eq_of_toNat_eq (by simpa [low16] using w.isLt)

/-- Selecting the backend that is selected gives no notice and initialises nothing (R39). -/
theorem writeRsCtrl_same (s : State) : writeRsCtrl (backendBit s.rs.sel) s = s := by
  have hnotice : ¬(s.rs.sel = .sinc ∧ s.cfg.pSincOk = false ∧ s.rs.sel = .cosine) := by
    rintro ⟨hsinc, -, hcos⟩
    cases hsinc.symm.trans hcos
  rw [writeRsCtrl_eq, backendOf_backendBit, if_neg hnotice, if_pos rfl]

/-- A samples-per-frame value of at least 1 is accepted again (R56). -/
theorem writePcSpf_same {s : State} (h : 1 ≤ s.pc.spf.toNat) : writePcSpf s.pc.spf s = s :=
  if_neg fun hzero => by simp [hzero] at h

/-- A legal multiplier is accepted again (R57). -/
theorem writePcMult_same {s : State} (h : 1 ≤ s.pc.mult.toNat ∧ s.pc.mult.toNat ≤ 5) :
    writePcMult (s.pc.mult.zeroExtend 32) s = s := by
  have hv : (s.pc.mult.zeroExtend 32).toNat % 8 = s.pc.mult.toNat := by
    rw [BitVec.toNat_setWidth]; omega
  rw [writePcMult_of_legal (by rwa [hv]), hv, BitVec.ofNat_toNat, BitVec.setWidth_eq]

/-- A legal weight is accepted again (R60). -/
theorem writeWeight_same {w : BitVec 16} {set : BitVec 16 → Blender → Blender} {s : State} (hw : w.toNat ≤ 0x100)
    (hold : set w s.bl = s.bl) : writeWeight (w.zeroExtend 32) set s = s := by
  rw [writeWeight, low16_zeroExtend, if_neg (Nat.not_lt.2 hw), hold]

/-- The registers that store what is written to them (R33). -/
def storedRegs : List Reg :=
  [.rsCtrl, .rsCap, .pcSpf, .pcMult, .blCtrl, .blW1, .blW2, .blW3, .blW4, .blWidth, .blHeight, .blPitch]

/-- A write of the value that a stored register reads as changes nothing (R132). -/
theorem writeReg_readReg {s : State} (h : s.Inv) : ∀ r ∈ storedRegs, writeReg r (readReg r s) s = s := by
  obtain ⟨h1, h2, h3, h4⟩ := h.weights
  simp only [storedRegs, List.forall_mem_cons, readReg, writeReg]
  exact ⟨writeRsCtrl_same s, trivial, writePcSpf_same h.spf, writePcMult_same h.mult,
    writeBlCtrl_same (kindOf_kindBits _), writeWeight_same h1 rfl, writeWeight_same h2 rfl, writeWeight_same h3 rfl,
    writeWeight_same h4 rfl, writeGeometry_same rfl (low16_zeroExtend _), writeGeometry_same rfl (low16_zeroExtend _),
    writeGeometry_same rfl (low16_zeroExtend _), List.forall_mem_nil _⟩

/-- Settles O24: such a write changes nothing, and WRREG answers 0. -/
theorem equalValueWriteHasNoEffect : Obligations.EqualValueWriteHasNoEffect := by
  unfold Obligations.EqualValueWriteHasNoEffect
  intro s r h hr
  exact exec_wrreg_of_eq (writeReg_readReg h r hr)

/-! ## RESET -/

/-- Settles O25: RESET completes with response 0 in the state that resetBlock gives, which is the reset table's, with FB
and the port kept. -/
theorem resetRestoresResetValues : Obligations.ResetRestoresResetValues := by
  unfold Obligations.ResetRestoresResetValues
  intro s
  show done 0 (resetBlock s) = _
  rfl

end Sys2Proof.Machine

/-! SUPPORT and PROOF (O27, O28, O36, O37). RS_PUSH as the backend's step with the pair counted; a run of pushes as the
backend's steps alone; what an accepted push leaves; RS_POP and RS_MARK. -/

namespace Sys2Proof.Machine

/-! ## Counting and answering apart from the backend's step -/

/-- The state with another RS_BLKCNT and other responses: all that RS_PUSH and RS_MARK do outside the backend (R151,
R155). -/
def State.withBlock (s : State) (b : Word) (rsp : List Word) : State :=
  { s with rs := { s.rs with blkcnt := b }, resps := rsp }

@[simp] theorem withBlock_cfg (s : State) (b : Word) (rsp : List Word) : (s.withBlock b rsp).cfg = s.cfg := rfl
@[simp] theorem withBlock_status (s : State) (b : Word) (rsp : List Word) :
    (s.withBlock b rsp).status = s.status := rfl
@[simp] theorem withBlock_rs (s : State) (b : Word) (rsp : List Word) :
    (s.withBlock b rsp).rs = { s.rs with blkcnt := b } := rfl
@[simp] theorem withBlock_resps (s : State) (b : Word) (rsp : List Word) : (s.withBlock b rsp).resps = rsp := rfl
@[simp] theorem withBlock_withBlock (s : State) (b b' : Word) (rsp rsp' : List Word) :
    (s.withBlock b rsp).withBlock b' rsp' = s.withBlock b' rsp' := rfl

/-- EMIT neither reads nor changes RS_BLKCNT and the responses. -/
theorem emit_withBlock (yl yr : Int) (s : State) (b : Word) (rsp : List Word) :
    emit yl yr (s.withBlock b rsp) = (emit yl yr s).withBlock b rsp := by
  by_cases h : s.rs.outq.length = s.cfg.pQ
  · rw [emit, emit, if_pos h, if_pos (by exact h)]
    rfl
  · rw [emit, emit, if_neg h, if_neg (by exact h)]
    rfl

/-- SINC_STEP at the last phase: the accumulators are scattered and shifted, and the first leaves as a pair (R161). -/
theorem sincStep_last {s : State} (h : s.rs.ph = s.cfg.pD - 1) (l r : Sample) :
    sincStep l r s =
      emit (sincOut ((sincScatter s.cfg s.rs.ph l.toInt 0 s.rs.saccL).headD 0).toInt)
        (sincOut ((sincScatter s.cfg s.rs.ph r.toInt 0 s.rs.saccR).headD 0).toInt)
        { s with
          rs :=
            { s.rs with
              saccL := sincShift (sincScatter s.cfg s.rs.ph l.toInt 0 s.rs.saccL)
              saccR := sincShift (sincScatter s.cfg s.rs.ph r.toInt 0 s.rs.saccR)
              ph := 0 } } := if_pos h

/-- SINC_STEP below the last phase: the accumulators are scattered and nothing leaves (R161). -/
theorem sincStep_middle {s : State} (h : s.rs.ph ≠ s.cfg.pD - 1) (l r : Sample) :
    sincStep l r s =
      { s with
        rs :=
          { s.rs with
            saccL := sincScatter s.cfg s.rs.ph l.toInt 0 s.rs.saccL
            saccR := sincScatter s.cfg s.rs.ph r.toInt 0 s.rs.saccR
            ph := s.rs.ph + 1 } } := if_neg h

theorem sincStep_withBlock (l r : Sample) (s : State) (b : Word) (rsp : List Word) :
    sincStep l r (s.withBlock b rsp) = (sincStep l r s).withBlock b rsp := by
  by_cases h : s.rs.ph = s.cfg.pD - 1
  · rw [sincStep_last h, sincStep_last (s := s.withBlock b rsp) h, ← emit_withBlock]
    rfl
  · rw [sincStep_middle h, sincStep_middle (s := s.withBlock b rsp) h]
    rfl

/-- One turn of COS_STEP's loop: a pair is emitted and CR advances by P_FI (R170). -/
def cosTurn (l r : Sample) (s : State) : State :=
  let i := s.rs.cr.toNat * 256 / s.cfg.pFo
  let t := emit (cosInterp s.rs.caL.toInt l.toInt i) (cosInterp s.rs.caR.toInt r.toInt i) s
  { t with rs := { t.rs with cr := BitVec.ofNat 32 (s.rs.cr.toNat + s.cfg.pFi) } }

/-- While CR is at most P_FO, the loop takes a turn (R170). -/
theorem cosLoop_succ {s : State} (h : s.rs.cr.toNat ≤ s.cfg.pFo) (l r : Sample) (n : Nat) :
    cosLoop l r (n + 1) s = cosLoop l r n (cosTurn l r s) := by
  rw [cosLoop, if_pos h]
  simp only [emit_rs_cr, cosTurn]

theorem cosTurn_withBlock (l r : Sample) (s : State) (b : Word) (rsp : List Word) :
    cosTurn l r (s.withBlock b rsp) = (cosTurn l r s).withBlock b rsp := by
  simp only [cosTurn, emit_withBlock]
  rfl

theorem cosLoop_withBlock (l r : Sample) (n : Nat) (s : State) (b : Word) (rsp : List Word) :
    cosLoop l r n (s.withBlock b rsp) = (cosLoop l r n s).withBlock b rsp := by
  induction n generalizing s with
  | zero => rfl
  | succ n ih =>
    by_cases h : s.rs.cr.toNat ≤ s.cfg.pFo
    · rw [cosLoop_succ h, cosLoop_succ (s := s.withBlock b rsp) h, cosTurn_withBlock, ih]
    · rw [cosLoop_stop l r _ s (by omega), cosLoop_stop l r _ (s.withBlock b rsp) (Nat.lt_of_not_le h)]

theorem backendStep_withBlock (l r : Sample) (s : State) (b : Word) (rsp : List Word) :
    backendStep l r (s.withBlock b rsp) = (backendStep l r s).withBlock b rsp := by
  have heff : effBackend (s.withBlock b rsp) = effBackend s := rfl
  unfold backendStep
  rw [heff]
  split
  · exact sincStep_withBlock l r s b rsp
  · simp only [cosStep, withBlock_cfg, cosLoop_withBlock]
    rfl

/-! ## RS_PUSH -/

theorem exec_rsPush (l r : Sample) (s : State) : exec (.rsPush l r) s = execRsPush l r s := rfl

/-- An accepted push is the backend's step, with the pair counted and 0 answered (R151, R152). -/
theorem exec_rsPush_accepted {s : State} (h : s.rs.blkcnt.toNat < s.rs.cap.toNat) (l r : Sample) :
    exec (.rsPush l r) s = .next ((backendStep l r s).withBlock (s.rs.blkcnt + 1) (s.resps ++ [0])) := by
  rcases execRsPush_cases l r s with ⟨hcap, -⟩ | ⟨-, he⟩
  · omega
  · have hcount := backendStep_withBlock l r s (s.rs.blkcnt + 1) s.resps
    have hresps : ((backendStep l r s).withBlock (s.rs.blkcnt + 1) s.resps).respond 0 =
        (backendStep l r s).withBlock (s.rs.blkcnt + 1) (s.resps ++ [0]) := rfl
    rw [exec_rsPush, he, ← hresps, ← hcount]
    rfl

/-- Below a 32-bit cap the count does not wrap (R153). -/
theorem blkcnt_succ_toNat {b cap : Word} (h : b.toNat < cap.toNat) : (b + 1).toNat = b.toNat + 1 := by
  have := cap.isLt
  rw [BitVec.toNat_add, show (1 : Word).toNat = 1 from rfl, Nat.mod_eq_of_lt (by omega)]

/-- Where one error may be raised, every other STATUS bit stays. -/
theorem RaisesAtMost.flag_ne {e e' : Err} {s t : State} (h : RaisesAtMost [e] s t) (hne : e' ≠ e) :
    t.flag e' = s.flag e' := by
  rcases h with h | ⟨e₁, he₁, h⟩
  · exact flag_congr h e'
  · obtain rfl := List.mem_singleton.1 he₁
    rw [flag_congr h, raise_flag_ne s hne]

/-- The backend's step takes no pair out of OUTQ. -/
theorem backendStep_outq_mono (l r : Sample) (s : State) : s.rs.outq <+: (backendStep l r s).rs.outq := by
  unfold backendStep
  split
  · by_cases h : s.rs.ph = s.cfg.pD - 1
    · rw [sincStep_last h]
      exact emit_outq_mono _ _ { s with rs := { s.rs with saccL := _, saccR := _, ph := 0 } }
    · exact ⟨[], by rw [sincStep_middle h, List.append_nil]⟩
  · exact cosLoop_outq_mono l r _ s

theorem backendStep_sinc {s : State} (h : s.rs.sel = .sinc ∧ s.cfg.pSincOk = true) (l r : Sample) :
    backendStep l r s = sincStep l r s := by
  rw [backendStep, (effBackend_eq_sinc_iff s).2 h]

theorem backendStep_cosine {s : State} (h : ¬(s.rs.sel = .sinc ∧ s.cfg.pSincOk = true)) (l r : Sample) :
    backendStep l r s = cosStep l r s := by
  rw [backendStep, show effBackend s = .cosine from if_neg h]

/-- The saturating count of RS_DROPCNT, as an addition on 32 bits (R152). -/
theorem saturating_succ (d : Word) :
    BitVec.ofNat 32 (min (d.toNat + 1) 0xFFFFFFFF) = if d = 0xFFFFFFFF then 0xFFFFFFFF else d + 1 := by
  split
  · next h => rw [h]; rfl
  · next h =>
    have hd : d.toNat ≠ 0xFFFFFFFF := fun he => h (BitVec.eq_of_toNat_eq he)
    rw [Nat.min_eq_left (by have := d.isLt; omega)]
    apply BitVec.eq_of_toNat_eq
    simp

/-- Settles O27: a push at the cap is the dropped pair alone; a push below it counts no drop and can raise OVF only. -/
theorem pushAtCapDropsPair : Obligations.PushAtCapDropsPair := by
  unfold Obligations.PushAtCapDropsPair
  refine fun s l r => ⟨fun hcap => ?_, fun hroom => ⟨_, exec_rsPush_accepted hroom l r, by simp, ?_⟩⟩
  · rcases execRsPush_cases l r s with ⟨-, he⟩ | ⟨hroom, -⟩
    · rw [exec_rsPush, he, ← saturating_succ]
      rfl
    · omega
  · exact (backendStep_raises l r s).flag_ne (by decide)

/-- Settles O28: the accepted push is the backend's step but for the count and the response, so its frame is that
step's. -/
theorem acceptedPushFrame : Obligations.AcceptedPushFrame := by
  unfold Obligations.AcceptedPushFrame
  intro s l r hroom
  refine ⟨_, exec_rsPush_accepted hroom l r, blkcnt_succ_toNat hroom, by simp, by simp, by simp,
    backendStep_outq_mono l r s, fun hsinc => ?_, fun hcos => ?_, fun e he => (backendStep_raises l r s).flag_ne he,
    backendStep_cfg l r s, backendStep_pc l r s, backendStep_bl l r s, backendStep_mem l r s, backendStep_cmds l r s,
    rfl⟩
  · simp [backendStep_sinc hsinc]
  · simp [backendStep_cosine hcos]

/-! ## Runs of pushes -/

/-- The steps of the backend in effect alone, over a list of input pairs. -/
def feed (xs : List (Sample × Sample)) (s : State) : State := xs.foldl (fun t x => backendStep x.1 x.2 t) s

theorem feed_append (xs ys : List (Sample × Sample)) (s : State) : feed (xs ++ ys) s = feed ys (feed xs s) :=
  List.foldl_append

theorem feed_snoc (xs : List (Sample × Sample)) (x : Sample × Sample) (s : State) :
    feed (xs ++ [x]) s = backendStep x.1 x.2 (feed xs s) := feed_append xs [x] s

theorem feed_withBlock (xs : List (Sample × Sample)) (s : State) (b : Word) (rsp : List Word) :
    feed xs (s.withBlock b rsp) = (feed xs s).withBlock b rsp := by
  induction xs generalizing s with
  | nil => rfl
  | cons x xs ih => exact (congrArg (feed xs) (backendStep_withBlock x.1 x.2 s b rsp)).trans (ih _)

/-- What a run of pushes rests on, the backend's steps keep: the build, SEL and RS_CAP. -/
theorem feed_kept (xs : List (Sample × Sample)) (s : State) :
    (feed xs s).cfg = s.cfg ∧ (feed xs s).rs.sel = s.rs.sel ∧ (feed xs s).rs.cap = s.rs.cap := by
  induction xs generalizing s with
  | nil => exact ⟨rfl, rfl, rfl⟩
  | cons x xs ih => simpa [feed] using ih (backendStep x.1 x.2 s)

@[simp] theorem feed_cfg (xs : List (Sample × Sample)) (s : State) : (feed xs s).cfg = s.cfg := (feed_kept xs s).1
@[simp] theorem feed_rs_sel (xs : List (Sample × Sample)) (s : State) : (feed xs s).rs.sel = s.rs.sel :=
  (feed_kept xs s).2.1
@[simp] theorem feed_rs_cap (xs : List (Sample × Sample)) (s : State) : (feed xs s).rs.cap = s.rs.cap :=
  (feed_kept xs s).2.2

/-- Induction on a run from its end: what holds of no input, and with each further one, holds of any run. -/
theorem snoc_induction {P : List (Sample × Sample) → Prop} (nil : P []) (snoc : ∀ xs x, P xs → P (xs ++ [x]))
    (xs : List (Sample × Sample)) : P xs := by
  have hrev (ys : List (Sample × Sample)) : P ys.reverse := by
    induction ys with
    | nil => exact nil
    | cons y ys ih => rw [List.reverse_cons]; exact snoc _ y ih
  simpa only [List.reverse_reverse] using hrev xs.reverse

/-- While the cap does not bind, pushes complete and are the backend's steps, with their number counted (R151, R152). -/
theorem execAll_pushes {xs : List (Sample × Sample)} {s : State} (h : s.rs.blkcnt.toNat + xs.length ≤ s.rs.cap.toNat) :
    execAll (pushes xs) s =
      .next ((feed xs s).withBlock (s.rs.blkcnt + BitVec.ofNat 32 xs.length)
        (s.resps ++ List.replicate xs.length 0)) := by
  induction xs generalizing s with
  | nil => simp [pushes, execAll, feed, State.withBlock]
  | cons x xs ih =>
    have hroom : s.rs.blkcnt.toNat < s.rs.cap.toNat := by rw [List.length_cons] at h; omega
    have hrest := ih (s := (backendStep x.1 x.2 s).withBlock (s.rs.blkcnt + 1) (s.resps ++ [0])) (by
      simp only [withBlock_rs, backendStep_rs_cap, blkcnt_succ_toNat hroom]
      rw [List.length_cons] at h
      omega)
    have hcount : s.rs.blkcnt + 1 + BitVec.ofNat 32 xs.length = s.rs.blkcnt + BitVec.ofNat 32 (x :: xs).length := by
      rw [List.length_cons, Nat.add_comm xs.length, BitVec.ofNat_add, BitVec.add_assoc]
      rfl
    simp only [withBlock_rs, withBlock_resps, feed_withBlock, withBlock_withBlock, hcount, List.append_assoc] at hrest
    rw [pushes, List.map_cons, execAll, exec_rsPush_accepted hroom]
    exact hrest

theorem execAll_append {is js : List Instr} {s t : State} (h : execAll is s = .next t) :
    execAll (is ++ js) s = execAll js t := by
  induction is generalizing s with
  | nil => cases h; rfl
  | cons i is ih =>
    rw [List.cons_append, execAll]
    rw [execAll] at h
    cases he : exec i s with
    | next u => rw [he] at h; exact ih h
    | fault f => rw [he] at h; cases h
    | refused r => rw [he] at h; cases h

/-- RS_MARK sets RS_BLKCNT to 0 and answers 0 (R155). -/
theorem exec_rsMark (s : State) : exec .rsMark s = .next (s.withBlock 0 (s.resps ++ [0])) := rfl

/-- Settles O36: both runs are the same backend steps, and RS_MARK only counts and answers. -/
theorem blocksDoNotShiftTheStream : Obligations.BlocksDoNotShiftTheStream := by
  unfold Obligations.BlocksDoNotShiftTheStream
  intro s xs ys h
  have hwhole := execAll_pushes (xs := xs ++ ys) (s := s) (by rw [List.length_append]; omega)
  have hfirst := execAll_pushes (xs := xs) (s := s) (by omega)
  have hcap : ys.length ≤ s.rs.cap.toNat := by omega
  have hsecond := execAll_pushes (xs := ys)
    (s := (feed xs s).withBlock 0 (s.resps ++ List.replicate xs.length 0 ++ [0])) (by simpa using hcap)
  have hparts : execAll (pushes xs ++ .rsMark :: pushes ys) s = execAll (pushes ys)
      ((feed xs s).withBlock 0 (s.resps ++ List.replicate xs.length 0 ++ [0])) := by
    rw [execAll_append hfirst, execAll, exec_rsMark]
    rfl
  refine ⟨_, _, hwhole, hparts.trans hsecond, ?_, ?_⟩ <;> simp [feed_append, feed_withBlock]

/-! ## RS_POP and RS_MARK -/

/-- Settles O37: RS_POP by whether OUTQ is empty; RS_MARK is its definition. -/
theorem popAndMark : Obligations.PopAndMark := by
  unfold Obligations.PopAndMark
  refine ⟨fun s hempty => ?_, fun s y ys hq => ?_, fun s => rfl⟩
  · rcases execRsPop_cases s with ⟨-, he⟩ | ⟨y, ys, hq, -⟩
    · exact he
    · simp [hempty] at hq
  · rcases execRsPop_cases s with ⟨hempty, -⟩ | ⟨y', ys', hq', he⟩
    · simp [hempty] at hq
    · obtain ⟨rfl, rfl⟩ := List.cons.inj (hq.symm.trans hq')
      exact he

end Sys2Proof.Machine

/-! SUPPORT and PROOF (O29 to O32). EMIT as pairs offered to OUTQ; the sinc backend in exact integers: one push, the
rounding, and any run of pushes as the FIR decimation of its input. -/

namespace Sys2Proof.Machine

/-! ## Pairs offered to OUTQ -/

/-- Pairs enter OUTQ in order up to its depth P_Q, and the rest are lost with OVF (R156). -/
def State.offer (s : State) (ys : List Word) : State :=
  { s with
    status := if s.rs.outq.length + ys.length ≤ s.cfg.pQ then s.status else s.status ||| 0x004
    rs := { s.rs with outq := (s.rs.outq ++ ys).take s.cfg.pQ } }

theorem offer_of_room {s : State} {ys : List Word} (h : s.rs.outq.length + ys.length ≤ s.cfg.pQ) :
    s.offer ys = { s with rs := { s.rs with outq := s.rs.outq ++ ys } } := by
  rw [State.offer, if_pos h, List.take_of_length_le (by rwa [List.length_append])]

theorem offer_nil {s : State} (h : s.rs.outq.length ≤ s.cfg.pQ) : s.offer [] = s := by
  rw [offer_of_room (by simpa using h), List.append_nil]

/-- When OUTQ cannot take all that is offered, OVF is raised. -/
theorem offer_of_full {s : State} {ys : List Word} (h : s.cfg.pQ < s.rs.outq.length + ys.length) :
    s.offer ys = { s with
      status := s.status ||| 0x004
      rs := { s.rs with outq := (s.rs.outq ++ ys).take s.cfg.pQ } } := by
  rw [State.offer, if_neg (by omega)]

/-- Pairs offered one after another are the pairs offered together. -/
theorem offer_offer (s : State) (ys zs : List Word) :
    (s.offer ys).offer zs = s.offer (ys ++ zs) := by
  by_cases hy : s.rs.outq.length + ys.length ≤ s.cfg.pQ
  · rw [offer_of_room hy]
    simp only [State.offer, List.length_append, List.append_assoc, Nat.add_assoc]
  · have hq : (s.offer ys).rs.outq.length = s.cfg.pQ := by
      simp only [State.offer, List.length_take, List.length_append]
      omega
    have hst : (s.offer ys).status ||| 0x004 = (s.offer ys).status := by
      rw [offer_of_full (by omega), BitVec.or_assoc]
      rfl
    have htake : ((s.offer ys).rs.outq ++ zs).take s.cfg.pQ = (s.rs.outq ++ (ys ++ zs)).take s.cfg.pQ := by
      rw [List.take_append_of_le_length (Nat.le_of_eq hq.symm), ← List.append_assoc,
        List.take_append_of_le_length (l₁ := s.rs.outq ++ ys) (by rw [List.length_append]; omega)]
      simp [State.offer, List.take_take]
    rw [offer_of_full (ys := ys ++ zs) (by rw [List.length_append]; omega), ← htake, State.offer, hst, ite_self,
      offer_of_full (ys := ys) (by omega)]

/-- EMIT offers its pair. -/
theorem emit_eq_offer {s : State} (h : s.rs.outq.length ≤ s.cfg.pQ) (yl yr : Int) :
    emit yl yr s = s.offer [packPair yl yr] := by
  rcases emit_cases yl yr s with ⟨hfull, he⟩ | ⟨hroom, he⟩ <;> rw [he]
  · rw [offer_of_full (by simp [hfull]), List.take_append_of_le_length (Nat.le_of_eq hfull.symm), ← hfull,
      List.take_length]
    rfl
  · rw [offer_of_room (by rw [List.length_singleton]; omega)]

/-! ## Lists of packed pairs -/

@[simp] theorem packedPairs_length (yl yr : Nat → Int) (n : Nat) : (packedPairs yl yr n).length = n := by
  simp [packedPairs]

theorem packedPairs_congr {yl yr yl' yr' : Nat → Int} {n : Nat} (hl : ∀ j < n, yl j = yl' j)
    (hr : ∀ j < n, yr j = yr' j) : packedPairs yl yr n = packedPairs yl' yr' n :=
  List.map_congr_left fun j hj => by rw [hl j (List.mem_range.1 hj), hr j (List.mem_range.1 hj)]

theorem packedPairs_add (yl yr : Nat → Int) (m n : Nat) :
    packedPairs yl yr (m + n) =
      packedPairs yl yr m ++ packedPairs (fun j => yl (m + j)) (fun j => yr (m + j)) n := by
  simp [packedPairs, List.range_add, Function.comp_def]

/-! ## SINC_OUT -/

/-- An arithmetic shift by 15 is the floor of the quotient by 32768 (R10). -/
theorem asr_fifteen (v : Int) : 32768 * asr v 15 ≤ v ∧ v < 32768 * (asr v 15 + 1) := by
  unfold asr
  omega

/-- Settles O30: the floor of a 16384 more is the nearest integer, halves up, and `sat16` clamps it. -/
theorem sincRoundsToNearestAndSaturates : Obligations.SincRoundsToNearestAndSaturates := by
  unfold Obligations.SincRoundsToNearestAndSaturates
  refine ⟨fun acc => ?_, by decide⟩
  have hfloor := asr_fifteen (acc + 16384)
  unfold sincOut sat16 clamp
  omega

/-- A sum that is a 16-bit sample times 32768 comes out as the sample. -/
theorem sincOut_sample (x : Sample) : sincOut (32768 * x.toInt) = x.toInt := by
  have hlo := x.le_toInt
  have hhi := x.toInt_lt
  have hfloor := asr_fifteen (32768 * x.toInt + 16384)
  unfold sincOut sat16 clamp
  omega

/-! ## Values read with a default -/

theorem getD_of_lt {α : Type} {l : List α} {k : Nat} (h : k < l.length) (d : α) : l.getD k d = l[k] := by
  rw [List.getD_eq_getElem?_getD, List.getElem?_eq_getElem h, Option.getD_some]

theorem getD_of_le {α : Type} {l : List α} {k : Nat} (h : l.length ≤ k) (d : α) : l.getD k d = d := by
  rw [List.getD_eq_getElem?_getD, List.getElem?_eq_none h, Option.getD_none]

theorem getD_append_of_lt {α : Type} {l : List α} {k : Nat} (h : k < l.length) (l' : List α) (d : α) :
    (l ++ l').getD k d = l.getD k d := by
  rw [List.getD_eq_getElem?_getD, List.getD_eq_getElem?_getD, List.getElem?_append_left h]

/-- An appended default changes no value. -/
theorem getD_append_default {α : Type} (l : List α) (k : Nat) (d : α) : (l ++ [d]).getD k d = l.getD k d := by
  by_cases h : k < l.length
  · exact getD_append_of_lt h [d] d
  · rw [getD_of_le (Nat.le_of_not_lt h), List.getD_eq_getElem?_getD, List.getElem?_append_right (Nat.le_of_not_lt h)]
    cases k - l.length <;> rfl

/-! ## One push -/

/-- Under the invariant a scatter adds to accumulator `k` its product, exactly (R161, R163). -/
theorem ChannelInv.scatter_toInt {c : Config} (hc : c.legal = true) {p : Nat} {accs : List Acc} (hp : p < c.pD)
    (h : ChannelInv c p accs) (x : Sample) {k : Nat} (hk : k < c.pT) :
    ((sincScatter c p x.toInt 0 accs).getD k 0).toInt = (accs.getD k 0).toInt + x.toInt * sincCoef c p k := by
  have hlen : k < accs.length := h.length.symm ▸ hk
  have hold := h.bounded k hlen
  have hprod : (x.toInt * sincCoef c p k).natAbs ≤ 2 ^ 30 := natAbs_mul_toInt_le x _
  have hmany := products_le hp hk
  have htaps := (legal_sinc hc).2.2
  rw [getD_of_lt (by rwa [sincScatter_length]), getD_of_lt hlen,
    sincScatter_getElem c p x.toInt 0 k accs hlen, Nat.zero_add]
  exact toInt_ofInt_acc (by have := Int.natAbs_add_le accs[k].toInt (x.toInt * sincCoef c p k); omega)

/-- Accumulator `k` of a shift is the next one of the channel, and 0 past the last (R161). -/
theorem sincShift_getD (accs : List Acc) (k : Nat) : (sincShift accs).getD k 0 = accs.getD (k + 1) 0 := by
  cases accs with
  | nil => exact getD_append_default [] k 0
  | cons a as => exact getD_append_default as k 0

/-- The last accumulator of a shift is 0 (R161). -/
theorem sincShift_last {c : Config} {accs : List Acc} (hT : 1 ≤ c.pT) (h : accs.length = c.pT) :
    (sincShift accs).getD (c.pT - 1) 1 = 0 := by
  have hlen : (sincShift accs).length = c.pT := by
    rw [sincShift_length accs (List.ne_nil_of_length_pos (by omega)), h]
  rw [getD_of_lt (by omega), sincShift_getElem, dif_neg (by omega)]

theorem headD_eq_getD (accs : List Acc) : accs.headD 0 = accs.getD 0 0 := by cases accs <;> rfl

/-- Settles O29: below the last phase a push is a scatter, exact under the invariant; at the last phase it is a scatter,
a shift, and the pair of the two first accumulators offered to OUTQ. -/
theorem sincPushStep : Obligations.SincPushStep := by
  unfold Obligations.SincPushStep
  intro s l r h hroom hsel hok p coef sumL sumR
  have hrs := h.resampler
  obtain ⟨-, hT, -⟩ := legal_sinc h.build
  have hL {k : Nat} (hk : k < s.cfg.pT) := hrs.left.scatter_toInt h.build h.phase l hk
  have hR {k : Nat} (hk : k < s.cfg.pT) := hrs.right.scatter_toInt h.build h.phase r hk
  refine ⟨_, exec_rsPush_accepted hroom l r, fun hmid => ?_, fun hlast => ?_⟩
  · rw [backendStep_sinc ⟨hsel, hok⟩, sincStep_middle (by omega)]
    exact ⟨rfl, rfl, rfl, fun k hk => ⟨hL hk, hR hk⟩⟩
  · rw [backendStep_sinc ⟨hsel, hok⟩, sincStep_last (by omega), emit_eq_offer (by exact hrs.outq), headD_eq_getD,
      headD_eq_getD, hL hT, hR hT]
    refine ⟨rfl, fun k hk => ⟨?_, ?_⟩, ?_, ?_, fun hfree => ?_, fun hfull => ?_⟩
    · exact (congrArg BitVec.toInt (sincShift_getD _ k)).trans (hL hk)
    · exact (congrArg BitVec.toInt (sincShift_getD _ k)).trans (hR hk)
    · exact sincShift_last hT (by rw [sincScatter_length, hrs.left.length])
    · exact sincShift_last hT (by rw [sincScatter_length, hrs.right.length])
    · rw [offer_of_room (by exact hfree)]
      exact ⟨rfl, rfl⟩
    · rw [offer_of_full (by simp [hfull])]
      exact ⟨by simp [← hfull], rfl⟩

/-! ## The FIR sum of R164 -/

theorem inputAt_natCast (xs : List Sample) (t : Nat) : inputAt xs t = (xs.getD t 0).toInt :=
  if_neg (Int.not_lt.2 (Int.natCast_nonneg t))

/-- The input is 0 at the times after the last. -/
theorem inputAt_of_length_le {xs : List Sample} {t : Int} (h : (xs.length : Int) ≤ t) : inputAt xs t = 0 := by
  obtain ⟨k, rfl⟩ := Int.eq_ofNat_of_zero_le (show 0 ≤ t by omega)
  rw [inputAt_natCast, getD_of_le (by omega)]
  rfl

theorem inputAt_snoc_length (xs : List Sample) (x : Sample) : inputAt (xs ++ [x]) xs.length = x.toInt := by
  rw [inputAt_natCast, getD_of_lt (by rw [List.length_append]; exact Nat.lt_succ_self _), List.getElem_concat_length]
  rfl

/-- One more input changes the input at its own time only. -/
theorem inputAt_snoc_ne {xs : List Sample} (x : Sample) {t : Int} (h : t ≠ xs.length) :
    inputAt (xs ++ [x]) t = inputAt xs t := by
  by_cases hlt : t < xs.length
  · unfold inputAt
    split
    · rfl
    · rw [getD_append_of_lt (by omega)]
  · rw [inputAt_of_length_le (by rw [List.length_append, List.length_singleton]; omega),
      inputAt_of_length_le (by omega)]

theorem sum_range_succ (f : Nat → Int) (n : Nat) :
    ((List.range (n + 1)).map f).sum = ((List.range n).map f).sum + f n := by
  rw [List.range_succ, List.map_append, List.sum_append, List.map_singleton, List.sum_singleton]

theorem sum_range_congr {f g : Nat → Int} {n : Nat} (h : ∀ m < n, f m = g m) :
    ((List.range n).map f).sum = ((List.range n).map g).sum :=
  congrArg List.sum (List.map_congr_left fun m hm => h m (List.mem_range.1 hm))

/-- A sum with one term raised by `d` is raised by `d`. -/
theorem sum_range_add_at {f g : Nat → Int} {d : Int} {m n : Nat} (hm : m < n) (hat : f m = g m + d)
    (helse : ∀ k < n, k ≠ m → f k = g k) : ((List.range n).map f).sum = ((List.range n).map g).sum + d := by
  induction n with
  | zero => omega
  | succ n ih =>
    rw [sum_range_succ, sum_range_succ]
    by_cases hlast : m = n
    · subst hlast
      rw [hat, sum_range_congr fun k hk => helse k (by omega) (by omega), Int.add_assoc]
    · rw [ih (by omega) fun k hk hne => helse k (by omega) hne, helse n (by omega) (Ne.symm hlast)]
      omega

theorem sum_range_mul (f : Nat → Int) (x : Int) (n : Nat) :
    ((List.range n).map fun m => f m * x).sum = ((List.range n).map f).sum * x := by
  induction n with
  | zero => exact (Int.zero_mul x).symm
  | succ n ih => rw [sum_range_succ, sum_range_succ, ih, Int.add_mul]

theorem sum_range_eq_zero {f : Nat → Int} {n : Nat} (h : ∀ m < n, f m = 0) : ((List.range n).map f).sum = 0 := by
  rw [sum_range_congr (g := fun _ => 0 * 0) h, sum_range_mul, Int.mul_zero]

/-- The FIR sum, with the time of its last input as a natural number. -/
theorem firSum_eq_sum (c : Config) (xs : List Sample) (n : Nat) :
    firSum c xs n =
      ((List.range (c.pD * c.pT)).map fun (m : Nat) =>
        (c.pHp.getD m 0).toInt * inputAt xs (((n + 1) * c.pD : Nat) - 1 - m)).sum := by
  have htime : ((n : Int) + 1) * c.pD = ((n + 1) * c.pD : Nat) := (Int.natCast_mul (n + 1) c.pD).symm
  rw [firSum, htime]

/-- An output that no tap of the last input reaches does not change with it. -/
theorem firSum_snoc_unreached {c : Config} {xs : List Sample} (x : Sample) {n : Nat}
    (h : ∀ m < c.pD * c.pT, xs.length + m + 1 ≠ (n + 1) * c.pD) : firSum c (xs ++ [x]) n = firSum c xs n := by
  rw [firSum_eq_sum, firSum_eq_sum]
  refine sum_range_congr fun m hm => ?_
  have := h m hm
  rw [inputAt_snoc_ne x (by omega)]

/-- An output that tap `m` of the last input reaches gains its product (R164). -/
theorem firSum_snoc_reached {c : Config} {xs : List Sample} (x : Sample) {n m : Nat} (hm : m < c.pD * c.pT)
    (h : xs.length + m + 1 = (n + 1) * c.pD) :
    firSum c (xs ++ [x]) n = firSum c xs n + x.toInt * (c.pHp.getD m 0).toInt := by
  have htime : (((n + 1) * c.pD : Nat) : Int) - 1 - m = xs.length := by omega
  rw [firSum_eq_sum, firSum_eq_sum]
  refine sum_range_add_at hm ?_ fun k hk hne => ?_
  · rw [htime, inputAt_snoc_length, inputAt_of_length_le (Int.le_refl _), Int.mul_zero, Int.zero_add, Int.mul_comm]
  · rw [inputAt_snoc_ne x (by omega)]

/-- An output all of whose inputs are still to come is 0 so far. -/
theorem firSum_of_future {c : Config} {xs : List Sample} {n : Nat} (h : xs.length + c.pD * c.pT ≤ (n + 1) * c.pD) :
    firSum c xs n = 0 := by
  rw [firSum_eq_sum]
  refine sum_range_eq_zero fun m hm => ?_
  rw [inputAt_of_length_le (by omega), Int.mul_zero]

/-- The sum of a list is the sum of its values at the places in it. -/
theorem sum_map_eq_sum_range {α : Type} (f : α → Int) (l : List α) (d : α) :
    (l.map f).sum = ((List.range l.length).map fun m => f (l.getD m d)).sum := by
  refine congrArg List.sum (List.ext_getElem (by simp only [List.length_map, List.length_range]) fun k hk _ => ?_)
  rw [List.length_map] at hk
  rw [List.getElem_map, List.getElem_map, List.getElem_range, getD_of_lt hk]

/-- Over a constant input that covers all the taps, the sum is the input times the sum of the prototype (R166). -/
theorem firSum_replicate {c : Config} (hc : c.legal = true) (x : Sample) {len n : Nat} (hn : c.pT - 1 ≤ n)
    (hlen : (n + 1) * c.pD ≤ len) :
    firSum c (List.replicate len x) n = (c.pHp.map BitVec.toInt).sum * x.toInt := by
  have hhp : c.pHp.length = c.pD * c.pT := by
    simp only [Config.legal, Config.legalHp, Bool.and_eq_true, beq_iff_eq] at hc
    omega
  have htaps : c.pD * c.pT ≤ (n + 1) * c.pD := by
    rw [Nat.mul_comm c.pD]
    exact Nat.mul_le_mul_right _ (by omega)
  rw [firSum_eq_sum, sum_map_eq_sum_range BitVec.toInt c.pHp 0, hhp, ← sum_range_mul]
  refine sum_range_congr fun m hm => ?_
  have htime : (((n + 1) * c.pD : Nat) : Int) - 1 - m = ((n + 1) * c.pD - 1 - m : Nat) := by omega
  have hinput : (List.replicate len x).getD ((n + 1) * c.pD - 1 - m) 0 = x := by
    rw [getD_of_lt (by rw [List.length_replicate]; omega), List.getElem_replicate]
  rw [htime, inputAt_natCast, hinput]

/-- Settles O32: over a constant the FIR sum is 32768 times the constant, and SINC_OUT gives that back unchanged. -/
theorem sincUnityDcGain : Obligations.SincUnityDcGain := by
  unfold Obligations.SincUnityDcGain
  intro c x len n hc hsum hn hlen
  rw [sincY, firSum_replicate hc x hn hlen, hsum, sincOut_sample]

/-! ## A run of pushes -/

theorem feed_resampler {s : State} (hc : s.cfg.legal = true) (h : s.rs.Inv s.cfg) (xs : List (Sample × Sample)) :
    (feed xs s).rs.Inv s.cfg := by
  induction xs generalizing s with
  | nil => exact h
  | cons x xs ih =>
    have hstep := backendStep_resampler x.1 x.2 hc h
    simpa [feed] using ih (s := backendStep x.1 x.2 s) (by simpa using hc) (by simpa using hstep)

/-- The backends' own state when they are as RS_INIT leaves them (R157). -/
theorem backendsFresh_rs {s : State} (h : backendsFresh s) :
    s.rs =
      { s.rs with
        saccL := List.replicate s.cfg.pT 0, saccR := List.replicate s.cfg.pT 0, ph := 0, caL := 0, caR := 0
        cr := BitVec.ofNat 32 s.cfg.pFo } := by
  have hrs := congrArg State.rs h
  exact hrs.symm

theorem resampler_inv_of_backendsFresh {s : State} (hc : s.cfg.legal = true) (h : backendsFresh s)
    (hq : s.rs.outq.length ≤ s.cfg.pQ) : s.rs.Inv s.cfg := by
  rw [backendsFresh_rs h]
  exact resampler_inv_of_fresh hc hq

/-- The accumulators of one channel hold what the inputs so far give to the outputs `n`, `n + 1`, … (R164). -/
def HoldsFir (c : Config) (xs : List Sample) (n : Nat) (accs : List Acc) : Prop :=
  ∀ k < c.pT, (accs.getD k 0).toInt = firSum c xs (n + k)

theorem holdsFir_nil (c : Config) : HoldsFir c [] 0 (List.replicate c.pT 0) := by
  intro k hk
  have hinput (t : Int) : inputAt [] t = 0 := by
    unfold inputAt
    split <;> rfl
  have hsum : firSum c [] (0 + k) = 0 := by
    rw [firSum_eq_sum]
    exact sum_range_eq_zero fun m _ => by rw [hinput, Int.mul_zero]
  rw [hsum, getD_of_lt (by rwa [List.length_replicate]), List.getElem_replicate]
  rfl

/-- The scatter of an input at phase `p` of output `n` gives every output ahead its tap of that input (R161). -/
theorem HoldsFir.scatter {c : Config} {xs : List Sample} {n p : Nat} {accs : List Acc} (hc : c.legal = true)
    (hinv : ChannelInv c p accs) (hp : p < c.pD) (hlen : xs.length = n * c.pD + p) (h : HoldsFir c xs n accs)
    (x : Sample) : HoldsFir c (xs ++ [x]) n (sincScatter c p x.toInt 0 accs) := by
  intro k hk
  have htap : k * c.pD + (c.pD - 1 - p) < c.pD * c.pT := by
    have : (k + 1) * c.pD ≤ c.pD * c.pT := by rw [Nat.mul_comm c.pD]; exact Nat.mul_le_mul_right _ hk
    rw [Nat.succ_mul] at this
    omega
  have htime : xs.length + (k * c.pD + (c.pD - 1 - p)) + 1 = (n + k + 1) * c.pD := by
    rw [Nat.succ_mul, Nat.add_mul]
    omega
  rw [hinv.scatter_toInt hc hp x hk, h k hk, firSum_snoc_reached x htap htime]
  rfl

/-- After output `n`, the shifted accumulators stand for the outputs from `n + 1` on (R161). -/
theorem HoldsFir.shift {c : Config} {xs : List Sample} {n : Nat} {accs : List Acc} (haccs : accs.length = c.pT)
    (hlen : xs.length = (n + 1) * c.pD) (h : HoldsFir c xs n accs) : HoldsFir c xs (n + 1) (sincShift accs) := by
  intro k hk
  rw [sincShift_getD]
  by_cases hlast : k + 1 < c.pT
  · rw [h (k + 1) hlast, Nat.add_assoc, Nat.add_comm 1]
  · rw [getD_of_le (by omega), firSum_of_future]
    · rfl
    · rw [hlen, Nat.mul_comm c.pD, ← Nat.add_mul]
      exact Nat.mul_le_mul_right _ (by omega)

/-- An output made by the inputs so far does not change with one more (R165). -/
theorem sincY_snoc {c : Config} {xs : List Sample} (x : Sample) {n : Nat} (h : (n + 1) * c.pD ≤ xs.length) :
    sincY c (xs ++ [x]) n = sincY c xs n := by
  rw [sincY, sincY, firSum_snoc_unreached x fun m _ => by omega]

/-- Where the sinc backend stands after the inputs `xs`, from fresh backends with STATUS `st` and OUTQ `q` (R164,
R165). -/
structure SincRun (c : Config) (st : BitVec 10) (q : List Word) (xs : List (Sample × Sample)) (t : State) : Prop where
  cfg : t.cfg = c
  status : t.status = st
  phase : t.rs.ph = xs.length % c.pD
  outq : t.rs.outq =
    q ++ packedPairs (sincY c (xs.map Prod.fst)) (sincY c (xs.map Prod.snd)) (sincCount c xs.length)
  left : HoldsFir c (xs.map Prod.fst) (sincCount c xs.length) t.rs.saccL
  right : HoldsFir c (xs.map Prod.snd) (sincCount c xs.length) t.rs.saccR

theorem sincRun_nil {s : State} (h : backendsFresh s) : SincRun s.cfg s.status s.rs.outq [] s := by
  have hrs := backendsFresh_rs h
  refine ⟨rfl, rfl, ?_, by simp [packedPairs, sincCount], ?_, ?_⟩
  · rw [hrs]; simp
  · rw [hrs]; simpa [sincCount] using holdsFir_nil s.cfg
  · rw [hrs]; simpa [sincCount] using holdsFir_nil s.cfg

theorem packedPairs_sincY_snoc {c : Config} (xs : List (Sample × Sample)) (x : Sample × Sample) :
    packedPairs (sincY c ((xs ++ [x]).map Prod.fst)) (sincY c ((xs ++ [x]).map Prod.snd)) (sincCount c xs.length) =
      packedPairs (sincY c (xs.map Prod.fst)) (sincY c (xs.map Prod.snd)) (sincCount c xs.length) := by
  have hmade (n : Nat) (hn : n < sincCount c xs.length) : (n + 1) * c.pD ≤ xs.length :=
    Nat.le_trans (Nat.mul_le_mul_right _ hn) (Nat.div_mul_le_self _ _)
  simp only [List.map_append, List.map_cons, List.map_nil]
  exact packedPairs_congr (fun n hn => sincY_snoc _ (by simpa using hmade n hn))
    fun n hn => sincY_snoc _ (by simpa using hmade n hn)

/-- After the last phase the count rises by 1 and the phase starts again at 0 (R165). -/
theorem sincCount_succ_last {c : Config} {n : Nat} (hD : 1 ≤ c.pD) (h : n % c.pD = c.pD - 1) :
    sincCount c (n + 1) = sincCount c n + 1 ∧ (n + 1) % c.pD = 0 := by
  have hn := Nat.div_add_mod' n c.pD
  unfold sincCount
  rw [Nat.div_mod_unique hD, Nat.mul_comm, Nat.succ_mul]
  omega

/-- Below the last phase the phase rises by 1 and the count stays (R165). -/
theorem sincCount_succ_middle {c : Config} {n : Nat} (h : n % c.pD + 1 < c.pD) :
    sincCount c (n + 1) = sincCount c n ∧ (n + 1) % c.pD = n % c.pD + 1 := by
  have hn := Nat.div_add_mod' n c.pD
  unfold sincCount
  rw [Nat.div_mod_unique (by omega), Nat.mul_comm]
  omega

/-- One more push: below the last phase the accumulators gain its products; at the last phase the output that is due
joins OUTQ and the next ones move up (R161). -/
theorem SincRun.push {c : Config} {st : BitVec 10} {q : List Word} {xs : List (Sample × Sample)} {t : State}
    (h : SincRun c st q xs t) (hc : c.legal = true) (hinv : t.rs.Inv c) (x : Sample × Sample)
    (hroom : q.length + sincCount c (xs ++ [x]).length ≤ c.pQ) :
    SincRun c st q (xs ++ [x]) (sincStep x.1 x.2 t) := by
  obtain ⟨rfl, rfl, hphase, hq, hL, hR⟩ := h
  obtain ⟨hD, hT, -⟩ := legal_sinc hc
  have hph := hinv.phase
  have hlen : xs.length = sincCount t.cfg xs.length * t.cfg.pD + t.rs.ph := by
    rw [hphase, sincCount, Nat.div_add_mod']
  have hL' := hL.scatter hc hinv.left hph (by simpa using hlen) x.1
  have hR' := hR.scatter hc hinv.right hph (by simpa using hlen) x.2
  have hsnoc : (xs ++ [x]).length = xs.length + 1 := by simp
  rw [hsnoc] at hroom
  by_cases hlast : t.rs.ph = t.cfg.pD - 1
  · obtain ⟨hcount, hphase'⟩ := sincCount_succ_last hD (hphase ▸ hlast)
    have hlen' : xs.length + 1 = (sincCount t.cfg xs.length + 1) * t.cfg.pD := by rw [Nat.succ_mul]; omega
    have hfree : t.rs.outq.length + 1 ≤ t.cfg.pQ := by
      rw [hq, List.length_append, packedPairs_length]
      omega
    rw [sincStep_last hlast, emit_eq_offer (by exact hinv.outq), offer_of_room (by exact hfree), headD_eq_getD,
      headD_eq_getD, hL' 0 hT, hR' 0 hT]
    refine ⟨rfl, rfl, by rw [hsnoc, hphase'], ?_, ?_, ?_⟩
    · rw [hsnoc, hcount, packedPairs_add, packedPairs_sincY_snoc, ← List.append_assoc, ← hq]
      simp [packedPairs, sincY]
    · rw [hsnoc, hcount, List.map_append]
      exact hL'.shift (by rw [sincScatter_length, hinv.left.length]) (by simpa using hlen')
    · rw [hsnoc, hcount, List.map_append]
      exact hR'.shift (by rw [sincScatter_length, hinv.right.length]) (by simpa using hlen')
  · obtain ⟨hcount, hphase'⟩ := sincCount_succ_middle (c := t.cfg) (n := xs.length) (by omega)
    rw [sincStep_middle hlast]
    refine ⟨rfl, rfl, by rw [hsnoc, hphase', hphase], ?_, ?_, ?_⟩
    · rw [hsnoc, hcount, packedPairs_sincY_snoc]
      exact hq
    · rw [hsnoc, hcount, List.map_append]
      exact hL'
    · rw [hsnoc, hcount, List.map_append]
      exact hR'

/-- From fresh backends with sinc in effect, and room in OUTQ for what they make, any inputs end in their run. -/
theorem feed_sincRun {s : State} (hc : s.cfg.legal = true) (hsinc : s.rs.sel = .sinc ∧ s.cfg.pSincOk = true)
    (hfresh : backendsFresh s) (xs : List (Sample × Sample))
    (hroom : s.rs.outq.length + sincCount s.cfg xs.length ≤ s.cfg.pQ) :
    SincRun s.cfg s.status s.rs.outq xs (feed xs s) := by
  induction xs using snoc_induction with
  | nil => exact sincRun_nil hfresh
  | snoc xs x ih =>
    have hless : sincCount s.cfg xs.length ≤ sincCount s.cfg (xs ++ [x]).length :=
      Nat.div_le_div_right (by simp)
    have hinv := feed_resampler hc (resampler_inv_of_backendsFresh hc hfresh (by omega)) xs
    rw [feed_snoc, backendStep_sinc (by simpa using hsinc)]
    exact (ih (by omega)).push hc hinv x hroom

/-- Settles O31: the pushes are the backend's steps, and those end in the run that the FIR sums describe. -/
theorem sincStreamIsFirDecimation : Obligations.SincStreamIsFirDecimation := by
  unfold Obligations.SincStreamIsFirDecimation
  intro s xs hc hsel hok hfresh hcap hroom
  have hrun := feed_sincRun hc ⟨hsel, hok⟩ hfresh xs hroom
  exact ⟨_, execAll_pushes hcap, hrun.status, hrun.phase, hrun.outq⟩

end Sys2Proof.Machine

/-! SUPPORT and PROOF (O33 to O35). The cosine backend: its weights and interpolation, the loop of one push in closed
form, and any run of pushes as the interpolation on time. -/

namespace Sys2Proof.Machine

/-! ## COS_INTERP -/

/-- A claim about the indexes 0 .. 255 is one about the sixteen rows of sixteen weights (R171). -/
theorem forall_index {P : Nat → Prop} (h : ∀ row < 16, ∀ i < 16, P (16 * row + i)) : ∀ i < 256, P i := by
  intro i hi
  have hrow := h (i / 16) (by omega) (i % 16) (by omega)
  rwa [Nat.div_add_mod] at hrow

theorem cosw_lt_succ : ∀ i < 256, cosw i < cosw (i + 1) := forall_index (by decide)

theorem cosw_mirror (i : Nat) (hi : i ≤ 256) : cosw i + cosw (256 - i) = 32768 := by
  rcases Nat.lt_or_eq_of_le hi with hlt | rfl
  · exact forall_index (P := fun i => cosw i + cosw (256 - i) = 32768) (by decide) i hlt
  · rfl

/-- The product of a difference of samples and a weight of at most 32768 lies between 0 and 32768 differences. -/
theorem mul_weight_bounds (d : Int) {w : Nat} (hw : w ≤ 32768) :
    min 0 (32768 * d) ≤ d * w ∧ d * w ≤ max 0 (32768 * d) := by
  have hw' : (w : Int) ≤ 32768 := by omega
  rcases Int.le_total 0 d with hd | hd
  · have hlo : 0 ≤ d * w := Int.mul_nonneg hd (Int.natCast_nonneg w)
    have hhi : d * w ≤ d * 32768 := Int.mul_le_mul_of_nonneg_left hw' hd
    omega
  · have hhi : d * w ≤ 0 := Int.mul_nonpos_of_nonpos_of_nonneg hd (Int.natCast_nonneg w)
    have hlo : d * 32768 ≤ d * w := Int.mul_le_mul_of_nonpos_left hd hw'
    omega

/-- Settles O33: the weights by the table; the rest from the product's bounds and the floor that rounds it. -/
theorem cosineInterpolatesBetween : Obligations.CosineInterpolatesBetween := by
  unfold Obligations.CosineInterpolatesBetween
  refine ⟨⟨rfl, rfl, rfl, cosw_lt_succ, cosw_mirror⟩, fun a b i hi => ?_, by decide⟩
  have hweight : cosw i ≤ 32768 := by have := cosw_mirror i hi; omega
  have hprod := mul_weight_bounds (b.toInt - a.toInt) hweight
  have hround := asr_fifteen ((b.toInt - a.toInt) * cosw i + 16384)
  have hfirst := asr_fifteen ((b.toInt - a.toInt) * (0 : Nat) + 16384)
  have hlast := asr_fifteen ((b.toInt - a.toInt) * (32768 : Nat) + 16384)
  have ha := And.intro a.le_toInt a.toInt_lt
  have hb := And.intro b.le_toInt b.toInt_lt
  simp only [cosInterp, show cosw 0 = 0 from rfl, show cosw 256 = 32768 from rfl]
  omega

/-! ## The loop of one push -/

/-- The number of pairs a push makes from CR `cr`: one for each CR, CR + P_FI, … that is at most P_FO (R170). -/
def cosMade (c : Config) (cr : Nat) : Nat := if cr ≤ c.pFo then (c.pFo - cr) / c.pFi + 1 else 0

theorem lt_cosMade_iff {c : Config} (hfi : 1 ≤ c.pFi) (cr j : Nat) : j < cosMade c cr ↔ cr + j * c.pFi ≤ c.pFo := by
  unfold cosMade
  split
  · rw [Nat.lt_succ_iff, Nat.le_div_iff_mul_le hfi]
    omega
  · omega

/-- `cosTurns` allows for every pair that is due. -/
theorem cosMade_le_cosTurns (c : Config) (cr : Nat) : cosMade c cr ≤ cosTurns c := by
  unfold cosMade cosTurns
  split
  · exact Nat.succ_le_succ (Nat.div_le_div_right (Nat.sub_le _ _))
  · exact Nat.zero_le _

/-- The first `m` pairs of a push `l`, `r` (R170, R172). -/
def cosPairs (s : State) (l r : Sample) (m : Nat) : List Word :=
  packedPairs (fun j => cosInterp s.rs.caL.toInt l.toInt ((s.rs.cr.toNat + j * s.cfg.pFi) * 256 / s.cfg.pFo))
    (fun j => cosInterp s.rs.caR.toInt r.toInt ((s.rs.cr.toNat + j * s.cfg.pFi) * 256 / s.cfg.pFo)) m

/-- The state with another CR. -/
def State.withCr (s : State) (w : Word) : State := { s with rs := { s.rs with cr := w } }

theorem cosTurn_eq {s : State} (h : s.rs.outq.length ≤ s.cfg.pQ) (l r : Sample) :
    cosTurn l r s = (s.offer (cosPairs s l r 1)).withCr (BitVec.ofNat 32 (s.rs.cr.toNat + s.cfg.pFi)) := by
  simp only [cosTurn, emit_eq_offer h, cosPairs, packedPairs, List.range_one, List.map_cons, List.map_nil,
    Nat.zero_mul, Nat.add_zero]
  rfl

/-- The pairs after the first are those of the state after a turn. -/
theorem cosPairs_succ {s : State} (hq : s.rs.outq.length ≤ s.cfg.pQ) (hcr : s.rs.cr.toNat + s.cfg.pFi < 2 ^ 32)
    (l r : Sample) (m : Nat) :
    cosPairs s l r (m + 1) = cosPairs s l r 1 ++ cosPairs (cosTurn l r s) l r m := by
  rw [Nat.add_comm, cosPairs, packedPairs_add, cosTurn_eq hq]
  simp only [cosPairs, State.withCr, State.offer, BitVec.toNat_ofNat, Nat.mod_eq_of_lt hcr, Nat.add_mul, Nat.one_mul,
    Nat.add_assoc]

/-- What is offered after a turn joins the turn's pair. -/
theorem cosTurn_offer {s : State} (hq : s.rs.outq.length ≤ s.cfg.pQ) (l r : Sample) (ys : List Word) (w : Word) :
    ((cosTurn l r s).offer ys).withCr w = (s.offer (cosPairs s l r 1 ++ ys)).withCr w := by
  rw [cosTurn_eq hq, ← offer_offer]
  rfl

/-- The loop offers the pairs that are due, in order, and advances CR by P_FI for each (R156, R170). -/
theorem cosLoop_eq (l r : Sample) {m n : Nat} {s : State} (hrates : s.cfg.pFo + s.cfg.pFi < 2 ^ 32)
    (hq : s.rs.outq.length ≤ s.cfg.pQ) (hn : m ≤ n) (hm : ∀ j, j < m ↔ s.rs.cr.toNat + j * s.cfg.pFi ≤ s.cfg.pFo) :
    cosLoop l r n s =
      (s.offer (cosPairs s l r m)).withCr (BitVec.ofNat 32 (s.rs.cr.toNat + m * s.cfg.pFi)) := by
  induction m generalizing n s with
  | zero =>
    have hpast := mt (hm 0).2 (Nat.lt_irrefl 0)
    rw [cosLoop_stop l r n s (by omega), show cosPairs s l r 0 = [] from rfl, offer_nil hq]
    simp [State.withCr]
  | succ m ih =>
    obtain ⟨n, rfl⟩ : ∃ k, n = k + 1 := ⟨n - 1, by omega⟩
    have hdue : s.rs.cr.toNat ≤ s.cfg.pFo := by have := (hm 0).1 (Nat.succ_pos m); omega
    have hcr : s.rs.cr.toNat + s.cfg.pFi < 2 ^ 32 := by omega
    have hcr' : (cosTurn l r s).rs.cr.toNat = s.rs.cr.toNat + s.cfg.pFi := Nat.mod_eq_of_lt hcr
    have hcfg : (cosTurn l r s).cfg = s.cfg := emit_cfg ..
    have hq' : (cosTurn l r s).rs.outq.length ≤ s.cfg.pQ := emit_outq_bound _ _ s hq
    have hadvance : s.rs.cr.toNat + s.cfg.pFi + m * s.cfg.pFi = s.rs.cr.toNat + (m + 1) * s.cfg.pFi := by
      rw [Nat.succ_mul]
      omega
    have hrest (j : Nat) : j < m ↔ s.rs.cr.toNat + s.cfg.pFi + j * s.cfg.pFi ≤ s.cfg.pFo := by
      rw [← Nat.succ_lt_succ_iff, hm (j + 1), Nat.succ_mul]
      omega
    rw [cosLoop_succ hdue, ih (by rwa [hcfg]) (by rwa [hcfg]) (by omega) (by rwa [hcr', hcfg]), hcr', hcfg, hadvance,
      cosPairs_succ hq hcr, cosTurn_offer hq]

/-- A push of the cosine backend offers the pairs that are due (R156, R170). -/
theorem cosStep_offers {s : State} (hc : s.cfg.legal = true) (hq : s.rs.outq.length ≤ s.cfg.pQ) (l r : Sample) :
    cosStep l r s =
      { s.offer (cosPairs s l r (cosMade s.cfg s.rs.cr.toNat)) with
        rs :=
          { (s.offer (cosPairs s l r (cosMade s.cfg s.rs.cr.toNat))).rs with
            cr := BitVec.ofNat 32 (s.rs.cr.toNat + cosMade s.cfg s.rs.cr.toNat * s.cfg.pFi) - BitVec.ofNat 32 s.cfg.pFo
            caL := l
            caR := r } } := by
  obtain ⟨hfi, -, hrates⟩ := legal_cosine hc
  rw [cosStep, cosLoop_eq l r hrates hq (cosMade_le_cosTurns s.cfg _) (lt_cosMade_iff hfi _)]
  rfl

/-- A push advances CR by P_FI for each pair made and takes P_FO off, with no wrap (R170, R175). -/
theorem cosStep_cr_add {s : State} (hc : s.cfg.legal = true) (hq : s.rs.outq.length ≤ s.cfg.pQ) (l r : Sample) :
    (cosStep l r s).rs.cr.toNat + s.cfg.pFo = s.rs.cr.toNat + cosMade s.cfg s.rs.cr.toNat * s.cfg.pFi := by
  obtain ⟨hfi, -, hrates⟩ := legal_cosine hc
  have hdue := lt_cosMade_iff hfi s.rs.cr.toNat
  have hpast := mt (hdue _).2 (Nat.lt_irrefl _)
  have hsmall : s.rs.cr.toNat + cosMade s.cfg s.rs.cr.toNat * s.cfg.pFi < 2 ^ 32 := by
    rcases hm : cosMade s.cfg s.rs.cr.toNat with _ | m
    · simp [s.rs.cr.isLt]
    · have := (hdue m).1 (by omega)
      rw [Nat.succ_mul]
      omega
  rw [cosStep_offers hc hq]
  simp only [BitVec.toNat_sub, BitVec.toNat_ofNat, Nat.mod_eq_of_lt hsmall]
  omega

/-- Settles O34: the push offers its pairs to OUTQ, which keeps the first that fit, and CR advances without wrapping. -/
theorem cosinePushStep : Obligations.CosinePushStep := by
  unfold Obligations.CosinePushStep
  intro s l r h hroom hcos cr made index pairs
  have hcr := cosStep_cr_add h.build h.outq l r
  refine ⟨_, exec_rsPush_accepted hroom l r, ?_⟩
  rw [backendStep_cosine hcos]
  have hadv : ((cosStep l r s).rs.cr.toNat : Int) = cr + made * s.cfg.pFi - s.cfg.pFo := by
    have : ((cosStep l r s).rs.cr.toNat : Int) + s.cfg.pFo = cr + made * s.cfg.pFi := by exact_mod_cast hcr
    omega
  refine ⟨?_, ?_, hadv, rfl, rfl⟩
  · rw [cosStep_offers h.build h.outq]
    rfl
  · rw [cosStep_offers h.build h.outq]
    simp only [withBlock_status, State.offer, cosPairs, packedPairs_length]
    rfl

/-! ## A run of pushes -/

/-- Output `j` is among those made by `n + 1` pushes when its time j * P_FI / P_FO is at most `n` (R173, R174). -/
theorem lt_cosCount_succ_iff {c : Config} (hfi : 1 ≤ c.pFi) (n j : Nat) :
    j < cosCount c (n + 1) ↔ j * c.pFi ≤ n * c.pFo := by
  rw [cosCount, if_neg (Nat.succ_ne_zero n), Nat.lt_succ_iff, Nat.le_div_iff_mul_le hfi, Nat.add_sub_cancel]

theorem cosCount_le_succ (c : Config) (n : Nat) : cosCount c n ≤ cosCount c (n + 1) := by
  cases n with
  | zero => exact Nat.zero_le _
  | succ n => exact Nat.succ_le_succ (Nat.div_le_div_right (Nat.mul_le_mul_right _ (Nat.le_succ n)))

/-- An output made by `n` pushes was made by one of them (R173, R174). -/
theorem cosPush_lt {c : Config} (hc : c.legal = true) {n j : Nat} (h : j < cosCount c n) : cosPush c j < n := by
  obtain ⟨hfi, hfo, -⟩ := legal_cosine hc
  cases n with
  | zero => exact absurd h (Nat.not_lt_zero j)
  | succ n =>
    have htime := (lt_cosCount_succ_iff hfi n j).1 h
    rw [cosPush, Nat.div_lt_iff_lt_mul hfo, Nat.succ_mul]
    omega

/-- The outputs that push `n` makes are those of `t(j) = n` (R173). -/
theorem cosPush_eq {c : Config} (hc : c.legal = true) {n j : Nat} (hold : cosCount c n ≤ j)
    (hnew : j < cosCount c (n + 1)) : cosPush c j = n := by
  obtain ⟨hfi, hfo, -⟩ := legal_cosine hc
  have hlt := cosPush_lt hc hnew
  refine Nat.le_antisymm (Nat.lt_succ_iff.1 hlt) ?_
  rw [cosPush, Nat.le_div_iff_mul_le hfo]
  cases n with
  | zero => simp
  | succ n =>
    have htime := mt (lt_cosCount_succ_iff hfi n j).2 (by omega)
    rw [Nat.succ_mul]
    omega

theorem cosY_snoc {c : Config} (hc : c.legal = true) {xs : List Sample} (x : Sample) {j : Nat}
    (h : j < cosCount c xs.length) : cosY c (xs ++ [x]) j = cosY c xs j := by
  have hpush := cosPush_lt hc h
  rw [cosY, cosY, inputAt_snoc_ne x (by omega), inputAt_snoc_ne x (by omega)]

/-- An output of the last push interpolates between the last two inputs (R173). -/
theorem cosY_last {c : Config} (hc : c.legal = true) {xs : List Sample} (x : Sample) {j : Nat}
    (hold : cosCount c xs.length ≤ j) (hnew : j < cosCount c (xs.length + 1)) :
    cosY c (xs ++ [x]) j =
      cosInterp (inputAt xs ((xs.length : Int) - 1)) x.toInt
        ((j * c.pFi + c.pFo - xs.length * c.pFo) * 256 / c.pFo) := by
  rw [cosY, cosIndex, cosPush_eq hc hold hnew, inputAt_snoc_ne x (by omega), inputAt_snoc_length, Nat.mul_comm 256]

/-- Where the cosine backend stands after the inputs `xs`, from fresh backends with STATUS `st` and OUTQ `q` (R173,
R174): CR is how far the next output lies after the last input, in units in which two inputs are P_FO apart. -/
structure CosRun (c : Config) (st : BitVec 10) (q : List Word) (xs : List (Sample × Sample)) (t : State) : Prop where
  cfg : t.cfg = c
  status : t.status = st
  outq : t.rs.outq =
    q ++ packedPairs (cosY c (xs.map Prod.fst)) (cosY c (xs.map Prod.snd)) (cosCount c xs.length)
  phase : t.rs.cr.toNat + xs.length * c.pFo = cosCount c xs.length * c.pFi + c.pFo
  left : t.rs.caL.toInt = inputAt (xs.map Prod.fst) ((xs.length : Int) - 1)
  right : t.rs.caR.toInt = inputAt (xs.map Prod.snd) ((xs.length : Int) - 1)

theorem cosRun_nil {s : State} (hc : s.cfg.legal = true) (h : backendsFresh s) :
    CosRun s.cfg s.status s.rs.outq [] s := by
  have hrs := backendsFresh_rs h
  obtain ⟨-, -, hrates⟩ := legal_cosine hc
  refine ⟨rfl, rfl, by simp [packedPairs, cosCount], ?_, ?_, ?_⟩
  · rw [hrs]; simp [cosCount]; omega
  · rw [hrs]; rfl
  · rw [hrs]; rfl

/-- The outputs that the next push makes are those up to the next count (R174). -/
theorem CosRun.made {c : Config} {st : BitVec 10} {q : List Word} {xs : List (Sample × Sample)} {t : State}
    (h : CosRun c st q xs t) (hc : c.legal = true) :
    cosCount c xs.length + cosMade c t.rs.cr.toNat = cosCount c (xs.length + 1) := by
  obtain ⟨hfi, -, -⟩ := legal_cosine hc
  have hdue (i : Nat) : i < cosMade c t.rs.cr.toNat ↔ cosCount c xs.length + i < cosCount c (xs.length + 1) := by
    have hphase := h.phase
    rw [lt_cosMade_iff hfi, lt_cosCount_succ_iff hfi, Nat.add_mul]
    omega
  have hmono := cosCount_le_succ c xs.length
  have hnext := hdue (cosMade c t.rs.cr.toNat)
  have hlast := hdue (cosCount c (xs.length + 1) - cosCount c xs.length)
  omega

/-- The pairs that the next push makes are the outputs on time (R173). -/
theorem CosRun.pairs {c : Config} {st : BitVec 10} {q : List Word} {xs : List (Sample × Sample)} {t : State}
    (h : CosRun c st q xs t) (hc : c.legal = true) (x : Sample × Sample) :
    q ++ packedPairs (cosY c ((xs ++ [x]).map Prod.fst)) (cosY c ((xs ++ [x]).map Prod.snd))
        (cosCount c (xs.length + 1)) =
      t.rs.outq ++ cosPairs t x.1 x.2 (cosMade c t.rs.cr.toNat) := by
  have hmade := h.made hc
  obtain ⟨rfl, -, hq, hphase, hL, hR⟩ := h
  have hindex (i : Nat) : (cosCount t.cfg xs.length + i) * t.cfg.pFi + t.cfg.pFo - xs.length * t.cfg.pFo =
      t.rs.cr.toNat + i * t.cfg.pFi := by
    rw [Nat.add_mul]
    omega
  have hkept : packedPairs (cosY t.cfg (xs.map Prod.fst ++ [x.1])) (cosY t.cfg (xs.map Prod.snd ++ [x.2]))
      (cosCount t.cfg xs.length) =
      packedPairs (cosY t.cfg (xs.map Prod.fst)) (cosY t.cfg (xs.map Prod.snd)) (cosCount t.cfg xs.length) :=
    packedPairs_congr (fun j hj => cosY_snoc hc _ (by rwa [List.length_map]))
      fun j hj => cosY_snoc hc _ (by rwa [List.length_map])
  have hnew {ys : List Sample} (y : Sample) (hlen : ys.length = xs.length) {i : Nat}
      (hi : i < cosMade t.cfg t.rs.cr.toNat) :
      cosY t.cfg (ys ++ [y]) (cosCount t.cfg xs.length + i) =
        cosInterp (inputAt ys ((xs.length : Int) - 1)) y.toInt
          ((t.rs.cr.toNat + i * t.cfg.pFi) * 256 / t.cfg.pFo) := by
    rw [cosY_last hc y (by rw [hlen]; omega) (by rw [hlen]; omega), hlen, hindex]
  rw [← hmade, packedPairs_add, hq, List.append_assoc]
  simp only [List.map_append, List.map_cons, List.map_nil]
  rw [hkept, cosPairs, hL, hR]
  rw [packedPairs_congr (fun i hi => hnew x.1 (List.length_map _) hi) fun i hi => hnew x.2 (List.length_map _) hi]

/-- One more push makes the outputs on time that are due (R170). -/
theorem CosRun.push {c : Config} {st : BitVec 10} {q : List Word} {xs : List (Sample × Sample)} {t : State}
    (h : CosRun c st q xs t) (hc : c.legal = true) (x : Sample × Sample)
    (hroom : q.length + cosCount c (xs ++ [x]).length ≤ c.pQ) :
    CosRun c st q (xs ++ [x]) (cosStep x.1 x.2 t) := by
  have hmade := h.made hc
  have hpairs := h.pairs hc x
  obtain ⟨rfl, rfl, hq, hphase, -, -⟩ := h
  have hsnoc : (xs ++ [x]).length = xs.length + 1 := by simp
  have hnow : ((xs.length + 1 : Nat) : Int) - 1 = xs.length := by omega
  rw [hsnoc] at hroom
  have hlen : t.rs.outq.length = q.length + cosCount t.cfg xs.length := by
    rw [hq, List.length_append, packedPairs_length]
  have hcr := cosStep_cr_add hc (by omega) x.1 x.2
  have hfree : t.rs.outq.length + (cosPairs t x.1 x.2 (cosMade t.cfg t.rs.cr.toNat)).length ≤ t.cfg.pQ := by
    rw [cosPairs, packedPairs_length]
    omega
  refine ⟨cosStep_cfg .., ?_, ?_, ?_, ?_, ?_⟩
  · rw [cosStep_offers hc (by omega), offer_of_room hfree]
  · rw [hsnoc, hpairs, cosStep_offers hc (by omega), offer_of_room hfree]
  · rw [hsnoc, ← hmade, Nat.succ_mul, Nat.add_mul]
    omega
  · rw [hsnoc, hnow, cosStep_rs_caL, List.map_append]
    simpa using (inputAt_snoc_length (xs.map Prod.fst) x.1).symm
  · rw [hsnoc, hnow, cosStep_rs_caR, List.map_append]
    simpa using (inputAt_snoc_length (xs.map Prod.snd) x.2).symm

/-- From fresh backends with cosine in effect, and room in OUTQ for what they make, any inputs end in their run. -/
theorem feed_cosRun {s : State} (hc : s.cfg.legal = true) (hcos : ¬(s.rs.sel = .sinc ∧ s.cfg.pSincOk = true))
    (hfresh : backendsFresh s) (xs : List (Sample × Sample))
    (hroom : s.rs.outq.length + cosCount s.cfg xs.length ≤ s.cfg.pQ) :
    CosRun s.cfg s.status s.rs.outq xs (feed xs s) := by
  induction xs using snoc_induction with
  | nil => exact cosRun_nil hc hfresh
  | snoc xs x ih =>
    have hless : cosCount s.cfg xs.length ≤ cosCount s.cfg (xs ++ [x]).length := by
      simpa using cosCount_le_succ s.cfg xs.length
    rw [feed_snoc, backendStep_cosine (by simpa using hcos)]
    exact (ih (by omega)).push hc x hroom

/-- Settles O35: the pushes are the backend's steps, and those end in the run of the outputs on time. -/
theorem cosineStreamIsOnTime : Obligations.CosineStreamIsOnTime := by
  unfold Obligations.CosineStreamIsOnTime
  intro s xs hc hcos hfresh hcap hroom
  have hrun := feed_cosRun hc hcos hfresh xs hroom
  exact ⟨_, execAll_pushes hcap, hrun.status, hrun.outq⟩

end Sys2Proof.Machine

/-! SUPPORT and PROOF (O38 to O43, O45). The pacer: the two verdicts of PC_CHECK and the two answers of PC_COMMIT as
next states; then the dupes that catch up with the samples, and the ticks that add PC_MULT. -/

namespace Sys2Proof.Machine

/-! ## The verdicts of PC_CHECK -/

/-- The quotient `SAMPLES div SPF` that the verdict compares FRAMES with (R200). -/
def State.framesDue (s : State) : Nat := s.pc.samples.toNat / s.pc.spf.toNat

/-- The state after a dupe verdict (R201). -/
def State.afterDupe (s : State) : State :=
  { s with
    pc := { s.pc with frames := framesPlusMult s.pc, lastDupe := true, run := false }
    resps := s.resps ++ [1] }

/-- The state after a run verdict (R201). -/
def State.afterRun (s : State) : State :=
  { s with pc := { s.pc with lastDupe := false, run := true }, resps := s.resps ++ [0] }

theorem exec_pcCheck_dupe {s : State} (h : s.pc.frames.toNat < s.framesDue) :
    exec .pcCheck s = .next s.afterDupe := by
  rcases execPcCheck_cases s with ⟨-, he⟩ | ⟨hle, -⟩
  · exact he
  · exact absurd h (Nat.not_lt.2 hle)

theorem exec_pcCheck_run {s : State} (h : s.framesDue ≤ s.pc.frames.toNat) :
    exec .pcCheck s = .next s.afterRun := by
  rcases execPcCheck_cases s with ⟨hlt, -⟩ | ⟨-, he⟩
  · exact absurd h (Nat.not_le.2 hlt)
  · exact he

/-- PC_CHECK ends in one of the two verdicts. -/
theorem exec_pcCheck_inv {s t : State} (h : exec .pcCheck s = .next t) :
    (s.pc.frames.toNat < s.framesDue ∧ t = s.afterDupe) ∨ (s.framesDue ≤ s.pc.frames.toNat ∧ t = s.afterRun) := by
  rcases Nat.lt_or_ge s.pc.frames.toNat s.framesDue with hlt | hle
  · exact .inl ⟨hlt, (Host.Outcome.next.inj ((exec_pcCheck_dupe hlt).symm.trans h)).symm⟩
  · exact .inr ⟨hle, (Host.Outcome.next.inj ((exec_pcCheck_run hle).symm.trans h)).symm⟩

/-- The response 1 tells a dupe verdict. -/
theorem afterDupe_of_resps {s t : State} (h : exec .pcCheck s = .next t) (hr : t.resps = s.resps ++ [1]) :
    s.pc.frames.toNat < s.framesDue ∧ t = s.afterDupe := by
  rcases exec_pcCheck_inv h with hdupe | ⟨-, rfl⟩
  · exact hdupe
  · simp [State.afterRun] at hr

/-- The response 0 tells a run verdict. -/
theorem afterRun_of_resps {s t : State} (h : exec .pcCheck s = .next t) (hr : t.resps = s.resps ++ [0]) :
    s.framesDue ≤ s.pc.frames.toNat ∧ t = s.afterRun := by
  rcases exec_pcCheck_inv h with ⟨-, rfl⟩ | hrun
  · simp [State.afterDupe] at hr
  · exact hrun

theorem framesPlusMult_eq_ofNat (p : Pacer) :
    framesPlusMult p = BitVec.ofNat 64 (p.frames.toNat + p.mult.toNat) :=
  BitVec.eq_of_toNat_eq (by rw [framesPlusMult_toNat, BitVec.toNat_ofNat])

/-- Settles O38: the two verdicts, with the sum of the dupe verdict on numbers. -/
theorem checkGivesVerdict : Obligations.CheckGivesVerdict := by
  unfold Obligations.CheckGivesVerdict
  refine ⟨fun s h => ?_, fun s h => exec_pcCheck_run h⟩
  rw [exec_pcCheck_dupe h, State.afterDupe, framesPlusMult_eq_ofNat]

/-- Settles O43: a run verdict keeps FRAMES, and the sum after a dupe verdict is at most the sum on numbers. -/
theorem verdictBoundsFrames : Obligations.VerdictBoundsFrames := by
  unfold Obligations.VerdictBoundsFrames
  intro s t h
  refine ⟨fun hr => ?_, fun hr => ?_⟩
  · obtain ⟨hle, rfl⟩ := afterRun_of_resps h hr
    exact hle
  · obtain ⟨hlt, rfl⟩ := afterDupe_of_resps h hr
    calc (framesPlusMult s.pc).toNat
        = (s.pc.frames.toNat + s.pc.mult.toNat) % 2 ^ 64 := framesPlusMult_toNat s.pc
      _ ≤ s.pc.frames.toNat + s.pc.mult.toNat := Nat.mod_le ..
      _ < s.framesDue + s.pc.mult.toNat := Nat.add_lt_add_right hlt _

/-! ## PC_ADD, PC_COMMIT and PC_CLEAR -/

/-- Settles O39: the sum modulo 2^64 is the sum of the 64-bit words. -/
theorem addCountsSamples : Obligations.AddCountsSamples := by
  unfold Obligations.AddCountsSamples
  intro s n
  have hsum : s.pc.samples + n.zeroExtend 64 = BitVec.ofNat 64 (s.pc.samples.toNat + n.toNat) := by
    simp [BitVec.ofNat_add]
  rw [← hsum]
  rfl

/-- The state after the PC_COMMIT of a run tick (R203). -/
def State.afterCommit (s : State) : State :=
  { s with pc := { s.pc with frames := framesPlusMult s.pc, run := false }, resps := s.resps ++ [0] }

theorem exec_pcCommit_run {s : State} (h : s.pc.run = true) : exec .pcCommit s = .next s.afterCommit := by
  rcases execPcCommit_cases s with ⟨-, he⟩ | ⟨hf, -⟩
  · exact he
  · simp [h] at hf

theorem exec_pcCommit_proto {s : State} (h : s.pc.run = false) : exec .pcCommit s = done 0 (s.raise .proto) := by
  rcases execPcCommit_cases s with ⟨ht, -⟩ | ⟨-, he⟩
  · simp [h] at ht
  · exact he

/-- Settles O40: the run tick's PC_COMMIT, with its sum on numbers, and the raise of PROTO, bit 5 of STATUS. -/
theorem commitAddsMultiplier : Obligations.CommitAddsMultiplier := by
  unfold Obligations.CommitAddsMultiplier
  refine ⟨fun s h => ?_, fun s h => exec_pcCommit_proto h⟩
  rw [exec_pcCommit_run h, State.afterCommit, framesPlusMult_eq_ofNat]

/-- Settles O41: with SAMPLES = 0 no frame is due, so the next verdict is a run. -/
theorem clearStartsSession : Obligations.ClearStartsSession := by
  unfold Obligations.ClearStartsSession
  intro s
  refine ⟨_, rfl, rfl, _, exec_pcCheck_run ?_, rfl⟩
  exact Nat.le_of_eq (Nat.zero_div _)

/-! ## The dupes that catch up -/

/-- What `k` dupe verdicts in a row leave of `s`: FRAMES has risen by MULT for each, with no wrap (R201, R206). -/
structure AfterDupes (s : State) (k : Nat) (t : State) : Prop where
  resps : t.resps = s.resps ++ List.replicate k 1
  frames : t.pc.frames.toNat = s.pc.frames.toNat + k * s.pc.mult.toNat
  samples : t.pc.samples = s.pc.samples
  spf : t.pc.spf = s.pc.spf
  mult : t.pc.mult = s.pc.mult

theorem AfterDupes.framesDue {s t : State} {k : Nat} (h : AfterDupes s k t) : t.framesDue = s.framesDue := by
  rw [State.framesDue, h.samples, h.spf, State.framesDue]

/-- One more dupe verdict, while FRAMES is below what is due. -/
theorem AfterDupes.afterDupe {s t : State} {k : Nat} (h : AfterDupes s k t) (hlt : t.pc.frames.toNat < s.framesDue)
    (hwrap : s.framesDue + s.pc.mult.toNat ≤ 2 ^ 64) : AfterDupes s (k + 1) t.afterDupe where
  resps := by simp [State.afterDupe, h.resps, List.replicate_succ']
  frames := by
    have hfit : t.pc.frames.toNat + t.pc.mult.toNat < 2 ^ 64 := by rw [h.mult]; omega
    calc (framesPlusMult t.pc).toNat
        = t.pc.frames.toNat + t.pc.mult.toNat := by rw [framesPlusMult_toNat, Nat.mod_eq_of_lt hfit]
      _ = s.pc.frames.toNat + (k + 1) * s.pc.mult.toNat := by rw [h.frames, h.mult, Nat.succ_mul, Nat.add_assoc]
  samples := h.samples
  spf := h.spf
  mult := h.mult

theorem execAll_snoc {is : List Instr} {i : Instr} {s t u : State} (hs : execAll is s = .next t)
    (ht : exec i t = .next u) : execAll (is ++ [i]) s = .next u := by
  simp [execAll_append hs, execAll, ht]

/-- While FRAMES stays below what is due, every PC_CHECK is a dupe. -/
theorem execAll_dupes {s : State} (hwrap : s.framesDue + s.pc.mult.toNat ≤ 2 ^ 64) {k : Nat}
    (h : ∀ j < k, s.pc.frames.toNat + j * s.pc.mult.toNat < s.framesDue) :
    ∃ t, execAll (List.replicate k .pcCheck) s = .next t ∧ AfterDupes s k t := by
  induction k with
  | zero => exact ⟨s, rfl, by simp, by simp, rfl, rfl, rfl⟩
  | succ k ih =>
    obtain ⟨t, ht, hafter⟩ := ih fun j hj => h j (by omega)
    have hlt : t.pc.frames.toNat < s.framesDue := hafter.frames ▸ h k (Nat.lt_succ_self k)
    have hcheck : exec .pcCheck t = .next t.afterDupe := exec_pcCheck_dupe (hafter.framesDue ▸ hlt)
    refine ⟨t.afterDupe, ?_, hafter.afterDupe hlt hwrap⟩
    rw [List.replicate_succ']
    exact execAll_snoc ht hcheck

/-- The number of dupes of R206 is the least `k` for which `f + k * m` reaches what is due. -/
theorem dupes_le_iff {due f m k : Nat} (hm : 0 < m) : (due - f + (m - 1)) / m ≤ k ↔ due ≤ f + k * m := by
  calc (due - f + (m - 1)) / m ≤ k
      ↔ due - f + (m - 1) < (k + 1) * m := by rw [← Nat.lt_succ_iff, Nat.div_lt_iff_lt_mul hm]
    _ ↔ due ≤ f + k * m := by rw [Nat.succ_mul]; omega

/-- Settles O42: below the number of dupes FRAMES is short of what is due, and at it FRAMES has caught up. -/
theorem dupesUntilCaughtUp : Obligations.DupesUntilCaughtUp := by
  unfold Obligations.DupesUntilCaughtUp
  intro s hinv due f m dupes hwrap
  have hm : 0 < m := hinv.pacer.mult.1
  have hdupes {k : Nat} (hk : k ≤ dupes) :
      ∃ t, execAll (List.replicate k .pcCheck) s = .next t ∧ AfterDupes s k t :=
    execAll_dupes hwrap fun j hj => Nat.not_le.1 fun hdue =>
      Nat.not_le.2 (Nat.lt_of_lt_of_le hj hk) ((dupes_le_iff hm).2 hdue)
  refine ⟨fun k hk => ?_, ?_⟩
  · obtain ⟨t, ht, hafter⟩ := hdupes hk
    exact ⟨t, ht, hafter.resps, hafter.frames, hafter.samples⟩
  · obtain ⟨t, ht, hafter⟩ := hdupes (Nat.le_refl _)
    have hcaught : t.framesDue ≤ t.pc.frames.toNat := by
      rw [hafter.framesDue, hafter.frames]
      exact (dupes_le_iff hm).1 (Nat.le_refl _)
    refine ⟨t.afterRun, ?_, congrArg (· ++ [0]) hafter.resps, rfl, hafter.frames⟩
    rw [List.replicate_succ']
    exact execAll_snoc ht (exec_pcCheck_run hcaught)

/-! ## Ticks -/

/-- A command that may stand between the two ends of a run tick. -/
def TickBody (i : Instr) : Prop :=
  i ≠ .pcCheck ∧ i ≠ .pcCommit ∧ i ≠ .pcClear ∧ i ≠ .reset ∧ ∀ v, i ≠ .wrreg 0x15 v

/-- From `s` to `t` the pacer keeps what the end of a run tick reads: FRAMES, MULT and the outstanding verdict. -/
def TickKept (s t : State) : Prop := t.pc.frames = s.pc.frames ∧ t.pc.mult = s.pc.mult ∧ t.pc.run = s.pc.run

/-- FRAMES, MULT and RUN each change only by commands that no tick's body holds (O44). -/
theorem exec_tickKept {i : Instr} {s t : State} (hi : TickBody i) (h : exec i s = .next t) : TickKept s t := by
  obtain ⟨hcheck, hcommit, hclear, hreset, hmult⟩ := hi
  obtain ⟨-, hframesBy, -, hrunBy, -, hmultBy⟩ := pacerStateChangesOnlyByItsCommands i s t h
  refine ⟨Decidable.not_imp_comm.1 hframesBy ?_, Decidable.not_imp_comm.1 hmultBy ?_, Decidable.not_imp_comm.1 hrunBy ?_⟩
  · simp [hcheck, hcommit, hclear, hreset]
  · exact fun hw => hw.elim (fun ⟨v, hv⟩ => hmult v hv) hreset
  · simp [hcheck, hcommit, hclear, hreset]

theorem execAll_cons_inv {i : Instr} {is : List Instr} {s u : State} (h : execAll (i :: is) s = .next u) :
    ∃ t, exec i s = .next t ∧ execAll is t = .next u := by
  rw [execAll] at h
  cases he : exec i s with
  | next t => rw [he] at h; exact ⟨t, rfl, h⟩
  | fault f => rw [he] at h; cases h
  | refused r => rw [he] at h; cases h

theorem execAll_tickKept {body : List Instr} {s u : State} (hbody : ∀ i ∈ body, TickBody i)
    (h : execAll body s = .next u) : TickKept s u := by
  induction body generalizing s with
  | nil => cases h; exact ⟨rfl, rfl, rfl⟩
  | cons i is ih =>
    obtain ⟨t, hi, his⟩ := execAll_cons_inv h
    obtain ⟨hi₀, his₀⟩ := List.forall_mem_cons.1 hbody
    obtain ⟨hframes, hmult, hrun⟩ := exec_tickKept hi₀ hi
    obtain ⟨hframes', hmult', hrun'⟩ := ih his₀ his
    exact ⟨hframes'.trans hframes, hmult'.trans hmult, hrun'.trans hrun⟩

/-- Settles O45: a dupe verdict adds MULT itself; after a run verdict the body keeps FRAMES, MULT and RUN = 1, so the
PC_COMMIT adds MULT to the FRAMES of the tick's start. -/
theorem everyTickAddsMultiplier : Obligations.EveryTickAddsMultiplier := by
  unfold Obligations.EveryTickAddsMultiplier
  refine ⟨fun s t h hr => ?_, fun s t u body h hr hbody hrun => ?_⟩
  · obtain ⟨-, rfl⟩ := afterDupe_of_resps h hr
    exact ⟨rfl, rfl⟩
  · obtain ⟨-, rfl⟩ := afterRun_of_resps h hr
    obtain ⟨hframes, hmult, hverdict⟩ := execAll_tickKept hbody hrun
    refine ⟨u.afterCommit, exec_pcCommit_run hverdict, ?_, rfl, rfl⟩
    calc framesPlusMult u.pc = u.pc.frames + u.pc.mult.zeroExtend 64 := rfl
      _ = s.pc.frames + s.pc.mult.zeroExtend 64 := by rw [hframes, hmult]; rfl

end Sys2Proof.Machine

/-! SUPPORT and PROOF (O46 to O49, O51 to O58). A pixel as the sum of its channels in place, and the filters on it;
access to single cells; BL_FRAME seen one active cell at a time, each blended from what it held when the command
began. -/

namespace Sys2Proof.Machine

/-! ## A pixel as its channels in place -/

/-- Three channel values at their places in a pixel (R231). -/
def placed (f : PixFmt) (op : Chan → Nat) : Nat :=
  op .R * 2 ^ chanShift f .R + op .G * 2 ^ chanShift f .G + op .B * 2 ^ chanShift f .B

/-- A pixel with its X bits 0, where the format has them (R231, R232). -/
def withoutX (f : PixFmt) (p : Pixel) : Pixel :=
  match f with
  | .rgb565 => p
  | .xrgb8888 => p &&& 0x00FFFFFF

/-- The lowest bit of every channel: the mask of the packed form of MIX (R236). -/
def lowBits : PixFmt → Pixel
  | .rgb565 => 0x0821
  | .xrgb8888 => 0x010101

theorem perChannel_toNat {f : PixFmt} {op : Chan → Nat} (h : ∀ ch, op ch ≤ maxC f ch) :
    (perChannel f op).toNat = placed f op := by
  have hr := h .R
  have hg := h .G
  have hb := h .B
  cases f <;> simp only [maxC, chanBits] at hr hg hb <;> simp [perChannel, pack, placed, chanShift] <;> omega

/-- A pixel packed from channels in range has X = 0 (R232). -/
theorem perChannel_lt_of_xrgb8888 {f : PixFmt} {op : Chan → Nat} (h : ∀ ch, op ch ≤ maxC f ch) (hf : f = .xrgb8888) :
    (perChannel f op).toNat < 2 ^ 24 := by
  subst hf
  exact pack_lt _ _ _ _ (h .R) (h .G) (h .B)

/-- A pixel packed from channels in range fits its cell (R231). -/
theorem perChannel_fits {f : PixFmt} {op : Chan → Nat} (h : ∀ ch, op ch ≤ maxC f ch) :
    (perChannel f op).toNat < 2 ^ cellWidth f := by
  cases f with
  | rgb565 => exact pack_lt _ _ _ _ (h .R) (h .G) (h .B)
  | xrgb8888 => exact (perChannel .xrgb8888 op).isLt

/-- The channels of a pixel of the cell's width, put back in place, are the pixel without its X bits. -/
theorem placed_unpack {f : PixFmt} {p : Pixel} (h : p.toNat < 2 ^ cellWidth f) :
    placed f (unpack f p) = (withoutX f p).toNat := by
  cases f with
  | rgb565 =>
    simp only [cellWidth] at h
    simp [placed, unpack, withoutX, chanShift, chanBits]
    omega
  | xrgb8888 =>
    rw [withoutX, BitVec.toNat_and, show (0x00FFFFFF : BitVec 32).toNat = 2 ^ 24 - 1 from rfl,
      Nat.and_two_pow_sub_one_eq_mod]
    simp [placed, unpack, chanShift, chanBits]
    omega

/-- PACK of a pixel's own channels is the pixel without its X bits (R232). -/
theorem perChannel_unpack {f : PixFmt} {p : Pixel} (h : p.toNat < 2 ^ cellWidth f) :
    perChannel f (unpack f p) = withoutX f p :=
  BitVec.eq_of_toNat_eq ((perChannel_toNat (unpack_le f p)).trans (placed_unpack h))

/-- The X bits are in no channel. -/
theorem unpack_withoutX {f : PixFmt} {p : Pixel} (h : p.toNat < 2 ^ cellWidth f) (ch : Chan) :
    unpack f (withoutX f p) ch = unpack f p ch := by
  rw [← perChannel_unpack h, unpack_perChannel f _ (unpack_le f p)]

/-! ## MIX -/

/-- An average of two channels is in the channel's range. -/
theorem mixChannel_le (f : PixFmt) (a b : Pixel) (ch : Chan) : (unpack f a ch + unpack f b ch + 1) / 2 ≤ maxC f ch := by
  have ha := unpack_le f a ch
  have hb := unpack_le f b ch
  omega

/-- MIX of a pixel with itself is the pixel without its X bits (R235, R244). -/
theorem mixPixel_self {f : PixFmt} {p : Pixel} (h : p.toNat < 2 ^ cellWidth f) : mixPixel f p p = withoutX f p := by
  have hmean (ch : Chan) : (unpack f p ch + unpack f p ch + 1) / 2 = unpack f p ch := by omega
  rw [mixPixel, funext hmean, perChannel_unpack h]

/-- A mask of one bit above a smaller mask keeps that bit and what the smaller mask keeps. -/
theorem and_two_pow_add {n i m : Nat} (hm : m < 2 ^ i) : n &&& (2 ^ i + m) = n / 2 ^ i % 2 * 2 ^ i + (n &&& m) := by
  have hhigh : (n &&& (2 ^ i + m)) / 2 ^ i = n / 2 ^ i % 2 := by
    rw [Nat.and_div_two_pow, Nat.add_div_left _ (Nat.two_pow_pos i), Nat.div_eq_of_lt hm, Nat.and_one_is_mod]
  have hlow : (n &&& (2 ^ i + m)) % 2 ^ i = n &&& m := by
    have hlt : n &&& m < 2 ^ i := Nat.lt_of_le_of_lt Nat.and_le_right hm
    rw [Nat.and_mod_two_pow, Nat.add_mod_left, ← Nat.and_mod_two_pow, Nat.mod_eq_of_lt hlt]
  rw [← hhigh, ← hlow, Nat.div_add_mod']

/-- The mask keeps the lowest bit of each channel in its place. -/
theorem and_lowBits (f : PixFmt) (p : Pixel) :
    (p &&& lowBits f).toNat = placed f fun ch => unpack f p ch % 2 := by
  cases f with
  | rgb565 =>
    rw [BitVec.toNat_and, show (lowBits .rgb565).toNat = 2 ^ 11 + (2 ^ 5 + 1) from rfl, and_two_pow_add (by decide),
      and_two_pow_add (by decide), Nat.and_one_is_mod]
    simp [placed, unpack, chanShift, chanBits]
    omega
  | xrgb8888 =>
    rw [BitVec.toNat_and, show (lowBits .xrgb8888).toNat = 2 ^ 16 + (2 ^ 8 + 1) from rfl, and_two_pow_add (by decide),
      and_two_pow_add (by decide), Nat.and_one_is_mod]
    simp [placed, unpack, chanShift, chanBits]
    omega

/-- The lowest bit of a channel of an exclusive or is the parity of the channels' sum. -/
theorem unpack_xor_mod_two (f : PixFmt) (a b : Pixel) (ch : Chan) :
    unpack f (a ^^^ b) ch % 2 = (unpack f a ch + unpack f b ch) % 2 := by
  have hdvd : 2 ∣ 2 ^ chanBits f ch := by cases f <;> cases ch <;> decide
  rw [Nat.add_mod]
  simp only [unpack, Nat.mod_mod_of_dvd _ hdvd, BitVec.toNat_xor, ← Nat.toNat_testBit, Nat.testBit_xor]
  cases a.toNat.testBit (chanShift f ch) <;> cases b.toNat.testBit (chanShift f ch) <;> rfl

/-- Adding the parity of each channel's sum makes every channel even, so that one halving halves each (R236). -/
theorem placed_half (f : PixFmt) (x y : Chan → Nat) :
    (placed f x + placed f y + placed f fun ch => (x ch + y ch) % 2) / 2 =
      placed f fun ch => (x ch + y ch + 1) / 2 := by
  cases f <;> simp [placed, chanShift] <;> omega

/-- The packed form of MIX, on pixels whose X bits are cut (R236). -/
theorem mixPixel_packed {f : PixFmt} {a b : Pixel} (ha : a.toNat < 2 ^ cellWidth f) (hb : b.toNat < 2 ^ cellWidth f) :
    (mixPixel f a b).toNat =
      ((withoutX f a).toNat + (withoutX f b).toNat + ((withoutX f a ^^^ withoutX f b) &&& lowBits f).toNat) / 2 := by
  rw [and_lowBits]
  simp only [unpack_xor_mod_two, unpack_withoutX ha, unpack_withoutX hb]
  rw [← placed_unpack ha, ← placed_unpack hb, placed_half]
  exact perChannel_toNat (mixChannel_le f a b)

/-- Settles O46: a pixel is the sum of its channels in place, and the masked exclusive or makes each channel's sum
even. -/
theorem mixAgreesWithPackedForm : Obligations.MixAgreesWithPackedForm := by
  unfold Obligations.MixAgreesWithPackedForm
  refine ⟨fun f a b ch => unpack_perChannel f _ (mixChannel_le f a b) ch, fun a b ha hb => ?_, fun a b => ?_, by decide⟩
  · exact mixPixel_packed (f := .rgb565) ha hb
  · exact mixPixel_packed (f := .xrgb8888) a.isLt b.isLt

/-! ## LERP -/

/-- The shift of LERP is the floor of the quotient by 256 (R10, R238). -/
theorem lerp_floor (v h w : Int) :
    256 * (lerp v h w - v) ≤ (h - v) * w + 128 ∧ (h - v) * w + 128 < 256 * (lerp v h w - v + 1) := by
  unfold lerp asr
  omega

/-- LERP lies between its values when the weight is in 0 .. 256 (R238). -/
theorem lerp_between {w : Int} (v h : Int) (h₀ : 0 ≤ w) (h₂₅₆ : w ≤ 256) :
    min v h ≤ lerp v h w ∧ lerp v h w ≤ max v h := by
  obtain ⟨n, rfl⟩ := Int.eq_ofNat_of_zero_le h₀
  have hprod := mul_weight_bounds (h - v) (w := 128 * n) (by omega)
  rw [Int.natCast_mul, Int.mul_left_comm] at hprod
  have hfloor := lerp_floor v h n
  omega

theorem lerp_self (v w : Int) : lerp v v w = v := by
  have hfloor := lerp_floor v v w
  rw [Int.sub_self, Int.zero_mul] at hfloor
  omega

theorem lerp_zero (v h : Int) : lerp v h 0 = v := by
  have hfloor := lerp_floor v h 0
  omega

theorem lerp_full (v h : Int) : lerp v h 256 = h := by
  have hfloor := lerp_floor v h 256
  omega

/-- LERP of values in 0 .. m is in 0 .. m. -/
theorem lerp_range {v h w m : Int} (hw : 0 ≤ w ∧ w ≤ 256) (hv : 0 ≤ v ∧ v ≤ m) (hh : 0 ≤ h ∧ h ≤ m) :
    0 ≤ lerp v h w ∧ lerp v h w ≤ m := by
  have hbetween := lerp_between v h hw.1 hw.2
  omega

theorem clamp_of_range {v m : Int} (h : 0 ≤ v ∧ v ≤ m) : clamp v 0 m = v := by
  unfold clamp
  omega

/-- Settles O47: the floor gives the rounding and the exact ends, the product's bounds the place between. -/
theorem lerpStaysBetween : Obligations.LerpStaysBetween := by
  unfold Obligations.LerpStaysBetween
  refine ⟨fun v h w h₀ h₂₅₆ => ?_, by decide⟩
  obtain ⟨hmin, hmax⟩ := lerp_between v h h₀ h₂₅₆
  obtain ⟨hlo, hhi⟩ := lerp_floor v h w
  exact ⟨hmin, hmax, hlo, hhi, lerp_self v w, lerp_zero v h, lerp_full v h,
    fun m hv hvm hh hhm => clamp_of_range (lerp_range ⟨h₀, h₂₅₆⟩ ⟨hv, hvm⟩ ⟨hh, hhm⟩)⟩

/-! ## The ghosting filters -/

/-- The clamp keeps a channel value in range (R237, R239). -/
theorem clampChannel_of_range {f : PixFmt} {ch : Chan} {v : Int} (h : 0 ≤ v ∧ v ≤ maxC f ch) :
    (clampChannel f ch v : Int) = v := by
  rw [clampChannel, clamp_of_range h, Int.toNat_of_nonneg h.1]

/-- A channel lies in its range, as an integer. -/
theorem unpack_range (f : PixFmt) (p : Pixel) (ch : Chan) :
    0 ≤ (unpack f p ch : Int) ∧ (unpack f p ch : Int) ≤ maxC f ch :=
  ⟨Int.natCast_nonneg _, Int.ofNat_le.2 (unpack_le f p ch)⟩

/-- A channel interpolated toward a pixel's channel stays in its range (R238). -/
theorem lerp_unpack_range {f : PixFmt} {ch : Chan} {v : Int} (hv : 0 ≤ v ∧ v ≤ maxC f ch) (p : Pixel) {w : BitVec 16}
    (hw : w.toNat ≤ 0x100) : 0 ≤ lerp v (unpack f p ch) w.toNat ∧ lerp v (unpack f p ch) w.toNat ≤ maxC f ch :=
  lerp_range ⟨Int.natCast_nonneg _, Int.ofNat_le.2 hw⟩ hv (unpack_range f p ch)

/-- The weight of the fast filter of a legal build (R6). -/
theorem legal_weight {c : Config} (h : c.legal = true) : c.pWf.toNat ≤ 0x100 := by
  simp only [Config.legal, Config.legalWf, Bool.and_eq_true, decide_eq_true_eq] at h
  exact h.2

/-- Settles O48: every interpolation of the chain stays in the channel's range, so the clamp and PACK keep it. -/
theorem ghostFiltersChainLerp : Obligations.GhostFiltersChainLerp := by
  unfold Obligations.GhostFiltersChainLerp
  refine ⟨fun f b cur h1 h2 h3 h4 hw₁ hw₂ hw₃ hw₄ => ⟨fun ch => ?_, ?_⟩, fun c cur h1 hc => ⟨fun ch => ?_, ?_⟩⟩
  · have hr₁ := lerp_unpack_range (unpack_range f cur ch) h1 hw₁
    have hr₂ := lerp_unpack_range hr₁ h2 hw₂
    have hr₃ := lerp_unpack_range hr₂ h3 hw₃
    have hr₄ := lerp_unpack_range hr₃ h4 hw₄
    rw [ghostAcc, unpack_perChannel f _ (fun ch => clampChannel_le f ch _)]
    exact clampChannel_of_range hr₄
  · exact perChannel_lt_of_xrgb8888 fun ch => clampChannel_le f ch _
  · rw [ghostFast, unpack_perChannel c.pPixFmt _ (fun ch => clampChannel_le _ ch _)]
    exact clampChannel_of_range (lerp_unpack_range (unpack_range _ cur ch) h1 (legal_weight hc))
  · exact perChannel_lt_of_xrgb8888 fun ch => clampChannel_le _ ch _

/-- A pixel's own channels pass the clamp unchanged. -/
theorem perChannel_clampChannel_unpack {f : PixFmt} {p : Pixel} (h : p.toNat < 2 ^ cellWidth f) :
    (perChannel f fun ch => clampChannel f ch (unpack f p ch)) = withoutX f p := by
  have hkept (ch : Chan) : clampChannel f ch (unpack f p ch) = unpack f p ch :=
    Int.ofNat_inj.1 (clampChannel_of_range (unpack_range f p ch))
  rw [funext hkept, perChannel_unpack h]

theorem ghostAcc_of_zero_weights {b : Blender} (hw₁ : b.w1 = 0) (hw₂ : b.w2 = 0) (hw₃ : b.w3 = 0) (hw₄ : b.w4 = 0)
    {f : PixFmt} {cur : Pixel} (hcur : cur.toNat < 2 ^ cellWidth f) (h1 h2 h3 h4 : Pixel) :
    ghostAcc f b cur h1 h2 h3 h4 = withoutX f cur := by
  simp [ghostAcc, hw₁, hw₂, hw₃, hw₄, lerp_zero, perChannel_clampChannel_unpack hcur]

theorem ghostFast_of_zero_weight {c : Config} (hw : c.pWf = 0) {cur : Pixel}
    (hcur : cur.toNat < 2 ^ cellWidth c.pPixFmt) (h1 : Pixel) : ghostFast c cur h1 = withoutX c.pPixFmt cur := by
  simp [ghostFast, hw, lerp_zero, perChannel_clampChannel_unpack hcur]

/-- A stored value above the current one stays exactly where its part that fades rounds to 0 (R240). -/
theorem lerp_residue_iff {c d w : Int} (h₀ : 0 ≤ w) (h₂₅₆ : w ≤ 256) (hd : 0 < d) :
    lerp c (c + d) w = c + d ↔ d * (256 - w) ≤ 128 := by
  have hfloor := lerp_floor c (c + d) w
  have hbetween := lerp_between c (c + d) h₀ h₂₅₆
  rw [show c + d - c = d by omega] at hfloor
  rw [Int.mul_sub]
  omega

/-- A stored value below the current one rises, and does not pass it (R240). -/
theorem lerp_rises {c d w : Int} (h₀ : 0 ≤ w) (h₂₅₆ : w ≤ 256) (hd : 0 < d) (hfar : 128 ≤ d * (256 - w)) :
    c - d < lerp c (c - d) w ∧ lerp c (c - d) w ≤ c := by
  have hfloor := lerp_floor c (c - d) w
  have hbetween := lerp_between c (c - d) h₀ h₂₅₆
  rw [show c - d - c = -d by omega, Int.neg_mul] at hfloor
  rw [Int.mul_sub] at hfar
  omega

/-- Settles O54: the floor of LERP at the residue; and weights of 0 interpolate nothing. -/
theorem ghostResidueAndZeroWeights : Obligations.GhostResidueAndZeroWeights := by
  unfold Obligations.GhostResidueAndZeroWeights
  refine ⟨fun c d w => lerp_residue_iff, lerp_full,
    fun c d w h₀ h₂₅₆ hd hfar => lerp_rises h₀ (Int.le_of_lt h₂₅₆) hd hfar,
    fun f b cur h1 h2 h3 h4 hw₁ hw₂ hw₃ hw₄ hcur => ?_, fun c cur h1 hw hcur => ?_⟩
  · exact ghostAcc_of_zero_weights hw₁ hw₂ hw₃ hw₄ hcur h1 h2 h3 h4
  · exact ghostFast_of_zero_weight hw hcur h1

/-! ## Access to the cells -/

/-- Settles O57: the three cases of FB_RD, each under its own premise. -/
theorem frameCellRead : Obligations.FrameCellRead := by
  unfold Obligations.FrameCellRead
  intro s i
  rcases execFbRd_cases i s with ⟨hout, he⟩ | ⟨hin, ⟨hr, he⟩ | ⟨p, hr, he⟩⟩
  · exact ⟨fun _ => he, fun hin => absurd hin (Nat.not_lt.2 hout), fun hin => absurd hin (Nat.not_lt.2 hout)⟩
  · exact ⟨fun hout => absurd hin (Nat.not_lt.2 hout), fun _ p hp => by simp [hr] at hp, fun _ _ => he⟩
  · refine ⟨fun hout => absurd hin (Nat.not_lt.2 hout), fun _ q hq => ?_, fun _ hn => by simp [hr] at hn⟩
    obtain rfl := Option.some.inj (hr.symm.trans hq)
    exact he

/-- An RGB565 cell stores the low 16 bits of a value (R82, R241). -/
theorem storedPixel_rgb565_eq_ofNat (p : Word) : storedPixel .rgb565 p = BitVec.ofNat 32 (p.toNat % 2 ^ 16) := by
  have hmod : p.toNat &&& (2 ^ 16 - 1) = p.toNat % 2 ^ 16 := Nat.and_two_pow_sub_one_eq_mod _ _
  apply BitVec.eq_of_toNat_eq
  rw [BitVec.toNat_ofNat, ← hmod]
  exact (Nat.mod_eq_of_lt (by omega)).symm

/-- A write of one cell, and the response: everything but that cell is kept. -/
theorem onlyMemoriesChange_memWrite (sp : Space) (i : Nat) (p : Word) (s : State) :
    onlyMemoriesChange s ((memWrite sp i p s).respond 0) := by
  simp [onlyMemoriesChange]

/-- Settles O56: the two cases of FB_WR; a read of the cell after its write, and of another. -/
theorem frameCellWrite : Obligations.FrameCellWrite := by
  unfold Obligations.FrameCellWrite
  intro s i d
  rcases execFbWr_cases i d s with ⟨hout, he⟩ | ⟨hin, he⟩
  · exact ⟨fun _ => he, fun hin => absurd hin (Nat.not_lt.2 hout)⟩
  · refine ⟨fun hout => absurd hin (Nat.not_lt.2 hout), fun _ => ⟨_, he, onlyMemoriesChange_memWrite .fb _ d s, ?_, ?_⟩⟩
    · intro sp k hk
      rw [memRead_respond, memRead_memWrite_ne _ _ _ _ _ _ hk]
    · rw [memRead_respond, memRead_memWrite_fb]
      cases s.cfg.pPixFmt with
      | rgb565 => exact congrArg some (storedPixel_rgb565_eq_ofNat d)
      | xrgb8888 => exact congrArg some (BitVec.ofNat_toNat 32 d).symm

/-- The statements' list of the history memories agrees with the model's numbering (R83). -/
theorem getD_histSpace {j : Nat} (h₁ : 1 ≤ j) (h₄ : j ≤ 4) :
    [Space.h1, .h2, .h3, .h4].getD (j - 1) .h4 = histSpace j := by
  obtain rfl | rfl | rfl | rfl : j = 1 ∨ j = 2 ∨ j = 3 ∨ j = 4 := by omega
  all_goals rfl

theorem histSpace_ne_fb (j : Nat) : histSpace j ≠ .fb := by
  unfold histSpace
  split <;> simp

/-- The history memories of a legal build (R6). -/
theorem legal_histAvail {c : Config} (h : c.legal = true) : c.pHistAvail ≤ 4 := by
  simp only [Config.legal, Config.legalHist, Bool.and_eq_true, decide_eq_true_eq] at h
  omega

/-- Settles O58: the two cases of HIST_RD; a history cell always has a value. -/
theorem historyCellRead : Obligations.HistoryCellRead := by
  unfold Obligations.HistoryCellRead
  intro s j i hc
  rcases execHistRd_cases j i s with ⟨hout, he⟩ | ⟨h₁, hj, hi, he⟩
  · exact ⟨fun _ => he, fun h₁ hj hi => by omega⟩
  · refine ⟨fun hout => by omega, fun _ _ _ => ⟨_, ?_, he⟩⟩
    rw [getD_histSpace h₁ (Nat.le_trans hj (legal_histAvail hc))]
    exact memRead_hist _ _ s (histSpace_ne_fb _)

/-! ## BL_FRAME without a blend -/

/-- The mode in effect is none when the mode is, or when its memories are missing (R59). -/
theorem effMode_eq_off_iff (s : State) : effMode s = .off ↔ s.bl.mode = .off ∨ s.cfg.pHistAvail < need s.bl.mode := by
  unfold effMode
  split
  · next h => simp [Nat.not_lt.2 h]
  · next h => simp [Nat.lt_of_not_le h]

theorem exec_blFrame_off {s : State} (h : effMode s = .off) : exec .blFrame s = done 0 s := by
  rcases execBlFrame_cases s with ⟨-, he⟩ | ⟨hne, -⟩ | ⟨hne, -⟩
  · exact he
  · exact absurd h hne
  · exact absurd h hne

theorem exec_blFrame_geom {s : State} (hm : effMode s ≠ .off) (hg : geomValid s = false) :
    exec .blFrame s = done 0 (s.raise .geom) := by
  rcases execBlFrame_cases s with ⟨hoff, -⟩ | ⟨-, -, he⟩ | ⟨-, hvalid, -⟩
  · exact absurd hoff hm
  · exact he
  · simp [hg] at hvalid

/-- Settles O49: the mode in effect and the geometry check, on numbers, choose the case of BL_FRAME. -/
theorem framePassesThroughOrRefusesGeometry : Obligations.FramePassesThroughOrRefusesGeometry := by
  unfold Obligations.FramePassesThroughOrRefusesGeometry
  intro s memories w h pitch
  have hneed : need s.bl.mode = memories := rfl
  refine ⟨fun hoff => exec_blFrame_off ((effMode_eq_off_iff s).2 (hneed ▸ hoff)), fun hmode hmem hinvalid => ?_⟩
  refine exec_blFrame_geom (fun hoff => ?_) (Bool.eq_false_iff.2 fun hg => hinvalid ((geomValid_iff s).1 hg))
  rcases (effMode_eq_off_iff s).1 hoff with hm | hm
  · exact hmode hm
  · exact absurd hmem (Nat.not_le.2 (hneed ▸ hm))

/-! ## BL_FRAME cell by cell -/

/-- What a cell of each memory holds after BL_FRAME has blended its index, from what each held before (R233, R235,
R237, R239). -/
def blendedCell (m : BlendKind) (c : Config) (b : Blender) (old : Space → Pixel) : Space → Pixel :=
  match m with
  | .off => old
  | .mix => fun sp =>
    match sp with
    | .fb => mixPixel c.pPixFmt (old .fb) (old .h1)
    | .h1 => old .fb
    | .h2 | .h3 | .h4 => old sp
  | .ghostAccurate => fun sp =>
    match sp with
    | .fb => ghostAcc c.pPixFmt b (old .fb) (old .h1) (old .h2) (old .h3) (old .h4)
    | .h1 => old .fb
    | .h2 => old .h1
    | .h3 => old .h2
    | .h4 => old .h3
  | .ghostFast => fun sp =>
    match sp with
    | .fb | .h1 => ghostFast c (old .fb) (old .h1)
    | .h2 | .h3 | .h4 => old sp

/-- The cells of one index, in a state whose memories are canonical: what a chain of MemWrites keeps track of (R11). -/
structure CellsHold (i : Nat) (s : State) (old : Space → Pixel) : Prop where
  canonical : ∀ sp, Memory.wf sp.unlisted (s.memory sp) = true
  reads : ∀ sp, memRead sp i s = some (old sp)

/-- The values of one index with another in one memory. -/
def replaceCell (old : Space → Pixel) (sp : Space) (p : Pixel) (sp' : Space) : Pixel := if sp' = sp then p else old sp'

/-- A write of one of the cells replaces its value and no other. -/
theorem CellsHold.write {i : Nat} {s : State} {old : Space → Pixel} (h : CellsHold i s old) (sp : Space) (p : Word) :
    CellsHold i (memWrite sp i p s) (replaceCell old sp (storedPixel s.cfg.pPixFmt p)) := by
  refine ⟨memWrite_wf sp i p s h.canonical, fun sp' => ?_⟩
  by_cases he : sp' = sp
  · subst he
    rw [replaceCell, if_pos rfl, memRead_memWrite_same _ _ _ _ (wf_iff.1 (h.canonical sp')).1]
  · rw [replaceCell, if_neg he, memRead_memWrite_ne _ _ _ _ _ _ (fun hc => he hc.1), h.reads sp']

/-- Every cell of a state that meets the invariant holds a pixel of the cell's width (R80). -/
theorem State.Inv.memRead_fits {s : State} (h : s.Inv) {sp : Space} {i : Nat} {p : Pixel}
    (hp : memRead sp i s = some p) : p.toNat < 2 ^ cellWidth s.cfg.pPixFmt := by
  unfold memRead at hp
  cases hl : memLookup (s.memory sp) i with
  | some q =>
    obtain rfl : q = p := by simpa [hl] using hp
    exact (cellsFit_iff.1 (h.cells sp) _ (memLookup_mem hl)).2
  | none =>
    obtain rfl : p = 0 := by cases sp <;> simp_all [Space.unlisted]
    exact Nat.two_pow_pos _

/-- The values of one index, FB's cell having been written. -/
theorem cellsHold_histRead {s : State} (h : s.Inv) {i : Nat} (hw : memRead .fb i s ≠ none) :
    CellsHold i s fun sp => histRead sp i s := by
  refine ⟨h.memories, fun sp => ?_⟩
  by_cases hsp : sp = .fb
  · obtain ⟨cur, hcur⟩ := Option.ne_none_iff_exists'.1 hw
    simp [histRead, hsp, hcur]
  · exact memRead_hist sp i s hsp

/-- A blended pixel fits its cell, so FB and H1 store it as it is (R82, R232). -/
theorem storedPixel_ghostFast (c : Config) (cur h1 : Pixel) :
    storedPixel c.pPixFmt (ghostFast c cur h1) = ghostFast c cur h1 :=
  storedPixel_of_fits _ _ (perChannel_fits fun ch => clampChannel_le _ ch _)

theorem storedPixel_ghostAcc (f : PixFmt) (b : Blender) (cur h1 h2 h3 h4 : Pixel) :
    storedPixel f (ghostAcc f b cur h1 h2 h3 h4) = ghostAcc f b cur h1 h2 h3 h4 :=
  storedPixel_of_fits _ _ (perChannel_fits fun ch => clampChannel_le f ch _)

theorem storedPixel_mixPixel (f : PixFmt) (a b : Pixel) : storedPixel f (mixPixel f a b) = mixPixel f a b :=
  storedPixel_of_fits _ _ (perChannel_fits (mixChannel_le f a b))

/-- One cell of BL_FRAME: the history cells the filter writes, then the FB cell (R233). -/
theorem blendCell_reads {m : BlendKind} {i : Nat} {s t : State} (h : s.Inv) (ht : blendCell m i s = .ok t)
    (sp : Space) : memRead sp i t = some (blendedCell m s.cfg s.bl (fun sp => histRead sp i s) sp) := by
  obtain ⟨-, hb⟩ | ⟨cur, hcur, hb⟩ := blendCell_cases m i s
  · simp [hb] at ht
  obtain rfl := Except.ok.inj (hb.symm.trans ht)
  have hold := cellsHold_histRead h (i := i) (by simp [hcur])
  have hfb : cur = histRead .fb i s := by simp [histRead, hcur]
  have hstored (sp : Space) : storedPixel s.cfg.pPixFmt (histRead sp i s) = histRead sp i s :=
    storedPixel_of_fits _ _ (h.memRead_fits (hold.reads sp))
  cases m with
  | off =>
    have hnew := (hold.write .fb cur).reads sp
    cases sp <;> simpa [filterCell, blendedCell, replaceCell, hfb, hstored] using hnew
  | mix =>
    have hnew := ((hold.write .h1 cur).write .fb (mixPixel s.cfg.pPixFmt cur (histRead .h1 i s))).reads sp
    cases sp <;> simpa [filterCell, blendedCell, replaceCell, hfb, hstored, storedPixel_mixPixel] using hnew
  | ghostFast =>
    have hnew := ((hold.write .h1 (ghostFast s.cfg cur (histRead .h1 i s))).write .fb
      (ghostFast s.cfg cur (histRead .h1 i s))).reads sp
    cases sp <;> simpa [filterCell, blendedCell, replaceCell, hfb, storedPixel_ghostFast] using hnew
  | ghostAccurate =>
    have hshift := ((hold.write .h4 (histRead .h3 i s)).write .h3 (histRead .h2 i s)).write .h2 (histRead .h1 i s)
    have hnew := ((hshift.write .h1 cur).write .fb (ghostAcc s.cfg.pPixFmt s.bl cur (histRead .h1 i s)
      (histRead .h2 i s) (histRead .h3 i s) (histRead .h4 i s))).reads sp
    cases sp <;> simpa [filterCell, blendedCell, replaceCell, hfb, hstored, storedPixel_ghostAcc] using hnew

/-- The loop of BL_FRAME over distinct cells blends each from what it held when the loop began (R233). -/
theorem blendCells_reads {m : BlendKind} {is : List Nat} {s t : State} (h : s.Inv)
    (his : ∀ i ∈ is, i < s.cfg.pFbPixels) (hm : need m ≤ s.cfg.pHistAvail) (hd : is.Nodup)
    (ht : blendCells m is s = .ok t) {i : Nat} (hi : i ∈ is) (sp : Space) :
    memRead sp i t = some (blendedCell m s.cfg s.bl (fun sp => histRead sp i s) sp) := by
  induction is generalizing s with
  | nil => cases hi
  | cons j js ih =>
    obtain ⟨hj, hjs⟩ := List.nodup_cons.1 hd
    rw [blendCells] at ht
    cases hb : blendCell m j s with
    | error f => simp [hb] at ht
    | ok u =>
      rw [hb] at ht
      have hone : blendCells m [j] s = .ok u := by simp [blendCells, hb]
      obtain ⟨hcfg, -, -, -, hbl, -, -, -⟩ := blendCells_frame m [j] s u hone
      obtain ⟨-, -, -, -, -, -, -, hlater⟩ := blendCells_frame m js u t ht
      rcases List.mem_cons.1 hi with rfl | hi
      · rw [hlater sp i hj, blendCell_reads h hb sp]
      · have hne : i ≠ j := fun he => hj (he ▸ hi)
        have hsame (sp : Space) : histRead sp i u = histRead sp i s := by
          rw [histRead, histRead, blendCell_memRead_ne hb sp i hne]
        have hu : u.Inv := blendCells_inv h (by simpa using his j (by simp)) hm hone
        rw [ih hu (fun k hk => hcfg ▸ his k (by simp [hk])) (hcfg ▸ hm) hjs ht hi, hcfg, hbl, funext hsame]

/-! ## BL_FRAME with a blend -/

/-- A completed BL_FRAME with a blend is its loop and the response 0 (R233). -/
theorem exec_blFrame_inv {s t : State} (hm : effMode s ≠ .off) (hg : geomValid s = true)
    (ht : exec .blFrame s = .next t) :
    ∃ u, blendCells (effMode s) (activeCells s.bl) s = .ok u ∧ t = u.respond 0 := by
  change execBlFrame s = .next t at ht
  rcases execBlFrame_cases s with ⟨hoff, -⟩ | ⟨-, hinvalid, -⟩ | ⟨-, -, ⟨f, -, he⟩ | ⟨u, hu, he⟩⟩
  · exact absurd hoff hm
  · simp [hg] at hinvalid
  · simp [he] at ht
  · exact ⟨u, hu, done_eq_next.1 (he.symm.trans ht)⟩

/-- BL_FRAME completes when every active FB cell has been written (R233, R309). -/
theorem exec_blFrame_completes {s : State} (hw : frameWritten s) :
    ∃ t, exec .blFrame s = .next t := by
  rcases execBlFrame_cases s with ⟨-, he⟩ | ⟨-, -, he⟩ | ⟨-, -, ⟨f, hf, -⟩ | ⟨u, -, he⟩⟩
  · exact ⟨_, he⟩
  · exact ⟨_, he⟩
  · obtain ⟨k, hk, hn, -⟩ := blendCells_error hf
    exact absurd hn (hw k hk)
  · exact ⟨_, he⟩

theorem exec_blFrame_onlyMemoriesChange {s t : State} (hm : effMode s ≠ .off) (hg : geomValid s = true)
    (ht : exec .blFrame s = .next t) : onlyMemoriesChange s t := by
  obtain ⟨u, hu, rfl⟩ := exec_blFrame_inv hm hg ht
  obtain ⟨hcfg, hst, hrs, hpc, hbl, hcmds, hresps, -⟩ := blendCells_frame _ _ s u hu
  exact ⟨hcfg, hst, hrs, hpc, hbl, hcmds, by rw [respond_resps, hresps]⟩

/-- BL_FRAME keeps every cell that is not active, of every memory (R233). -/
theorem exec_blFrame_cellsKept {s t : State} (ht : exec .blFrame s = .next t) :
    cellsKept s t fun _ i => i ∈ activeCells s.bl :=
  fun sp i hi => Classical.byContradiction fun hne => hi (exec_changes .blFrame s t ht sp i hne).2.2

/-- BL_FRAME blends every active cell from what it held before (R233). -/
theorem exec_blFrame_reads {m : BlendKind} {s t : State} (h : s.Inv) (hm : effMode s = m) (hoff : m ≠ .off)
    (hg : geomValid s = true) (ht : exec .blFrame s = .next t) {i : Nat} (hi : i ∈ activeCells s.bl) (sp : Space) :
    memRead sp i t = some (blendedCell m s.cfg s.bl (fun sp => histRead sp i s) sp) := by
  subst hm
  obtain ⟨u, hu, rfl⟩ := exec_blFrame_inv hoff hg ht
  obtain ⟨-, -, hpitch, -⟩ := (geomValid_iff s).1 hg
  rw [memRead_respond]
  exact blendCells_reads h (activeCells_lt hg) (need_effMode_le s) (activeCells_nodup hpitch) hu hi sp

theorem histRead_of_memRead {sp : Space} {i : Nat} {s : State} {p : Pixel} (h : memRead sp i s = some p) :
    histRead sp i s = p := by
  rw [histRead, h, Option.getD_some]

/-- The blends of one history memory keep the older memories. -/
theorem blendedCell_older {m : BlendKind} (hm : m = .mix ∨ m = .ghostFast) {sp : Space} (hsp : sp ≠ .fb ∧ sp ≠ .h1)
    (c : Config) (b : Blender) (old : Space → Pixel) : blendedCell m c b old sp = old sp := by
  cases sp with
  | fb => exact absurd rfl hsp.1
  | h1 => exact absurd rfl hsp.2
  | h2 | h3 | h4 => rcases hm with rfl | rfl <;> rfl

theorem exec_blFrame_keepsOlder {m : BlendKind} {s t : State} (h : s.Inv) (hm : effMode s = m)
    (hone : m = .mix ∨ m = .ghostFast) (hg : geomValid s = true) (ht : exec .blFrame s = .next t) :
    cellsKept s t fun sp i => i ∈ activeCells s.bl ∧ (sp = .fb ∨ sp = .h1) := by
  intro sp i hkept
  by_cases hi : i ∈ activeCells s.bl
  · have hsp : sp ≠ .fb ∧ sp ≠ .h1 := not_or.1 fun hsp => hkept ⟨hi, hsp⟩
    have hoff : m ≠ .off := by rcases hone with rfl | rfl <;> decide
    rw [exec_blFrame_reads h hm hoff hg ht hi sp, memRead_hist sp i s hsp.1, blendedCell_older hone hsp]
  · exact exec_blFrame_cellsKept ht sp i hi

/-- Settles O51: BL_FRAME completes, and blends each active cell by MIX. -/
theorem frameInModeMix : Obligations.FrameInModeMix := by
  unfold Obligations.FrameInModeMix
  intro s h hm hg hw
  obtain ⟨t, ht⟩ := exec_blFrame_completes hw
  refine ⟨t, ht, exec_blFrame_onlyMemoriesChange (by simp [hm]) hg ht,
    exec_blFrame_keepsOlder h hm (.inl rfl) hg ht, fun i hi cur h1 hcur hh1 => ?_⟩
  have hreads := exec_blFrame_reads h hm (by decide) hg ht hi
  obtain rfl := histRead_of_memRead hcur
  obtain rfl := histRead_of_memRead hh1
  exact ⟨hreads .fb, hreads .h1⟩

/-- Settles O52: BL_FRAME completes, and blends each active cell by GHOST_ACC, which shifts the history. -/
theorem frameInModeGhostAccurate : Obligations.FrameInModeGhostAccurate := by
  unfold Obligations.FrameInModeGhostAccurate
  intro s h hm hg hw
  obtain ⟨t, ht⟩ := exec_blFrame_completes hw
  refine ⟨t, ht, exec_blFrame_onlyMemoriesChange (by simp [hm]) hg ht, exec_blFrame_cellsKept ht,
    fun i hi cur h1 h2 h3 h4 hcur hh1 hh2 hh3 hh4 => ?_⟩
  have hreads := exec_blFrame_reads h hm (by decide) hg ht hi
  obtain rfl := histRead_of_memRead hcur
  obtain rfl := histRead_of_memRead hh1
  obtain rfl := histRead_of_memRead hh2
  obtain rfl := histRead_of_memRead hh3
  obtain rfl := histRead_of_memRead hh4
  exact ⟨hreads .fb, hreads .h1, hreads .h2, hreads .h3, hreads .h4⟩

/-- Settles O53: BL_FRAME completes, and blends each active cell by GHOST_FAST, into FB and H1. -/
theorem frameInModeGhostFast : Obligations.FrameInModeGhostFast := by
  unfold Obligations.FrameInModeGhostFast
  intro s h hm hg hw
  obtain ⟨t, ht⟩ := exec_blFrame_completes hw
  refine ⟨t, ht, exec_blFrame_onlyMemoriesChange (by simp [hm]) hg ht,
    exec_blFrame_keepsOlder h hm (.inr rfl) hg ht, fun i hi cur h1 hcur hh1 => ?_⟩
  have hreads := exec_blFrame_reads h hm (by decide) hg ht hi
  obtain rfl := histRead_of_memRead hcur
  obtain rfl := histRead_of_memRead hh1
  exact ⟨hreads .fb, hreads .h1⟩

/-- The mode in effect and the geometry check depend on the build and the blender's registers alone (R59, R65). -/
theorem effMode_geomValid_congr {s t : State} (hcfg : t.cfg = s.cfg) (hbl : t.bl = s.bl) :
    effMode t = effMode s ∧ geomValid t = geomValid s := by
  rw [effMode, effMode, geomValid, geomValid, hcfg, hbl]
  exact ⟨rfl, rfl⟩

/-- Settles O55: after the first frame H1 holds each pixel, so the second mixes it with itself. -/
theorem mixOfRepeatedFrameIsTheFrame : Obligations.MixOfRepeatedFrameIsTheFrame := by
  unfold Obligations.MixOfRepeatedFrameIsTheFrame
  intro s t u v h hm hg ht hu hcfg hbl hh1 hfb hv i hi p hp
  obtain ⟨hcfg', -, -, -, hbl', -, -⟩ := exec_blFrame_onlyMemoriesChange (by simp [hm]) hg ht
  obtain ⟨hmode, hgeom⟩ := effMode_geomValid_congr (hcfg.trans hcfg') (hbl.trans hbl')
  have hiu : i ∈ activeCells u.bl := by rwa [hbl, hbl']
  have hcur : histRead .fb i u = p := histRead_of_memRead ((hfb i hi).trans hp)
  have hlast : histRead .h1 i u = p := by
    have hfirst := exec_blFrame_reads h hm (by decide) hg ht hi .h1
    rw [← histRead_of_memRead hp]
    exact histRead_of_memRead ((memRead_congr (sp := .h1) hh1 i).trans hfirst)
  calc memRead .fb i v = some (mixPixel u.cfg.pPixFmt (histRead .fb i u) (histRead .h1 i u)) :=
        exec_blFrame_reads hu (hmode.trans hm) (by decide) (hgeom.trans hg) hv hiu .fb
    _ = some (withoutX s.cfg.pPixFmt p) := by
        rw [hcur, hlast, hcfg, hcfg', mixPixel_self (h.memRead_fits hp)]

end Sys2Proof.Machine

/-! SUPPORT and PROOF (O8, O9, O13). A step with no word on the port and a step of an illegal build; the one STATUS bit
that a command can newly set; the two commands that an FB cell never written can stop. -/

namespace Sys2Proof.Machine

/-! ## A step that runs no command -/

/-- Settles O8: of the step's four cases, waiting and refusing are the ones that fit the premises. -/
theorem waitsUnchangedWithoutCommand : Obligations.WaitsUnchangedWithoutCommand := by
  unfold Obligations.WaitsUnchangedWithoutCommand
  refine ⟨fun s hl hc => ?_, fun s hl => ?_⟩
  · rcases step_cases s with ⟨hl', -⟩ | ⟨-, -, he⟩ | ⟨c, rest, -, hc', -⟩
    · simp [hl] at hl'
    · exact he
    · simp [hc] at hc'
  · rcases step_cases s with ⟨-, he⟩ | ⟨hl', -⟩ | ⟨c, rest, hl', -⟩
    · exact he
    · simp [hl] at hl'
    · simp [hl] at hl'

/-! ## The STATUS bits newly set -/

/-- The error's STATUS bit is clear in `s` and set in `t` (R280). -/
def NewlySets (s t : State) (e : Err) : Prop := s.flag e = false ∧ t.flag e = true

/-- Every STATUS bit newly set from `s` to `t` is the bit of one error, which is among `errs` (R284). -/
def NewlySetsAtMostOne (errs : List Err) (s t : State) : Prop :=
  (∀ e, ¬NewlySets s t e) ∨ ∃ e₀ ∈ errs, ∀ e, NewlySets s t e → e = e₀

/-- A raise newly sets its own bit at most. -/
theorem eq_of_newlySets_raise {s t : State} {e e₀ : Err} (ht : t.status = (s.raise e₀).status)
    (hn : NewlySets s t e) : e = e₀ := by
  obtain ⟨hs, hset⟩ := hn
  rw [flag_congr ht, raise_flag, hs] at hset
  simpa using hset

theorem RaisesAtMost.newlySetsAtMostOne {errs : List Err} {s t : State} (h : RaisesAtMost errs s t) :
    NewlySetsAtMostOne errs s t := by
  rcases h with hkept | ⟨e₀, he₀, hraised⟩
  · exact .inl fun e ⟨hs, hset⟩ => by simp [flag_congr hkept, hs] at hset
  · exact .inr ⟨e₀, he₀, fun _ hn => eq_of_newlySets_raise hraised hn⟩

/-- In the reset state of STATUS only FALLBACK can be set (R68). -/
theorem eq_fallback_of_statusAtReset {t : State} {c : Config} (ht : t.status = statusAtReset c) {e : Err}
    (hset : t.flag e = true) : e = .fallback := by
  rw [State.flag, ht, statusAtReset] at hset
  split at hset
  · exact of_decide_eq_true ((mask_bit .fallback e).symm.trans hset)
  · simp at hset

/-- A write of STATUS newly sets no bit (R37). -/
theorem not_newlySets_clearStatus {s t : State} {v : Word} (ht : t.status = (s.clearStatus v).status) (e : Err) :
    ¬NewlySets s t e := by
  rintro ⟨hs, hset⟩
  simp [flag_congr ht, clearStatus_flag, hs] at hset

/-- Whatever a command does to STATUS, it newly sets at most one bit, of its own. -/
theorem StatusEffect.newlySetsAtMostOne {i : Instr} {s t : State} (h : StatusEffect i s t) :
    NewlySetsAtMostOne (mayRaise i) s t := by
  rcases h with hraises | ⟨rfl, hreset⟩ | ⟨v, rfl, hclear⟩
  · exact hraises.newlySetsAtMostOne
  · exact .inr ⟨.fallback, by simp [mayRaise], fun _ hn => eq_fallback_of_statusAtReset hreset hn.2⟩
  · exact .inl (not_newlySets_clearStatus hclear)

/-- Settles O13: the bits a completed command newly sets are all the bit of one error, which R280 lists for it. -/
theorem atMostOneOwnErrorPerCommand : Obligations.AtMostOneOwnErrorPerCommand := by
  unfold Obligations.AtMostOneOwnErrorPerCommand
  intro i s t ht
  rcases (exec_statusEffect i s t ht).newlySetsAtMostOne with hnone | ⟨e₀, he₀, hone⟩
  · exact ⟨fun e hs hset => absurd ⟨hs, hset⟩ (hnone e), fun e₁ _ hs₁ hset₁ _ _ => absurd ⟨hs₁, hset₁⟩ (hnone e₁)⟩
  · exact ⟨fun e hs hset => hone e ⟨hs, hset⟩ ▸ he₀,
      fun e₁ e₂ hs₁ hset₁ hs₂ hset₂ => (hone e₁ ⟨hs₁, hset₁⟩).trans (hone e₂ ⟨hs₂, hset₂⟩).symm⟩

/-! ## Where a command stops -/

/-- A command other than FB_RD and BL_FRAME completes in every state (R296). -/
theorem exec_completes {i : Instr} (hrd : ∀ x, i ≠ .fbRd x) (hframe : i ≠ .blFrame) (s : State) :
    ∃ t, exec i s = .next t := by
  cases i with
  | nop | reset | rsMark | pcAdd | pcClear => exact ⟨_, rfl⟩
  | rdreg n => obtain ⟨-, he⟩ | ⟨r, -, he⟩ := execRdreg_cases n s <;> exact ⟨_, he⟩
  | wrreg n v => obtain ⟨-, he⟩ | ⟨r, -, he⟩ := execWrreg_cases n v s <;> exact ⟨_, he⟩
  | rsPush l r => obtain ⟨-, he⟩ | ⟨-, he⟩ := execRsPush_cases l r s <;> exact ⟨_, he⟩
  | rsPop => obtain ⟨-, he⟩ | ⟨y, ys, -, he⟩ := execRsPop_cases s <;> exact ⟨_, he⟩
  | pcCheck => obtain ⟨-, he⟩ | ⟨-, he⟩ := execPcCheck_cases s <;> exact ⟨_, he⟩
  | pcCommit => obtain ⟨-, he⟩ | ⟨-, he⟩ := execPcCommit_cases s <;> exact ⟨_, he⟩
  | fbWr x p => obtain ⟨-, he⟩ | ⟨-, he⟩ := execFbWr_cases x p s <;> exact ⟨_, he⟩
  | histRd j x => obtain ⟨-, he⟩ | ⟨-, -, -, he⟩ := execHistRd_cases j x s <;> exact ⟨_, he⟩
  | fbRd x => exact absurd rfl (hrd x)
  | blFrame => exact absurd rfl hframe

/-- FB_RD completes, but for a cell of FB never written (R242, R302). -/
theorem exec_fbRd_completes_or_faults (x : BitVec 16) (s : State) :
    (∃ t, exec (.fbRd x) s = .next t) ∨
      (x.toNat < s.cfg.pFbPixels ∧ memRead .fb x.toNat s = none ∧
        exec (.fbRd x) s = .fault (.fbCellUnwritten x.toNat)) := by
  rcases execFbRd_cases x s with ⟨-, he⟩ | ⟨hin, ⟨hr, he⟩ | ⟨p, -, he⟩⟩
  · exact .inl ⟨_, he⟩
  · exact .inr ⟨hin, hr, he⟩
  · exact .inl ⟨_, he⟩

/-- BL_FRAME completes, or it blends under a valid geometry and faults at an active cell never written (R233, R302). -/
theorem exec_blFrame_completes_or_faults (s : State) :
    (∃ t, exec .blFrame s = .next t) ∨
      (effMode s ≠ .off ∧ geomValid s = true ∧
        ∃ k ∈ activeCells s.bl, memRead .fb k s = none ∧ exec .blFrame s = .fault (.fbCellUnwritten k)) := by
  rcases execBlFrame_cases s with ⟨-, he⟩ | ⟨-, -, he⟩ | ⟨hm, hg, ⟨f, hf, he⟩ | ⟨t, -, he⟩⟩
  · exact .inl ⟨_, he⟩
  · exact .inl ⟨_, he⟩
  · obtain ⟨k, hk, hn, rfl⟩ := blendCells_error hf
    exact .inr ⟨hm, hg, k, hk, hn, he⟩
  · exact .inl ⟨_, he⟩

/-- A BL_FRAME that blends completes only when every active cell has been written (R302). -/
theorem frameWritten_of_exec_blFrame {s t : State} (hm : effMode s ≠ .off) (hg : geomValid s = true)
    (ht : exec .blFrame s = .next t) : frameWritten s := by
  obtain ⟨u, hu, -⟩ := exec_blFrame_inv hm hg ht
  exact blendCells_ok_written hu

/-- Settles O9: FB_RD and BL_FRAME alone can stop, each at a cell never written; and a BL_FRAME with such a cell active
cannot complete, so it stops. -/
theorem onlyUnwrittenCellsStopACommand : Obligations.OnlyUnwrittenCellsStopACommand := by
  unfold Obligations.OnlyUnwrittenCellsStopACommand
  refine ⟨fun i s => ?_, fun s hm hg ⟨j, hj, hn⟩ => ?_⟩
  · cases i with
    | fbRd x =>
      exact (exec_fbRd_completes_or_faults x s).imp_right fun ⟨hin, hr, he⟩ =>
        ⟨x.toNat, he, hr, .inl ⟨x, rfl, rfl, hin⟩⟩
    | blFrame =>
      exact (exec_blFrame_completes_or_faults s).imp_right fun ⟨hm, hg, k, hk, hn, he⟩ =>
        ⟨k, he, hn, .inr ⟨rfl, hm, hg, hk⟩⟩
    | _ => exact .inl (exec_completes (by simp) (by simp) s)
  · rcases exec_blFrame_completes_or_faults s with ⟨t, ht⟩ | ⟨-, -, hfault⟩
    · exact absurd hn (frameWritten_of_exec_blFrame hm hg ht j hj)
    · exact hfault

end Sys2Proof.Machine

/-! SUPPORT and PROOF (O60). The commands that complete and leave STATUS alone, each under its clause of
`State.dutiful`; a push has room for all its pairs because no push makes more than `pushBound` of them. -/

namespace Sys2Proof.Machine

/-- The result is a next state with the STATUS of `s`. -/
def CompletesQuietly (s : State) (r : Result) : Prop := ∃ t, r = .next t ∧ t.status = s.status

theorem completesQuietly_done {s t : State} (h : t.status = s.status) (v : Word) : CompletesQuietly s (done v t) :=
  ⟨_, rfl, h⟩

/-! ## RS_PUSH with room for its pairs -/

theorem emit_status_of_room {s : State} (h : s.rs.outq.length < s.cfg.pQ) (yl yr : Int) :
    (emit yl yr s).status = s.status := by
  rw [emit_eq_offer (Nat.le_of_lt h), offer_of_room (by exact h)]

/-- The sinc backend makes one pair at most, so room for one is enough (R161, R307). -/
theorem sincStep_status_of_room {s : State} (h : s.rs.outq.length < s.cfg.pQ) (l r : Sample) :
    (sincStep l r s).status = s.status := by
  by_cases hlast : s.rs.ph = s.cfg.pD - 1
  · rw [sincStep_last hlast, emit_status_of_room (by exact h)]
  · rw [sincStep_middle hlast]

/-- From a CR of 1 or more, the cosine backend makes at most ceil(P_FO / P_FI) pairs (R170, R307). -/
theorem cosMade_le_ceil {c : Config} (hc : c.legal = true) {cr : Nat} (hcr : 1 ≤ cr) :
    cosMade c cr ≤ (c.pFo + c.pFi - 1) / c.pFi := by
  obtain ⟨hfi, -⟩ := legal_cosine hc
  unfold cosMade
  split
  · calc (c.pFo - cr) / c.pFi + 1 = (c.pFo - cr + c.pFi) / c.pFi := (Nat.add_div_right _ hfi).symm
      _ ≤ (c.pFo + c.pFi - 1) / c.pFi := Nat.div_le_div_right (by omega)
  · exact Nat.zero_le _

theorem cosStep_status_of_room {s : State} (h : s.Inv)
    (hroom : s.rs.outq.length + (s.cfg.pFo + s.cfg.pFi - 1) / s.cfg.pFi ≤ s.cfg.pQ) (l r : Sample) :
    (cosStep l r s).status = s.status := by
  have hcr : 1 ≤ s.rs.cr.toNat := by
    obtain ⟨-, hfo, -⟩ := legal_cosine h.build
    have := h.cosPhase
    omega
  have hmade := cosMade_le_ceil h.build hcr
  rw [cosStep_offers h.build h.outq, offer_of_room (by rw [cosPairs, packedPairs_length]; omega)]

/-- The step of either backend raises no OVF when OUTQ has room for `pushBound` pairs (R307). -/
theorem backendStep_status_of_room {s : State} (h : s.Inv) (hroom : s.rs.outq.length + pushBound s ≤ s.cfg.pQ)
    (l r : Sample) : (backendStep l r s).status = s.status := by
  unfold pushBound at hroom
  unfold backendStep
  cases heff : effBackend s with
  | sinc => exact sincStep_status_of_room (by simpa [heff] using hroom) l r
  | cosine => exact cosStep_status_of_room h (by simpa [heff] using hroom) l r

theorem exec_rsPush_completesQuietly {s : State} (h : s.Inv) (hcap : capAccepts s = true)
    (hroom : s.rs.outq.length + pushBound s ≤ s.cfg.pQ) (l r : Sample) :
    CompletesQuietly s (exec (.rsPush l r) s) :=
  ⟨_, exec_rsPush_accepted (of_decide_eq_true hcap) l r, backendStep_status_of_room h hroom l r⟩

/-! ## The other commands -/

theorem execRdreg_completesQuietly {n : BitVec 8} (hn : regOf n ≠ none) (s : State) :
    CompletesQuietly s (execRdreg n s) := by
  rcases execRdreg_cases n s with ⟨hnone, -⟩ | ⟨r, -, he⟩
  · exact absurd hnone hn
  · exact he ▸ completesQuietly_done rfl _

theorem execRsPop_completesQuietly {s : State} (hq : s.rs.outq ≠ []) : CompletesQuietly s (execRsPop s) := by
  rcases execRsPop_cases s with ⟨hempty, -⟩ | ⟨y, ys, -, he⟩
  · exact absurd hempty hq
  · exact he ▸ completesQuietly_done rfl y

theorem execPcCheck_completesQuietly (s : State) : CompletesQuietly s (execPcCheck s) := by
  rcases execPcCheck_cases s with ⟨-, he⟩ | ⟨-, he⟩ <;> exact he ▸ completesQuietly_done rfl _

theorem execPcCommit_completesQuietly {s : State} (hrun : s.pc.run = true) : CompletesQuietly s (execPcCommit s) := by
  rcases execPcCommit_cases s with ⟨-, he⟩ | ⟨hnone, -⟩
  · exact he ▸ completesQuietly_done rfl 0
  · simp [hrun] at hnone

theorem exec_blFrame_completesQuietly {s : State}
    (h : effMode s = .off ∨ (geomValid s = true ∧ frameWritten s)) : CompletesQuietly s (exec .blFrame s) := by
  by_cases hoff : effMode s = .off
  · exact exec_blFrame_off hoff ▸ completesQuietly_done rfl 0
  · obtain ⟨hg, hw⟩ := h.resolve_left hoff
    obtain ⟨t, ht⟩ := exec_blFrame_completes hw
    obtain ⟨-, hstatus, -⟩ := exec_blFrame_onlyMemoriesChange hoff hg ht
    exact ⟨t, ht, hstatus⟩

theorem execFbWr_completesQuietly {x : BitVec 16} {s : State} (hx : x.toNat < s.cfg.pFbPixels) (p : Word) :
    CompletesQuietly s (execFbWr x p s) := by
  rcases execFbWr_cases x p s with ⟨hout, -⟩ | ⟨-, he⟩
  · exact absurd hx (Nat.not_lt.2 hout)
  · exact he ▸ completesQuietly_done (by simp) 0

theorem execFbRd_completesQuietly {x : BitVec 16} {s : State} (hx : x.toNat < s.cfg.pFbPixels)
    (hw : memRead .fb x.toNat s ≠ none) : CompletesQuietly s (execFbRd x s) := by
  rcases execFbRd_cases x s with ⟨hout, -⟩ | ⟨-, ⟨hnone, -⟩ | ⟨p, -, he⟩⟩
  · exact absurd hx (Nat.not_lt.2 hout)
  · exact absurd hnone hw
  · exact he ▸ completesQuietly_done rfl p

theorem execHistRd_completesQuietly {j : BitVec 8} {x : BitVec 16} {s : State} (h₁ : 1 ≤ j.toNat)
    (hj : j.toNat ≤ s.cfg.pHistAvail) (hx : x.toNat < s.cfg.pFbPixels) : CompletesQuietly s (execHistRd j x s) := by
  rcases execHistRd_cases j x s with ⟨hout, -⟩ | ⟨-, -, -, he⟩
  · omega
  · exact he ▸ completesQuietly_done rfl _

/-- Settles O60: each command's clause of `State.dutiful` rules out the one case of the command that raises or stops. -/
theorem dutifulCommandsRaiseNothing : Obligations.DutifulCommandsRaiseNothing := by
  unfold Obligations.DutifulCommandsRaiseNothing
  intro i s h hdutiful hwrreg hreset
  obtain ⟨-, hduty⟩ := hdutiful
  cases i with
  | nop | rsMark | pcAdd | pcClear => exact completesQuietly_done rfl 0
  | rdreg n => exact execRdreg_completesQuietly hduty s
  | wrreg n v => exact absurd rfl (hwrreg n v)
  | reset => exact absurd rfl hreset
  | rsPush l r =>
    obtain ⟨hcap, hroom⟩ := hduty
    exact exec_rsPush_completesQuietly h hcap hroom l r
  | rsPop => exact execRsPop_completesQuietly hduty
  | pcCheck => exact execPcCheck_completesQuietly s
  | pcCommit => exact execPcCommit_completesQuietly hduty
  | blFrame => exact exec_blFrame_completesQuietly hduty
  | fbWr x p => exact execFbWr_completesQuietly hduty p
  | fbRd x =>
    obtain ⟨hx, hw⟩ := hduty
    exact execFbRd_completesQuietly hx hw
  | histRd j x =>
    obtain ⟨h₁, hj, hx⟩ := hduty
    exact execHistRd_completesQuietly h₁ hj hx

end Sys2Proof.Machine
